-- ==== Sys2Proof/Word.lean ====
section
/-! DEFINITION. The byte, the 32-bit register word and the 8-byte block (spec 00_scope.md R5, R14, R15). -/

namespace Sys2Proof

/-- A byte is 8 bits (R14). -/
abbrev Byte := BitVec 8

/-- A register value is a 32-bit unsigned word (R15). -/
abbrev Word := BitVec 32

/-- A sequence of exactly BLOCK_SIZE = 8 bytes (R5, R11), indexed from 0: `b0` is byte 0. -/
@[ext] structure Block where
  b0 : Byte
  b1 : Byte
  b2 : Byte
  b3 : Byte
  b4 : Byte
  b5 : Byte
  b6 : Byte
  b7 : Byte
deriving DecidableEq, Repr

/-- The block of eight zero bytes. -/
def Block.zero : Block := ⟨0, 0, 0, 0, 0, 0, 0, 0⟩

end Sys2Proof
end

