-- ==== Sys2Proof/Config.lean ====
section
/-! DEFINITION. What a build of the block fixes (spec 00_scope.md R6 to R11, R13) and the free values. -/

namespace Sys2Proof

/-- KEY_POLICY (R6): which key lengths the gate accepts. -/
inductive KeyPolicy where
  | strict16
  | permissive8
deriving DecidableEq, Repr

/-- Which block-cipher primitive is plugged in (R11, decision D19): the external one of which only the laws of R12 are
known, or the test primitive of 95_test_vectors.md section 0 (decision D35). -/
inductive Primitive where
  | external
  | testVectors
deriving DecidableEq, Repr

/-- The build parameters of the parameter summary in 00_scope.md. Plain data: State carries them, and no step changes
them, so a statement for every state is a statement for every build. -/
structure Config where
  keyPolicy     : KeyPolicy   -- R6
  keyMaxBytes   : Nat         -- R7
  unpadCheckAll : Bool        -- R8
  bufBytes      : Nat         -- R9
  base          : Nat         -- R10
  irqLine       : Nat         -- 60_exceptions.md R218
  primitive     : Primitive   -- R11
deriving DecidableEq, Repr

/-- The default build. BASE and IRQ_LINE are OPEN in the spec: 0 is this model's DESIGN CHOICE (log entry 8). -/
def Config.default : Config where
  keyPolicy     := .permissive8
  keyMaxBytes   := 32
  unpadCheckAll := true
  bufBytes      := 16384
  base          := 0
  irqLine       := 0
  primitive     := .external

/-- The external 64-bit block cipher: for each key a permutation of the blocks, its inverse being decryption (R11, R12).
Free: nothing more is known of it (log entry 5). -/
opaque Config.blockCipher : List Byte → Equiv.Perm Block

/-- IN_BUF_INIT (R13): the byte that input buffer position `i` holds after reset number `n`. Free (log entry 4). -/
opaque Config.inBufInit : Nat → Nat → Byte

/-- OUT_BUF_INIT (R13): the byte that output buffer position `i` holds after reset number `n`. Free (log entry 4). -/
opaque Config.outBufInit : Nat → Nat → Byte

end Sys2Proof
end

