-- ==== Sys2Proof/Syntax.lean ====
section
/-! DEFINITION. The command set CBCX-1 (spec 30_encoding.md R90 to R95): one constructor per row of the opcode table. -/

namespace Sys2Proof

/-- The decoded command. No command has an operand field (R91, R94). `bad` is the row BAD: every word the other rows do
not match (R93, R95); it carries its word so that encoding gives that word back (log entry 16). -/
inductive Instr where
  | nop
  | encrypt
  | decrypt
  | clear
  | pad
  | unpad
  | bad (w : Word)
deriving DecidableEq, Repr

end Sys2Proof
end

