-- ==== Sys2Proof/WellFormed.lean ====
section
/-! DEFINITION. Which terms of the syntax and which build parameters the spec admits. -/

namespace Sys2Proof

/-- A command term is well formed: `bad` carries a word that R93 sends to BAD (RSVD ≠ 0, or OP in 0x6 to 0xF). -/
def Instr.wf : Instr → Bool
  | .nop | .encrypt | .decrypt | .clear | .pad | .unpad => true
  | .bad w => decide (w.extractLsb' 4 28 ≠ 0#28) || decide (6 ≤ (w.extractLsb' 0 4).toNat)

/-- The constraints of R7 (KEY_MAX_BYTES a multiple of 8 in 16..256), R9 (BUF_BYTES a multiple of 8 in 8..65536) and R10
(BASE a multiple of 0x40000). -/
def Config.wf (c : Config) : Bool :=
  decide (c.keyMaxBytes % 8 = 0) && decide (16 ≤ c.keyMaxBytes) && decide (c.keyMaxBytes ≤ 256) &&
  decide (c.bufBytes % 8 = 0) && decide (8 ≤ c.bufBytes) && decide (c.bufBytes ≤ 65536) &&
  decide (c.base % 0x40000 = 0)

end Sys2Proof
end

