-- ==== Sys2Proof/Decode.lean ====
section
/-! DEFINITION. The decoder, total on all 2^32 words and on any bytes (spec 30_encoding.md R91 to R96), the byte-order
helpers it needs (20_memory.md R62), and the encoder. -/

namespace Sys2Proof

/-- Byte `j` of a word is its bits [8j+7:8j] (20_memory.md R62). -/
def byteOf (w : Word) (j : Nat) : Byte := w.extractLsb' (8 * j) 8

/-- The bytes of a word, lowest address first (R62). -/
def wordBytes (w : Word) : List Byte := [byteOf w 0, byteOf w 1, byteOf w 2, byteOf w 3]

/-- The word whose bytes, lowest address first, are given (R62). -/
def wordOfBytes (b0 b1 b2 b3 : Byte) : Word := b3 ++ b2 ++ b1 ++ b0

/-- Field OP, bits [3:0] (R91). -/
def opField (w : Word) : Nat := (w.extractLsb' 0 4).toNat

/-- Field RSVD, bits [31:4] (R91). -/
def rsvdField (w : Word) : Nat := (w.extractLsb' 4 28).toNat

/-- `Decode` of R93. -/
def decode (w : Word) : Instr :=
  if rsvdField w ≠ 0 then .bad w
  else match opField w with
    | 0 => .nop
    | 1 => .encrypt
    | 2 => .decrypt
    | 3 => .clear
    | 4 => .pad
    | 5 => .unpad
    | _ => .bad w

/-- Why bytes present no command. -/
inductive Reject where
  /-- Fewer than the four bytes of CMD32: a CMD write narrower than 4 bytes is a bus error and presents no command (R96). -/
  | narrow
deriving DecidableEq, Repr

/-- The command that bytes written to CMD present, and the bytes after it: the first four bytes are the command word. -/
def decodeBytes : List Byte → Except Reject (Instr × List Byte)
  | b0 :: b1 :: b2 :: b3 :: rest => .ok (decode (wordOfBytes b0 b1 b2 b3), rest)
  | _ => .error .narrow

/-- What the decoder reads from an opcode-table row's bits (bit 0 the least significant of the word). -/
def decodeTableWord (nbits w : Nat) : Option Instr :=
  if nbits ≤ 32 then
    match decodeBytes (wordBytes (BitVec.ofNat 32 (w % 2 ^ nbits))) with
    | .ok (i, _) => some i
    | .error _ => none
  else none

/-- The command word of a well-formed command (the full words of R92; the word itself for BAD, R95). -/
def encode : Instr → Word
  | .nop     => 0x00000000
  | .encrypt => 0x00000001
  | .decrypt => 0x00000002
  | .clear   => 0x00000003
  | .pad     => 0x00000004
  | .unpad   => 0x00000005
  | .bad w   => w

/-- The bytes of a command as the bus carries them. -/
def encodeBytes (i : Instr) : List Byte := wordBytes (encode i)

end Sys2Proof
end

