-- ==== Sys2Proof/Machine/State.lean ====
section
/-! DEFINITION. The state of one instance of the block (spec 10_state.md R26 to R50), the two agents' pending work, and
the state after reset (70_reset_and_hazards.md R240). -/

namespace Sys2Proof.Machine

/-- PHASE (R47). -/
inductive Phase where
  | idle
  | run
deriving DecidableEq, Repr

/-- An operation (00_scope.md glossary; R48). OPL is `Option Op`: `none` is NONE. -/
inductive Op where
  | encrypt
  | decrypt
  | pad
  | unpad
deriving DecidableEq, Repr

/-- The error names of STATUS.ERR (60_exceptions.md R210). The reserved code 7 has no name here: it is never written (R217). -/
inductive Err where
  | none
  | invalidKeySize
  | invalidIvSize
  | invalidCiphertextLength
  | invalidPadding
  | lengthRange
  | badCommand
deriving DecidableEq, Repr

/-- The registers of the map of R22. -/
inductive Reg where
  | id | caps | bufsz | ctrl | cmd | status | keyLen | ivLen | inLen | outLen | blkCnt
deriving DecidableEq, Repr

/-- What one byte offset of the aperture reaches (20_memory.md R60). -/
inductive Region where
  | register            -- 0x000 to 0x0FF, reserved offsets among them
  | key (i : Nat)       -- implemented byte i of the key window
  | iv (i : Nat)
  | input (i : Nat)     -- implemented byte i of the input window
  | output (i : Nat)    -- implemented byte i of the output window
  | reserved            -- a reserved region or an unimplemented window byte
deriving DecidableEq, Repr

/-- The block's response to a bus access (20_memory.md R65, R66): a bus error or not, and the data of a read (0 for a write). -/
structure BusResp where
  error : Bool
  data  : Word
deriving DecidableEq, Repr

/-- One statement of a host program (30_encoding.md R97, R98), its address a bus address (BASE + offset, 00_scope.md R10). -/
inductive HostStmt where
  | read (addr n : Nat)                  -- lw, lh, lb: n = 4, 2, 1
  | write (addr n : Nat) (v : Word)      -- sw, sh, sb
  | poll (addr : Nat) (mask v : Word)    -- repeat lw until (value AND mask) = v
deriving DecidableEq, Repr

/-- Whose turn it is (R18, R80), or an edge of the reset input (70_reset_and_hazards.md R242). -/
inductive Turn where
  | host
  | engine
  | assertReset
  | releaseReset
deriving DecidableEq, Repr

/-- The contents of a buffer RAM that were written since reset: (address, byte), addresses strictly rising. -/
abbrev Memory := List Host.Cell

/-- The whole state. The fields from `ie` to `opl` are the tuple of R50; `rstAsserted` is the level of the reset input;
the others are the model's own (INVENTORY.md). -/
structure State where
  -- CTRL and STATUS
  ie          : Bool
  done        : Bool
  outValid    : Bool
  err         : Err
  wbusy       : Bool
  cmdovr      : Bool
  -- length and count registers
  keyLen      : Word
  ivLen       : Word
  inLen       : Word
  outLen      : Word
  blkCnt      : Word
  -- arrays
  key         : List Byte
  iv          : Block
  inBuf       : Memory
  outBuf      : Memory
  -- hidden state
  chain       : Block
  phase       : Phase
  opl         : Option Op
  -- the reset input
  rstAsserted : Bool
  -- the model's own fields
  resetCount  : Nat
  host        : List HostStmt
  sched       : List Turn
  resp        : Option BusResp
  cfg         : Config
deriving DecidableEq, Repr

/-- Why the machine stops. -/
inductive Fault where
  /-- Raised by the engine's turn when PHASE = RUN and OPL = NONE, for which R126 gives no step rule. Safe: no reachable
  state has it (Safety.lean), and nothing can be proved of what the hardware would do there. -/
  | runWithoutOperation
deriving DecidableEq, Repr

/-- Why an instruction has no meaning. -/
inductive Refusal where
  /-- The instruction of that mnemonic is not modelled. Safe: nothing can be proved past it. No arm of this model raises it. -/
  | notModelled (mnemonic : String)
deriving DecidableEq, Repr

/-- The state right after reset of a build, with nothing placed for the host to do (R240, R243). -/
def State.resetOf (cfg : Config) : State where
  ie          := false
  done        := false
  outValid    := false
  err         := .none
  wbusy       := false
  cmdovr      := false
  keyLen      := 0
  ivLen       := 0
  inLen       := 0
  outLen      := 0
  blkCnt      := 0
  key         := List.replicate cfg.keyMaxBytes 0
  iv          := Block.zero
  inBuf       := []
  outBuf      := []
  chain       := Block.zero
  phase       := .idle
  opl         := none
  rstAsserted := false
  resetCount  := 0
  host        := []
  sched       := []
  resp        := none
  cfg         := cfg

/-- The state right after reset of the default build. -/
def State.reset : State := State.resetOf Config.default

end Sys2Proof.Machine
end

