-- ==== Sys2Proof/Machine/Flags.lean ====
section
/-! DEFINITION. STATUS, its W1C write, the capability word and the interrupt output (spec 10_state.md R24, R28 to R35, R49;
60_exceptions.md R210, R218). -/

namespace Sys2Proof.Machine

/-- STATUS.BUSY is 1 exactly when PHASE = RUN (R29). -/
def State.busy (s : State) : Bool := decide (s.phase = .run)

/-- The 3-bit code of an error (60_exceptions.md R210). -/
def Err.code : Err → BitVec 3
  | .none                    => 0
  | .invalidKeySize          => 1
  | .invalidIvSize           => 2
  | .invalidCiphertextLength => 3
  | .invalidPadding          => 4
  | .lengthRange             => 5
  | .badCommand              => 6

/-- A flag as bit `k` of a word. -/
def flagBit (b : Bool) (k : Nat) : Word := (BitVec.ofBool b).zeroExtend 32 <<< k

/-- The value STATUS reads as (R28). -/
def statusWord (s : State) : Word :=
  flagBit s.busy 0 ||| flagBit s.done 1 ||| flagBit s.outValid 2 ||| (s.err.code.zeroExtend 32 <<< 4) |||
    flagBit s.wbusy 8 ||| flagBit s.cmdovr 9

/-- A host write of `v` to STATUS (R35): write 1 to clear DONE, WBUSY and CMDOVR. This is how the host acknowledges a
completion; there is no other return operation (60_exceptions.md R222). -/
def statusWrite (v : Word) (s : State) : State :=
  { s with
    done   := s.done && !v.getLsbD 1
    wbusy  := s.wbusy && !v.getLsbD 8
    cmdovr := s.cmdovr && !v.getLsbD 9 }

/-- The value CTRL reads as (R26). -/
def ctrlWord (s : State) : Word := flagBit s.ie 0

/-- A host write of `v` to CTRL (R26). -/
def ctrlWrite (v : Word) (s : State) : State := { s with ie := v.getLsbD 0 }

/-- ID (R23). -/
def idWord : Word := 0x43424331

/-- CAPS (R24): BLOCK_SIZE in [7:0], KEY_POLICY in [8], UNPAD_CHECK_ALL in [9], KEY_MAX_BYTES in [24:16]. -/
def capsWord (c : Config) : Word :=
  (8 : Word) ||| flagBit (decide (c.keyPolicy = .permissive8)) 8 ||| flagBit c.unpadCheckAll 9 |||
    ((BitVec.ofNat 9 c.keyMaxBytes).zeroExtend 32 <<< 16)

/-- BUFSZ (R25). -/
def bufszWord (c : Config) : Word := BitVec.ofNat 32 c.bufBytes

/-- The interrupt output: irq = STATUS.DONE AND CTRL.IE (R49, R218). -/
def State.irq (s : State) : Bool := s.done && s.ie

/-- The level of platform interrupt line `n` as this block drives it (R218: irq is on line IRQ_LINE). -/
def State.drivesLine (s : State) (n : Nat) : Bool := decide (n = s.cfg.irqLine) && s.irq

end Sys2Proof.Machine
end

