-- ==== Sys2Proof/Machine/Block.lean ====
section
/-! DEFINITION. Operations on 8-byte blocks (spec 00_scope.md R14, R17; 42_cbc.md R160, R162). -/

namespace Sys2Proof

/-- Byte `j` of a block, j < 8. -/
def Block.get (b : Block) : Nat → Byte
  | 0 => b.b0
  | 1 => b.b1
  | 2 => b.b2
  | 3 => b.b3
  | 4 => b.b4
  | 5 => b.b5
  | 6 => b.b6
  | 7 => b.b7
  | _ => 0

/-- `b` with byte `j` replaced by `v`, j < 8. -/
def Block.set (b : Block) (j : Nat) (v : Byte) : Block :=
  match j with
  | 0 => { b with b0 := v }
  | 1 => { b with b1 := v }
  | 2 => { b with b2 := v }
  | 3 => { b with b3 := v }
  | 4 => { b with b4 := v }
  | 5 => { b with b5 := v }
  | 6 => { b with b6 := v }
  | 7 => { b with b7 := v }
  | _ => b

/-- The block whose byte `j` is `f j`. -/
def Block.ofFn (f : Nat → Byte) : Block := ⟨f 0, f 1, f 2, f 3, f 4, f 5, f 6, f 7⟩

/-- The eight bytes of a block, byte 0 first. -/
def Block.toList (b : Block) : List Byte := [b.b0, b.b1, b.b2, b.b3, b.b4, b.b5, b.b6, b.b7]

/-- `xor8`: eight independent byte lanes (R160). -/
def xor8 (a b : Block) : Block := Block.ofFn fun j => a.get j ^^^ b.get j

/-- Block `i` of a byte sequence is s[8i..8i+8) (R162). -/
def blockAt (s : List Byte) (i : Nat) : Block := Block.ofFn fun j => s.getD (8 * i + j) 0

/-- The blocks of a byte sequence in order, i = 0, 1, …, len / 8 − 1 (R162). -/
def blocksOf (s : List Byte) : List Block := (List.range (s.length / 8)).map (blockAt s)

/-- The bytes of a sequence of blocks, in order. -/
def bytesOf (bs : List Block) : List Byte := bs.flatMap Block.toList

end Sys2Proof
end

