-- ==== Sys2Proof/Machine/Memory.lean ====
section
/-! DEFINITION. The buffer RAMs as canonical lists of cells (spec 10_state.md R43 to R45). An address that is not listed
holds no value written since reset; the byte it reads as is the reset draw (Machine/Operands.lean, log entry 4). -/

namespace Sys2Proof.Machine

/-- The byte written at an address since reset, if any. -/
def Memory.find : Memory → Nat → Option Byte
  | [], _ => none
  | c :: m, a => if c.1 = a then some c.2 else Memory.find m a

/-- The cells of consecutive bytes from address `a`. -/
def Memory.cells (a : Nat) : List Byte → Memory
  | [] => []
  | b :: bs => (a, b) :: Memory.cells (a + 1) bs

/-- Store consecutive bytes from address `a`. -/
def Memory.store (m : Memory) (a : Nat) (bs : List Byte) : Memory :=
  m.filter (fun c => decide (c.1 < a)) ++ Memory.cells a bs ++
    m.filter (fun c => decide (a + bs.length ≤ c.1))

/-- The canonical form: addresses strictly rising, hence no address twice. -/
abbrev Memory.wf (m : Memory) : Prop := m.Pairwise fun x y => x.1 < y.1

/-- Every listed address is below `n`. -/
abbrev Memory.below (m : Memory) (n : Nat) : Prop := ∀ c ∈ m, c.1 < n

end Sys2Proof.Machine
end

