-- ==== Sys2Proof/Machine/Operands.lean ====
section
/-! DEFINITION. The implicit operands of the commands (spec 30_encoding.md R94): what a command reads of KEY, IN_BUF and
OUT_BUF. -/

namespace Sys2Proof.Machine

/-- IN_BUF[i]: the byte written since reset, else the draw IN_BUF_INIT (10_state.md R45). -/
def inByte (s : State) (i : Nat) : Byte := (Memory.find s.inBuf i).getD (Config.inBufInit s.resetCount i)

/-- OUT_BUF[i], not gated: the byte the engine wrote since reset, else the draw OUT_BUF_INIT (R45). -/
def outByte (s : State) (i : Nat) : Byte := (Memory.find s.outBuf i).getD (Config.outBufInit s.resetCount i)

/-- IN_BUF[0..n). -/
def inBytes (s : State) (n : Nat) : List Byte := (List.range n).map (inByte s)

/-- OUT_BUF[0..n), not gated. -/
def outBytes (s : State) (n : Nat) : List Byte := (List.range n).map (outByte s)

/-- IN_BUF[8i..8i+8). -/
def inBlock (s : State) (i : Nat) : Block := Block.ofFn fun j => inByte s (8 * i + j)

/-- OUT_BUF[8i..8i+8), not gated. -/
def outBlock (s : State) (i : Nat) : Block := Block.ofFn fun j => outByte s (8 * i + j)

/-- K = KEY[0..KEY_LEN) (00_scope.md R17). -/
def keyOperand (s : State) : List Byte := s.key.take s.keyLen.toNat

end Sys2Proof.Machine
end

