-- ==== Sys2Proof/Machine/Ops.lean ====
section
/-! DEFINITION. The shared operations of acceptance, completion, scrub and reset (spec 40_gate.md R110 to R122,
43_control.md R191, 70_reset_and_hazards.md R240 to R242). -/

namespace Sys2Proof.Machine

/-- `Start()` (R112). -/
def start (s : State) : State :=
  { s with done := false, outValid := false, err := .none, outLen := 0, blkCnt := 0 }

/-- `Scrub()` (R122). -/
def scrub (s : State) : State :=
  { s with
    key    := List.replicate s.cfg.keyMaxBytes 0
    keyLen := 0
    iv     := Block.zero
    ivLen  := 0
    chain  := Block.zero }

/-- `Scrub()` where the completion asks for it. -/
def scrubIf (b : Bool) (s : State) : State := if b then scrub s else s

/-- `CompleteOK(n, scrub)` (R120). -/
def completeOK (n : Nat) (b : Bool) (s : State) : State :=
  scrubIf b
    { s with
      outLen := BitVec.ofNat 32 n, outValid := true, err := .none, done := true, phase := .idle, opl := none }

/-- `CompleteError(code, scrub)` (R121): the block's one exception entry (60_exceptions.md R221). It saves the code in ERR
and leaves BLK_CNT; control goes nowhere. -/
def completeError (e : Err) (b : Bool) (s : State) : State :=
  scrubIf b { s with outLen := 0, outValid := false, err := e, done := true, phase := .idle, opl := none }

/-- Only ENCRYPT and DECRYPT scrub (R113, R122). -/
def Op.scrubs : Op → Bool
  | .encrypt => true
  | .decrypt => true
  | .pad     => false
  | .unpad   => false

/-- `Launch(c)` (R118): CHAIN is loaded from IV for ENCRYPT and DECRYPT. -/
def launch (c : Op) (s : State) : State :=
  { s with opl := some c, phase := .run, chain := if c.scrubs then s.iv else s.chain }

/-- A command other than NOP while BUSY = 1 (R111): ignored, and CMDOVR is set. -/
def overrun (s : State) : State := { s with cmdovr := true }

/-- A command other than NOP (R110): `act` when idle, ignored when busy. -/
def whenIdle (act : State → State) (s : State) : State := if s.busy then overrun s else act s

/-- `SoftClear()` (43_control.md R191). -/
def softClear (s : State) : State :=
  { s with
    ie := false, done := false, outValid := false, err := .none, wbusy := false, cmdovr := false
    keyLen := 0, ivLen := 0, inLen := 0, outLen := 0, blkCnt := 0
    key := List.replicate s.cfg.keyMaxBytes 0, iv := Block.zero, chain := Block.zero
    phase := .idle, opl := none }

/-- Asserting `rst_n` (R240 to R242): every element of the block's state takes its reset value, the buffers' draws are those
of the next reset, and the block is held. The build, the host's pending statements, the schedule and the last response are
not the block's. -/
def assertReset (s : State) : State :=
  { State.resetOf s.cfg with
    rstAsserted := true, resetCount := s.resetCount + 1, host := s.host, sched := s.sched, resp := s.resp }

/-- Releasing `rst_n` (R242): the block is idle and accepts accesses at once. -/
def releaseReset (s : State) : State := { s with rstAsserted := false }

end Sys2Proof.Machine
end

