-- ==== Sys2Proof/Machine/Gate.lean ====
section
/-! DEFINITION. The key/IV validation gate and the capacity checks (spec 40_gate.md R113 to R119). -/

namespace Sys2Proof.Machine

/-- `key_ok(L)` (R114). -/
def keyOk (c : Config) (l : Word) : Bool :=
  match c.keyPolicy with
  | .strict16    => decide (l.toNat = 16)
  | .permissive8 => decide (8 ≤ l.toNat) && decide (l.toNat % 8 = 0) && decide (l.toNat ≤ c.keyMaxBytes)

/-- `iv_ok(L)` (R115). -/
def ivOk (l : Word) : Bool := decide (l.toNat = 8)

/-- `ct_len_ok(L)` (R116). -/
def ctLenOk (l : Word) : Bool := decide (0 < l.toNat) && decide (l.toNat % 8 = 0)

/-- `enc_range_ok(L)` (R119). -/
def encRangeOk (c : Config) (l : Word) : Bool := decide (l.toNat < c.bufBytes)

/-- `dec_range_ok(L)` (R119). -/
def decRangeOk (c : Config) (l : Word) : Bool := decide (l.toNat ≤ c.bufBytes)

/-- The checks of a command in their order, each with the error it gives (the table of R113). -/
def gateChecks (c : Op) (s : State) : List (Bool × Err) :=
  match c with
  | .encrypt =>
    [(keyOk s.cfg s.keyLen, .invalidKeySize), (ivOk s.ivLen, .invalidIvSize),
     (encRangeOk s.cfg s.inLen, .lengthRange)]
  | .decrypt =>
    [(keyOk s.cfg s.keyLen, .invalidKeySize), (ivOk s.ivLen, .invalidIvSize),
     (ctLenOk s.inLen, .invalidCiphertextLength), (decRangeOk s.cfg s.inLen, .lengthRange)]
  | .pad   => [(encRangeOk s.cfg s.inLen, .lengthRange)]
  | .unpad => [(decRangeOk s.cfg s.inLen, .lengthRange)]

/-- The error of the first check that fails (R113: no later check is made). -/
def firstFailure : List (Bool × Err) → Option Err
  | [] => none
  | c :: cs => if c.1 then firstFailure cs else some c.2

/-- `Gate(c)` (R113): an error completion in this same step (R117), or the launch. -/
def gate (c : Op) (s : State) : State :=
  match firstFailure (gateChecks c s) with
  | some e => completeError e c.scrubs s
  | none   => launch c s

/-- The acceptance of ENCRYPT, DECRYPT, PAD or UNPAD while idle: `Start(); Gate(c)` (R110). -/
def acceptOp (c : Op) (s : State) : State := gate c (start s)

end Sys2Proof.Machine
end

