-- ==== Sys2Proof/Machine/Padding.lean ====
section
/-! DEFINITION. The padding transform: pad, unpad, their engine steps, and the commands PAD and UNPAD (spec 41_padding.md
R140 to R145). -/

namespace Sys2Proof.Machine

/-- `pad_len(L) = 8 - (L mod 8)` (R140). -/
def padLen (l : Nat) : Nat := 8 - l % 8

/-- `pad(d)` (R140). -/
def pad (d : List Byte) : List Byte :=
  d ++ List.replicate (padLen d.length) (BitVec.ofNat 8 (padLen d.length))

/-- `PadByte(L, q)` (R140): byte q of pad(IN_BUF[0..L)). -/
def padByte (s : State) (l q : Nat) : Byte := if q < l then inByte s q else BitVec.ofNat 8 (padLen l)

/-- Block `i` of the padded input, made by the byte counter (42_cbc.md R163). -/
def padBlock (s : State) (l i : Nat) : Block := Block.ofFn fun j => padByte s l (8 * i + j)

/-- `unpad(d)` (R141), with UNPAD_CHECK_ALL given; `none` is INVALID_PADDING. -/
def unpad (checkAll : Bool) (d : List Byte) : Option (List Byte) :=
  let l := d.length
  let p := d.getD (l - 1) 0
  if l = 0 then none
  else if p.toNat = 0 ∨ 8 < p.toNat then none
  else if l < p.toNat then none
  else if checkAll && (d.drop (l - p.toNat)).any (fun x => decide (x ≠ p)) then none
  else some (d.take (l - p.toNat))

/-- `PadStep()` (R142). -/
def padStep (s : State) : State :=
  let l := s.inLen.toNat
  let n := l + padLen l
  completeOK n false { s with outBuf := Memory.store s.outBuf 0 ((List.range n).map (padByte s l)) }

/-- `UnpadStep()` (R143). -/
def unpadStep (s : State) : State :=
  match unpad s.cfg.unpadCheckAll (inBytes s s.inLen.toNat) with
  | none   => completeError .invalidPadding false s
  | some r => completeOK r.length false { s with outBuf := Memory.store s.outBuf 0 r }

/-- PAD (R144): the host step that writes CMD; the transform is the engine step that follows. -/
def execPad (s : State) : Host.Outcome State Fault Refusal := .next (whenIdle (acceptOp .pad) s)

/-- UNPAD (R145): the host step that writes CMD; the transform is the engine step that follows. -/
def execUnpad (s : State) : Host.Outcome State Fault Refusal := .next (whenIdle (acceptOp .unpad) s)

end Sys2Proof.Machine
end

