-- ==== Sys2Proof/Machine/Primitive.lean ====
section
/-! DEFINITION. The block-cipher primitive E, D as the engine calls it (spec 00_scope.md R11, R12), and the test primitive
of 95_test_vectors.md section 0 (decision D35). -/

namespace Sys2Proof

/-- F(k)[j]: the XOR of k[i] over all i < len(k) with i mod 8 = j (95_test_vectors.md section 0). -/
def keyFold (k : List Byte) (j : Nat) : Byte :=
  ((List.range k.length).filter fun i => decide (i % 8 = j)).foldl (fun x i => x ^^^ k.getD i 0) 0

/-- E_T(k, b)[j] = b[(j+1) mod 8] XOR F(k)[(j+1) mod 8]. -/
def testEncrypt (k : List Byte) (b : Block) : Block :=
  Block.ofFn fun j => b.get ((j + 1) % 8) ^^^ keyFold k ((j + 1) % 8)

/-- D_T(k, c)[m] = c[(m+7) mod 8] XOR F(k)[m]. -/
def testDecrypt (k : List Byte) (c : Block) : Block :=
  Block.ofFn fun m => c.get ((m + 7) % 8) ^^^ keyFold k m

/-- E: the document's `block_encrypt` (R11). -/
def cipherE (p : Primitive) (k : List Byte) (b : Block) : Block :=
  match p with
  | .external    => Config.blockCipher k b
  | .testVectors => testEncrypt k b

/-- D: the document's `block_decrypt` (R11). -/
def cipherD (p : Primitive) (k : List Byte) (c : Block) : Block :=
  match p with
  | .external    => (Config.blockCipher k).symm c
  | .testVectors => testDecrypt k c

end Sys2Proof
end

