-- ==== Sys2Proof/Machine/Cbc.lean ====
section
/-! DEFINITION. The CBC chaining engine: the block steps, the whole-operation form, and the commands ENCRYPT and DECRYPT
(spec 42_cbc.md R160 to R168). -/

namespace Sys2Proof.Machine

/-- The cipher block `EncStep` computes: E(K, P_i XOR CHAIN) (R163). -/
def encCipherBlock (s : State) : Block :=
  cipherE s.cfg.primitive (keyOperand s) (xor8 (padBlock s s.inLen.toNat s.blkCnt.toNat) s.chain)

/-- `EncStep()` up to the completion test (R163): write the block, shift it into CHAIN, count it. -/
def encAdvance (s : State) : State :=
  { s with
    outBuf := Memory.store s.outBuf (8 * s.blkCnt.toNat) (encCipherBlock s).toList
    chain  := encCipherBlock s
    blkCnt := s.blkCnt + 1 }

/-- NBLK of ENCRYPT (R163). -/
def encBlocks (l : Nat) : Nat := l / 8 + 1

/-- `EncStep()` (R163). -/
def encStep (s : State) : State :=
  if s.blkCnt.toNat + 1 = encBlocks s.inLen.toNat then
    completeOK (8 * encBlocks s.inLen.toNat) true (encAdvance s)
  else encAdvance s

/-- The plaintext block `DecStep` computes: D(K, C_i) XOR CHAIN (R164). -/
def decPlainBlock (s : State) : Block :=
  xor8 (cipherD s.cfg.primitive (keyOperand s) (inBlock s s.blkCnt.toNat)) s.chain

/-- `DecStep()` up to the completion test (R164): CHAIN takes the ciphertext block. -/
def decAdvance (s : State) : State :=
  { s with
    outBuf := Memory.store s.outBuf (8 * s.blkCnt.toNat) (decPlainBlock s).toList
    chain  := inBlock s s.blkCnt.toNat
    blkCnt := s.blkCnt + 1 }

/-- The end of DECRYPT (R164): unpad OUT_BUF[0..L); the strip is the byte count alone. -/
def decFinish (s : State) : State :=
  match unpad s.cfg.unpadCheckAll (outBytes s s.inLen.toNat) with
  | none   => completeError .invalidPadding true s
  | some r => completeOK r.length true s

/-- `DecStep()` (R164). -/
def decStep (s : State) : State :=
  if s.blkCnt.toNat + 1 = s.inLen.toNat / 8 then decFinish (decAdvance s) else decAdvance s

/-- The ciphertext blocks of CBC_ENC from chain value `ch` (R168). -/
def cbcEncBlocks (enc : Block → Block) : Block → List Block → List Block
  | _, [] => []
  | ch, p :: ps => enc (xor8 p ch) :: cbcEncBlocks enc (enc (xor8 p ch)) ps

/-- The raw plaintext blocks of CBC_DEC from chain value `ch` (R168). -/
def cbcDecBlocks (dec : Block → Block) : Block → List Block → List Block
  | _, [] => []
  | ch, c :: cs => xor8 (dec c) ch :: cbcDecBlocks dec c cs

/-- CBC_ENC(K, IV, d) (R168). -/
def cbcEnc (p : Primitive) (k : List Byte) (iv : Block) (d : List Byte) : List Byte :=
  bytesOf (cbcEncBlocks (cipherE p k) iv (blocksOf (pad d)))

/-- CBC_DEC before unpad: the raw decrypted bytes (R168, R170). -/
def cbcDecRaw (p : Primitive) (k : List Byte) (iv : Block) (c : List Byte) : List Byte :=
  bytesOf (cbcDecBlocks (cipherD p k) iv (blocksOf c))

/-- CBC_DEC(K, IV, c) (R168); `none` is INVALID_PADDING. -/
def cbcDec (checkAll : Bool) (p : Primitive) (k : List Byte) (iv : Block) (c : List Byte) : Option (List Byte) :=
  unpad checkAll (cbcDecRaw p k iv c)

/-- ENCRYPT (R166): the host step that writes CMD; the blocks are the engine steps that follow. -/
def execEncrypt (s : State) : Host.Outcome State Fault Refusal := .next (whenIdle (acceptOp .encrypt) s)

/-- DECRYPT (R167): the host step that writes CMD; the blocks are the engine steps that follow. -/
def execDecrypt (s : State) : Host.Outcome State Fault Refusal := .next (whenIdle (acceptOp .decrypt) s)

end Sys2Proof.Machine
end

