-- ==== Sys2Proof/Machine/Control.lean ====
section
/-! DEFINITION. The control commands NOP, CLEAR and the illegal command BAD (spec 43_control.md R190 to R192). -/

namespace Sys2Proof.Machine

/-- NOP (R190): no state changes, even while BUSY. -/
def execNop (s : State) : Host.Outcome State Fault Refusal := .next s

/-- CLEAR (R191). -/
def execClear (s : State) : Host.Outcome State Fault Refusal := .next (whenIdle softClear s)

/-- BAD (R192): `Start(); CompleteError(BAD_COMMAND, scrub = false)`. The word itself is not kept (60_exceptions.md R216). -/
def execBad (_w : Word) (s : State) : Host.Outcome State Fault Refusal :=
  .next (whenIdle (fun s => completeError .badCommand false (start s)) s)

end Sys2Proof.Machine
end

