-- ==== Sys2Proof/Machine/Dispatch.lean ====
section
/-! DEFINITION. `OnCmdWrite` (spec 40_gate.md R110): one arm per command. -/

namespace Sys2Proof.Machine

def exec (i : Instr) (s : State) : Host.Outcome State Fault Refusal :=
  match i with
  | .nop => Sys2Proof.Machine.execNop s
  | .encrypt => Sys2Proof.Machine.execEncrypt s
  | .decrypt => Sys2Proof.Machine.execDecrypt s
  | .clear => Sys2Proof.Machine.execClear s
  | .pad => Sys2Proof.Machine.execPad s
  | .unpad => Sys2Proof.Machine.execUnpad s
  | .bad w => Sys2Proof.Machine.execBad w s

end Sys2Proof.Machine
end

