-- ==== Sys2Proof/Machine/Bus.lean ====
section
/-! DEFINITION. The address map, the read and write primitives and the busy-write rule (spec 20_memory.md R60 to R77;
10_state.md R22 to R42). -/

namespace Sys2Proof.Machine

/-- The size of the aperture in bytes (00_scope.md R10). -/
def apertureBytes : Nat := 0x40000

/-- The block offset of a bus address inside the aperture (R60, R61): the bus address minus BASE. -/
def offsetOf (c : Config) (addr : Nat) : Option Nat :=
  if c.base ≤ addr ∧ addr < c.base + apertureBytes then some (addr - c.base) else none

/-- The register at an offset of the register region (10_state.md R22); `none` is a reserved offset. -/
def regAt (r : Nat) : Option Reg :=
  if r = 0x000 then some .id
  else if r = 0x004 then some .caps
  else if r = 0x008 then some .bufsz
  else if r = 0x00C then some .ctrl
  else if r = 0x010 then some .cmd
  else if r = 0x014 then some .status
  else if r = 0x018 then some .keyLen
  else if r = 0x01C then some .ivLen
  else if r = 0x020 then some .inLen
  else if r = 0x024 then some .outLen
  else if r = 0x028 then some .blkCnt
  else none

/-- What byte offset `o` reaches (R60). A window offset past the implemented part is reserved. -/
def regionOf (c : Config) (o : Nat) : Region :=
  if o < 0x100 then .register
  else if o < 0x200 then (if o - 0x100 < c.keyMaxBytes then .key (o - 0x100) else .reserved)
  else if o < 0x208 then .iv (o - 0x200)
  else if o < 0x10000 then .reserved
  else if o < 0x20000 then (if o - 0x10000 < c.bufBytes then .input (o - 0x10000) else .reserved)
  else if o < 0x30000 then (if o - 0x20000 < c.bufBytes then .output (o - 0x20000) else .reserved)
  else .reserved

/-- The value of a register (R68). -/
def readReg (s : State) : Reg → Word
  | .id     => idWord
  | .caps   => capsWord s.cfg
  | .bufsz  => bufszWord s.cfg
  | .ctrl   => ctrlWord s
  | .cmd    => 0
  | .status => statusWord s
  | .keyLen => s.keyLen
  | .ivLen  => s.ivLen
  | .inLen  => s.inLen
  | .outLen => s.outLen
  | .blkCnt => s.blkCnt

/-- The value a 4-byte read at register offset `r` returns (R68): 0 for a reserved offset (R74). -/
def regValue (s : State) (r : Nat) : Word :=
  match regAt r with
  | some g => readReg s g
  | none   => 0

/-- `ReadByte(o)` (R68 to R74): the key window reads 0, the output window goes through the output gate. -/
def readByte (s : State) (o : Nat) : Byte :=
  match regionOf s.cfg o with
  | .register => byteOf (regValue s (4 * (o / 4))) (o % 4)
  | .key _    => 0
  | .iv i     => s.iv.get i
  | .input i  => inByte s i
  | .output i => if s.outValid && decide (i < s.outLen.toNat) then outByte s i else 0
  | .reserved => 0

/-- The access is malformed (R63, R64): not 1, 2 or 4 bytes, misaligned, or not 4 bytes wide in the register region. -/
def malformed (a n : Nat) : Bool :=
  !(decide (n = 1) || decide (n = 2) || decide (n = 4)) || decide (a % n ≠ 0) ||
    (decide (a < 0x100) && decide (n ≠ 4))

/-- The bytes at a, …, a+n−1 as a little-endian value (R62, R66). -/
def readBytes (s : State) (a : Nat) : Nat → Word
  | 0 => 0
  | j + 1 => readBytes s a j ||| ((readByte s (a + j)).zeroExtend 32 <<< (8 * j))

/-- `MemRead(a, n)` (R66). -/
def memRead (s : State) (a n : Nat) : BusResp :=
  if malformed a n then { error := true, data := 0 } else { error := false, data := readBytes s a n }

/-- A host write to an implemented register that the busy-write rule covers (R69, R76): `set` when idle, dropped when busy. -/
def lenWrite (set : State → State) (s : State) : State := if s.busy then { s with wbusy := true } else set s

/-- `RegisterWrite(r, v)` (R69). -/
def registerWrite (s : State) (r : Nat) (v : Word) : Host.Outcome State Fault Refusal :=
  match regAt r with
  | some .ctrl   => .next (ctrlWrite v s)
  | some .cmd    => exec (decode v) s
  | some .status => .next (statusWrite v s)
  | some .keyLen => .next (lenWrite (fun s => { s with keyLen := v }) s)
  | some .ivLen  => .next (lenWrite (fun s => { s with ivLen := v }) s)
  | some .inLen  => .next (lenWrite (fun s => { s with inLen := v }) s)
  | some .id | some .caps | some .bufsz | some .outLen | some .blkCnt => .next s
  | none         => .next s

/-- `Droppable(a)` (R67): an implemented byte of the key, IV or input window. -/
def droppable (c : Config) (a : Nat) : Bool :=
  match regionOf c a with
  | .key _ | .iv _ | .input _ => true
  | .register | .output _ | .reserved => false

/-- `WriteByte(o, b)` while the write is not dropped (R70 to R74). -/
def writeByte (s : State) (o : Nat) (b : Byte) : State :=
  match regionOf s.cfg o with
  | .key i   => { s with key := s.key.set i b }
  | .iv i    => { s with iv := s.iv.set i b }
  | .input i => { s with inBuf := Memory.store s.inBuf i [b] }
  | .register | .output _ | .reserved => s

/-- Write bytes 0, …, n−1 of `v` at a, …, a+n−1 (R62, R67). -/
def writeBytes (s : State) (a : Nat) (v : Word) : Nat → State
  | 0 => s
  | j + 1 => writeByte (writeBytes s a v j) (a + j) (byteOf v j)

/-- `MemWrite(a, n, v)` (R67), with the response recorded first: the checks in the order of 60_exceptions.md R220. -/
def memWrite (s : State) (a n : Nat) (v : Word) : Host.Outcome State Fault Refusal :=
  if malformed a n then .next { s with resp := some { error := true, data := 0 } }
  else
    let s' := { s with resp := some { error := false, data := 0 } }
    if a < 0x100 then registerWrite s' a v
    else if droppable s.cfg a && s.busy then .next { s' with wbusy := true }
    else .next (writeBytes s' a v n)

end Sys2Proof.Machine
end

