-- ==== Sys2Proof/Machine/Engine.lean ====
section
/-! DEFINITION. The engine step (spec 40_gate.md R126). -/

namespace Sys2Proof.Machine

/-- The engine's step while PHASE = RUN, chosen by OPL (R126). -/
def engineStep (s : State) : Host.Outcome State Fault Refusal :=
  match s.opl with
  | none          => .fault .runWithoutOperation
  | some .encrypt => .next (encStep s)
  | some .decrypt => .next (decStep s)
  | some .pad     => .next (padStep s)
  | some .unpad   => .next (unpadStep s)

end Sys2Proof.Machine
end

