-- ==== Sys2Proof/Machine/Agents.lean ====
section
/-! DEFINITION. The two agents and the reset input: whose turn it is and what a turn does (spec 00_scope.md R18,
20_memory.md R80 and R81, 40_gate.md R126, 70_reset_and_hazards.md R242). -/

namespace Sys2Proof.Machine

/-- A host read of n bytes at a bus address: no state of the block changes (20_memory.md R75). An address outside the
aperture does not reach the block (R60), which then gives no response. -/
def busRead (s : State) (addr n : Nat) : State :=
  match offsetOf s.cfg addr with
  | some a => { s with resp := some (memRead s a n) }
  | none   => { s with resp := none }

/-- A host write of n bytes at a bus address. -/
def busWrite (s : State) (addr n : Nat) (v : Word) : Host.Outcome State Fault Refusal :=
  match offsetOf s.cfg addr with
  | some a => memWrite s a n v
  | none   => .next { s with resp := none }

/-- The poll condition on the last response (30_encoding.md R98). A poll outside the aperture is answered elsewhere and is
taken as satisfied (log entry 13). -/
def pollDone (r : Option BusResp) (mask v : Word) : Bool :=
  match r with
  | some r => decide (r.data &&& mask = v)
  | none   => true

/-- The host's step: its next statement (30_encoding.md R97, R98). A poll that is not satisfied stays. -/
def hostStep (s : State) : Host.Outcome State Fault Refusal :=
  match s.host with
  | [] => .next s
  | .read addr n :: rest => .next (busRead { s with host := rest } addr n)
  | .write addr n v :: rest => busWrite { s with host := rest } addr n v
  | .poll addr mask v :: rest =>
    let t := busRead s addr 4
    .next (if pollDone t.resp mask v then { t with host := rest } else t)

/-- What a turn does. While `rst_n` is asserted neither agent has a step (R242); while PHASE = IDLE the engine has none (R126). -/
def takeTurn (t : Turn) (s : State) : Host.Outcome State Fault Refusal :=
  match t with
  | .host         => if s.rstAsserted then .next s else hostStep s
  | .engine       => if s.rstAsserted || !s.busy then .next s else engineStep s
  | .assertReset  => .next (assertReset s)
  | .releaseReset => .next (releaseReset s)

/-- Whose turn comes next: the schedule's, and where it lists none the engine's while it has a step, else the host's
(log entry 2). -/
def nextTurn (s : State) : Turn :=
  match s.sched with
  | t :: _ => t
  | [] => if s.busy then .engine else .host

/-- The state with that turn taken off the schedule. -/
def afterTurn (s : State) : State := { s with sched := s.sched.tail }

end Sys2Proof.Machine
end

