-- ==== Sys2Proof/Machine/Step.lean ====
section
/-! DEFINITION. One step of the machine, and placing a command word where the next step finds it. -/

namespace Sys2Proof.Machine

/-- One step: the next turn, taken (spec 00_scope.md R18, 20_memory.md R80). -/
def step (s : State) : Host.Outcome State Fault Refusal := takeTurn (nextTurn s) (afterTurn s)

/-- The state in which the very next step is the host's 4-byte write of command word `w` to CMD (spec 30_encoding.md R90),
with `rst_n` released. The block fetches nothing (10_state.md R21): a command comes to run by being written (log entry 3). -/
def State.withFetchWord (s : State) (nbits w : Nat) : State :=
  { s with
    host        := .write (s.cfg.base + 0x010) 4 (BitVec.ofNat 32 (w % 2 ^ nbits)) :: s.host
    sched       := .host :: s.sched
    rstAsserted := false }

end Sys2Proof.Machine
end

