-- ==== Sys2Proof/Machine/HostAsm.lean ====
section
/-! DEFINITION. The host assembly notation: offset symbols and the expansions of the pseudo-instructions (spec
30_encoding.md R97 to R99). -/

namespace Sys2Proof.Machine

/-- The offset of a register's symbol (R99). -/
def Reg.offset : Reg → Nat
  | .id     => 0x000
  | .caps   => 0x004
  | .bufsz  => 0x008
  | .ctrl   => 0x00C
  | .cmd    => 0x010
  | .status => 0x014
  | .keyLen => 0x018
  | .ivLen  => 0x01C
  | .inLen  => 0x020
  | .outLen => 0x024
  | .blkCnt => 0x028

/-- The offsets of the window symbols KEY, IV, IN and OUT (R99). -/
def keyWin : Nat := 0x100
def ivWin : Nat := 0x200
def inWin : Nat := 0x10000
def outWin : Nat := 0x20000

/-- `sw OFF, V`, `sh OFF, V`, `sb OFF, V` and `lw OFF`, `lh OFF`, `lb OFF` (R97), at an instance's BASE. -/
def sw (c : Config) (off : Nat) (v : Word) : HostStmt := .write (c.base + off) 4 v
def sh (c : Config) (off : Nat) (v : Word) : HostStmt := .write (c.base + off) 2 v
def sb (c : Config) (off : Nat) (v : Word) : HostStmt := .write (c.base + off) 1 v
def lw (c : Config) (off : Nat) : HostStmt := .read (c.base + off) 4
def lh (c : Config) (off : Nat) : HostStmt := .read (c.base + off) 2
def lb (c : Config) (off : Nat) : HostStmt := .read (c.base + off) 1

/-- `cmd NAME` (R98). -/
def cmdStmt (c : Config) (i : Instr) : HostStmt := sw c Reg.cmd.offset (encode i)

/-- `wait`: poll until BUSY = 0 (R98). -/
def waitStmt (c : Config) : HostStmt := .poll (c.base + Reg.status.offset) 0x00000001 0x00000000

/-- `ack`: clear DONE, WBUSY and CMDOVR (R98). -/
def ackStmt (c : Config) : HostStmt := sw c Reg.status.offset 0x00000302

/-- `load WIN, b0 b1 …` (R98): whole words first, then the remaining bytes. -/
def loadStmts (c : Config) (off : Nat) : List Byte → List HostStmt
  | b0 :: b1 :: b2 :: b3 :: bs => sw c off (wordOfBytes b0 b1 b2 b3) :: loadStmts c (off + 4) bs
  | b0 :: bs => sb c off (b0.zeroExtend 32) :: loadStmts c (off + 1) bs
  | [] => []

/-- `read WIN, n` (R98): ceil(n/4) word reads. -/
def readStmts (c : Config) (off n : Nat) : List HostStmt :=
  (List.range ((n + 3) / 4)).map fun k => lw c (off + 4 * k)

end Sys2Proof.Machine
end

