-- ==== Sys2Proof/Machine/Port.lean ====
section
/-! DEFINITION. The primitive's port in a physical build (spec 42_cbc.md R165): how the engine's call of E or D stands on
the wires. None of these signals is visible to the host, and the call is inside one engine step. -/

namespace Sys2Proof.Machine

/-- `bc_din`, `bc_dout`: block byte 0 on bits [63:56], byte 7 on bits [7:0]. -/
def portOfBlock (b : Block) : BitVec 64 :=
  b.b0 ++ b.b1 ++ b.b2 ++ b.b3 ++ b.b4 ++ b.b5 ++ b.b6 ++ b.b7

/-- The block a 64-bit port value carries. -/
def blockOfPort (v : BitVec 64) : Block := Block.ofFn fun j => v.extractLsb' (56 - 8 * j) 8

/-- The number whose bytes, most significant first, are given. -/
def bigEndian (bs : List Byte) : Nat := bs.foldl (fun n b => 256 * n + b.toNat) 0

/-- One call on the port. -/
structure PortCall (keyMax : Nat) where
  dir    : Bool                     -- bc_dir: 0 = encrypt, 1 = decrypt
  key    : BitVec (8 * keyMax)      -- bc_key: KEY[0] in the most significant byte
  keyLen : Word                     -- bc_keylen
  din    : BitVec 64                -- bc_din
deriving DecidableEq, Repr

/-- The call the engine's next step makes, if it makes one: exactly one in a block step of ENCRYPT or DECRYPT. -/
def portCall (s : State) : Option (PortCall s.cfg.keyMaxBytes) :=
  match s.opl with
  | some .encrypt =>
    some { dir := false, key := BitVec.ofNat _ (bigEndian s.key), keyLen := s.keyLen
           din := portOfBlock (xor8 (padBlock s s.inLen.toNat s.blkCnt.toNat) s.chain) }
  | some .decrypt =>
    some { dir := true, key := BitVec.ofNat _ (bigEndian s.key), keyLen := s.keyLen
           din := portOfBlock (inBlock s s.blkCnt.toNat) }
  | some .pad | some .unpad | none => none

end Sys2Proof.Machine
end

