-- ==== Sys2Proof/Safety.lean ====
section
/-! DEFINITION. What a legal state is: the invariant that rules out the states no run reaches (spec 10_state.md R28 to R48,
40_gate.md R125, 42_cbc.md R161, 70_reset_and_hazards.md R242). -/

namespace Sys2Proof.Machine

/-- The chain value before block `i` of an ENCRYPT: IV, then the previous ciphertext block (42_cbc.md R161). -/
def encChainAt (s : State) : Nat → Block
  | 0 => s.iv
  | i + 1 => outBlock s i

/-- The chain value before block `i` of a DECRYPT: IV, then the previous input block (42_cbc.md R161). -/
def decChainAt (s : State) : Nat → Block
  | 0 => s.iv
  | i + 1 => inBlock s i

/-- A running ENCRYPT: the gate's facts still hold, the chain invariant of R161 holds, and every block so far is right. -/
structure EncryptInv (s : State) : Prop where
  key_ok : keyOk s.cfg s.keyLen = true
  iv_ok  : ivOk s.ivLen = true
  range  : s.inLen.toNat < s.cfg.bufBytes
  count  : s.blkCnt.toNat < encBlocks s.inLen.toNat
  chain  : s.chain = encChainAt s s.blkCnt.toNat
  blocks : ∀ j < s.blkCnt.toNat, outBlock s j =
    cipherE s.cfg.primitive (keyOperand s) (xor8 (padBlock s s.inLen.toNat j) (encChainAt s j))

/-- A running DECRYPT, likewise. -/
structure DecryptInv (s : State) : Prop where
  key_ok : keyOk s.cfg s.keyLen = true
  iv_ok  : ivOk s.ivLen = true
  length : ctLenOk s.inLen = true
  range  : s.inLen.toNat ≤ s.cfg.bufBytes
  count  : s.blkCnt.toNat < s.inLen.toNat / 8
  chain  : s.chain = decChainAt s s.blkCnt.toNat
  blocks : ∀ j < s.blkCnt.toNat, outBlock s j =
    xor8 (cipherD s.cfg.primitive (keyOperand s) (inBlock s j)) (decChainAt s j)

/-- A running PAD. -/
structure PadInv (s : State) : Prop where
  range : s.inLen.toNat < s.cfg.bufBytes
  count : s.blkCnt = 0

/-- A running UNPAD. -/
structure UnpadInv (s : State) : Prop where
  range : s.inLen.toNat ≤ s.cfg.bufBytes
  count : s.blkCnt = 0

/-- What holds of the running operation. -/
def OpInv (s : State) : Prop :=
  match s.opl with
  | none => True
  | some .encrypt => EncryptInv s
  | some .decrypt => DecryptInv s
  | some .pad => PadInv s
  | some .unpad => UnpadInv s

/-- How many bytes of OUT_BUF the operation under way, or the last one, has certainly written. -/
def outWritten (s : State) : Nat := if s.busy then 8 * s.blkCnt.toNat else s.outLen.toNat

/-- A legal state of the block. -/
structure Inv (s : State) : Prop where
  cfg_wf     : s.cfg.wf = true
  key_length : s.key.length = s.cfg.keyMaxBytes
  in_wf      : Memory.wf s.inBuf
  in_below   : Memory.below s.inBuf s.cfg.bufBytes
  out_wf     : Memory.wf s.outBuf
  out_below  : Memory.below s.outBuf s.cfg.bufBytes
  phase_opl  : s.phase = .run ↔ s.opl.isSome = true
  run_clean  : s.phase = .run → s.done = false ∧ s.outValid = false ∧ s.err = .none ∧ s.outLen = 0
  valid_ok   : s.outValid = true → s.err = .none
  len_valid  : s.outValid = false → s.outLen = 0
  out_len    : s.outLen.toNat ≤ s.cfg.bufBytes
  blk_cnt    : 8 * s.blkCnt.toNat ≤ s.cfg.bufBytes
  written    : ∀ i < outWritten s, (Memory.find s.outBuf i).isSome = true
  chain_zero : s.opl ≠ some .encrypt → s.opl ≠ some .decrypt → s.chain = Block.zero
  op         : OpInv s
  held       : s.rstAsserted = true →
    { s with rstAsserted := false, resetCount := 0, host := [], sched := [], resp := none } = State.resetOf s.cfg

/-- The key lengths a build accepts (40_gate.md R114), in plain arithmetic. -/
def KeyLengthAccepted (c : Config) (l : Nat) : Prop :=
  match c.keyPolicy with
  | .strict16    => l = 16
  | .permissive8 => 8 ≤ l ∧ l % 8 = 0 ∧ l ≤ c.keyMaxBytes

/-- The conditions under which the gate passes a command (40_gate.md R113 to R116, R119), in plain arithmetic. -/
def GatePasses (c : Op) (s : State) : Prop :=
  match c with
  | .encrypt => KeyLengthAccepted s.cfg s.keyLen.toNat ∧ s.ivLen.toNat = 8 ∧ s.inLen.toNat < s.cfg.bufBytes
  | .decrypt => KeyLengthAccepted s.cfg s.keyLen.toNat ∧ s.ivLen.toNat = 8 ∧
      (0 < s.inLen.toNat ∧ s.inLen.toNat % 8 = 0) ∧ s.inLen.toNat ≤ s.cfg.bufBytes
  | .pad     => s.inLen.toNat < s.cfg.bufBytes
  | .unpad   => s.inLen.toNat ≤ s.cfg.bufBytes

/-- How many engine steps the running operation still takes (40_gate.md R127). -/
def stepsLeft (s : State) : Nat :=
  if s.busy then
    match s.opl with
    | some .encrypt => s.inLen.toNat / 8 + 1 - s.blkCnt.toNat
    | some .decrypt => s.inLen.toNat / 8 - s.blkCnt.toNat
    | some .pad     => 1
    | some .unpad   => 1
    | none          => 0
  else 0

/-- The command that starts an operation. -/
def Op.instr : Op → Instr
  | .encrypt => .encrypt
  | .decrypt => .decrypt
  | .pad     => .pad
  | .unpad   => .unpad

/-- `n` steps of the machine. -/
def runSteps (n : Nat) (s : State) : Host.Outcome State Fault Refusal := Host.Core.run Sys2Proof.core n s

end Sys2Proof.Machine
end

