-- ==== Sys2Proof/Certificates/Slice0/Obligations.lean ====
section
/-! DEFINITION. What is claimed of the model: statements for the provers, from the numbered rules of spec/. Memory frames are
said through the model's read of one byte: `inByte` and `outByte` of the two buffers, `readByte` of the whole aperture. -/

open Sys2Proof Sys2Proof.Machine

/-! ## Encoding -/

/-- Decoding the bytes of any well-formed command gives it back, with the bytes after it (30_encoding.md sections 1 and 3;
that BAD carries its word is the model's choice, log entry 16). -/
def Obligations.DecodeInvertsEncode : Prop :=
  ∀ (i : Instr) (rest : List Byte), i.wf = true → decodeBytes (encodeBytes i ++ rest) = .ok (i, rest)

/-- Every one of the 2^32 words decodes to a well-formed command, and no bit of it is dropped (30_encoding.md section 1;
log entry 16). -/
def Obligations.EncodeInvertsDecode : Prop :=
  ∀ w : Word, (decode w).wf = true ∧ encode (decode w) = w

/-- R93 of 30_encoding.md: the six defined words, and BAD for every other one, also where OP alone is a defined value. -/
def Obligations.DecodeFollowsOpcodeMap : Prop :=
  decode 0 = .nop ∧ decode 1 = .encrypt ∧ decode 2 = .decrypt ∧ decode 3 = .clear ∧ decode 4 = .pad ∧ decode 5 = .unpad ∧
  ∀ w : Word, 6 ≤ w.toNat → decode w = .bad w

/-- The words of 95_test_vectors.md section 2.5 decode as its table says. -/
def Obligations.SampleWordsDecode : Prop :=
  decodeTableWord 32 0x00000000 = some .nop ∧ decodeTableWord 32 0x00000001 = some .encrypt ∧
  decodeTableWord 32 0x00000002 = some .decrypt ∧ decodeTableWord 32 0x00000003 = some .clear ∧
  decodeTableWord 32 0x00000004 = some .pad ∧ decodeTableWord 32 0x00000005 = some .unpad ∧
  decodeTableWord 32 0x00000006 = some (.bad 0x00000006) ∧ decodeTableWord 32 0x0000000F = some (.bad 0x0000000F) ∧
  decodeTableWord 32 0x00000010 = some (.bad 0x00000010) ∧ decodeTableWord 32 0x00000011 = some (.bad 0x00000011) ∧
  decodeTableWord 32 0x80000001 = some (.bad 0x80000001) ∧ decodeTableWord 32 0xFFFFFFFF = some (.bad 0xFFFFFFFF)

/-! ## A step runs the decoded command -/

/-- A host turn makes the host's next access, whatever it is (20_memory.md sections 2 and 3, 30_encoding.md section 4): a
write is `memWrite` on the state with that statement and turn taken, and a write of `w` to CMD is so `exec` of the decoded
command (40_gate.md section 1); a read and a poll change nothing but the statement, the turn and the response. Placing a word
with `withFetchWord` makes the very next step run its command. The model's choices here: the command is loaded as a statement
(log entry 3), the response is recorded (9), an unsatisfied poll stays (12), and an access outside the aperture gets no
response and a poll there is taken as satisfied (13). -/
def Obligations.StepRunsDecodedCommand : Prop :=
  (∀ s : State, s.rstAsserted = false → nextTurn s = .host →
    (∀ (a n : Nat) (v : Word) (rest : List HostStmt), a < 0x40000 → s.host = .write (s.cfg.base + a) n v :: rest →
      step s = memWrite { s with host := rest, sched := s.sched.tail } a n v) ∧
    (∀ (w : Word) (rest : List HostStmt), s.host = .write (s.cfg.base + 0x010) 4 w :: rest →
      step s = exec (decode w)
        { s with host := rest, sched := s.sched.tail, resp := some { error := false, data := 0 } }) ∧
    (∀ (a n : Nat) (rest : List HostStmt), a < 0x40000 → s.host = .read (s.cfg.base + a) n :: rest →
      step s = .next { s with host := rest, sched := s.sched.tail, resp := some (memRead s a n) }) ∧
    (∀ (a : Nat) (mask v : Word) (rest : List HostStmt), a < 0x40000 → s.host = .poll (s.cfg.base + a) mask v :: rest →
      step s = .next
        { s with
          host := if (memRead s a 4).data &&& mask = v then rest else s.host
          sched := s.sched.tail, resp := some (memRead s a 4) }) ∧
    (∀ (addr n : Nat) (mask v : Word) (rest : List HostStmt), addr < s.cfg.base ∨ s.cfg.base + 0x40000 ≤ addr →
      s.host = .write addr n v :: rest ∨ s.host = .read addr n :: rest ∨ s.host = .poll addr mask v :: rest →
      step s = .next { s with host := rest, sched := s.sched.tail, resp := none }) ∧
    (s.host = [] → step s = .next { s with sched := s.sched.tail })) ∧
  (∀ (s : State) (w : Nat),
    step (s.withFetchWord 32 w) = exec (decode (BitVec.ofNat 32 w))
      { s with rstAsserted := false, resp := some { error := false, data := 0 } })

/-! ## Acceptance: what exec does in the host step that writes CMD -/

/-- R190 of 43_control.md: the word 0 is NOP, any other word with OP = 0 is BAD, and NOP changes nothing, idle or busy. -/
def Obligations.NopChangesNothing : Prop :=
  decode 0 = .nop ∧ (∀ w : Word, opField w = 0 → w ≠ 0 → decode w = .bad w) ∧ ∀ s : State, exec .nop s = .next s

/-- While BUSY every command but NOP is ignored and sets CMDOVR, and nothing else changes (40_gate.md section 1). -/
def Obligations.BusyCommandIsIgnored : Prop :=
  ∀ (i : Instr) (s : State), i ≠ .nop → s.phase = .run → exec i s = .next { s with cmdovr := true }

/-- R191 of 43_control.md: CLEAR, word 3, while idle puts every register, KEY, IV, CHAIN, PHASE and OPL at the reset value and
keeps both buffers; while busy it is ignored and sets CMDOVR. -/
def Obligations.ClearRestoresResetValues : Prop :=
  decode 3 = .clear ∧ ∀ s : State,
    (s.phase = .idle → exec .clear s = .next
      { State.resetOf s.cfg with
        inBuf := s.inBuf, outBuf := s.outBuf, rstAsserted := s.rstAsserted, resetCount := s.resetCount
        host := s.host, sched := s.sched, resp := s.resp }) ∧
    (s.phase = .run → exec .clear s = .next { s with cmdovr := true })

/-- R192 of 43_control.md: every word with RSVD ≠ 0 or OP in 0x6 to 0xF is BAD, which while idle completes at once with
BAD_COMMAND, scrubs nothing, reads STATUS 0x62 where WBUSY and CMDOVR are 0, and raises irq when IE = 1; while busy it is
ignored and sets CMDOVR. -/
def Obligations.BadCompletesWithBadCommand : Prop :=
  (∀ w : Word, rsvdField w ≠ 0 ∨ 6 ≤ opField w → decode w = .bad w) ∧
  ∀ (w : Word) (s : State),
    (s.phase = .idle → ∃ t, exec (.bad w) s = .next t ∧
      t = { s with done := true, outValid := false, err := .badCommand, outLen := 0, blkCnt := 0, opl := none } ∧
      (s.wbusy = false → s.cmdovr = false → statusWord t = 0x62) ∧ t.irq = s.ie) ∧
    (s.phase = .run → exec (.bad w) s = .next { s with cmdovr := true })

/-- ENCRYPT while idle: the first failing check in the order key, IV, range gives the error; the command completes in this
same step, BUSY never 1, OUT_BUF untouched, and the key material is scrubbed (40_gate.md sections 2 and 3). -/
def Obligations.EncryptGateErrors : Prop :=
  ∀ s : State, s.phase = .idle →
    let failed (e : Err) : State :=
      { s with
        done := true, outValid := false, err := e, outLen := 0, blkCnt := 0, opl := none
        key := List.replicate s.cfg.keyMaxBytes 0, keyLen := 0, iv := Block.zero, ivLen := 0, chain := Block.zero }
    (¬ KeyLengthAccepted s.cfg s.keyLen.toNat → exec .encrypt s = .next (failed .invalidKeySize)) ∧
    (KeyLengthAccepted s.cfg s.keyLen.toNat → s.ivLen.toNat ≠ 8 → exec .encrypt s = .next (failed .invalidIvSize)) ∧
    (KeyLengthAccepted s.cfg s.keyLen.toNat → s.ivLen.toNat = 8 → s.cfg.bufBytes ≤ s.inLen.toNat →
      exec .encrypt s = .next (failed .lengthRange))

/-- DECRYPT while idle: the first failing check in the order key, IV, ciphertext length, range gives the error (40_gate.md
sections 2 and 3). -/
def Obligations.DecryptGateErrors : Prop :=
  ∀ s : State, s.phase = .idle →
    let failed (e : Err) : State :=
      { s with
        done := true, outValid := false, err := e, outLen := 0, blkCnt := 0, opl := none
        key := List.replicate s.cfg.keyMaxBytes 0, keyLen := 0, iv := Block.zero, ivLen := 0, chain := Block.zero }
    (¬ KeyLengthAccepted s.cfg s.keyLen.toNat → exec .decrypt s = .next (failed .invalidKeySize)) ∧
    (KeyLengthAccepted s.cfg s.keyLen.toNat → s.ivLen.toNat ≠ 8 → exec .decrypt s = .next (failed .invalidIvSize)) ∧
    (KeyLengthAccepted s.cfg s.keyLen.toNat → s.ivLen.toNat = 8 →
      (s.inLen.toNat = 0 ∨ s.inLen.toNat % 8 ≠ 0) → exec .decrypt s = .next (failed .invalidCiphertextLength)) ∧
    (KeyLengthAccepted s.cfg s.keyLen.toNat → s.ivLen.toNat = 8 → 0 < s.inLen.toNat → s.inLen.toNat % 8 = 0 →
      s.cfg.bufBytes < s.inLen.toNat → exec .decrypt s = .next (failed .lengthRange))

/-- PAD and UNPAD while idle: only the capacity is checked, and nothing is scrubbed (40_gate.md section 2). -/
def Obligations.PadUnpadGateErrors : Prop :=
  ∀ s : State, s.phase = .idle →
    let failed : State :=
      { s with done := true, outValid := false, err := .lengthRange, outLen := 0, blkCnt := 0, opl := none }
    (s.cfg.bufBytes ≤ s.inLen.toNat → exec .pad s = .next failed) ∧
    (s.cfg.bufBytes < s.inLen.toNat → exec .unpad s = .next failed)

/-- R112 and R118 of 40_gate.md for ENCRYPT and DECRYPT: when the gate passes, the common start is made, the operation is
latched, BUSY becomes 1 and CHAIN is loaded from IV; nothing else changes. -/
def Obligations.EncryptDecryptLaunch : Prop :=
  ∀ s : State, s.phase = .idle →
    let launched (c : Op) : State :=
      { s with
        done := false, outValid := false, err := .none, outLen := 0, blkCnt := 0
        opl := some c, phase := .run, chain := s.iv }
    (GatePasses .encrypt s → exec .encrypt s = .next (launched .encrypt)) ∧
    (GatePasses .decrypt s → exec .decrypt s = .next (launched .decrypt))

/-- The same for PAD and UNPAD, which leave CHAIN alone (40_gate.md sections 1 and 2). -/
def Obligations.PadUnpadLaunch : Prop :=
  ∀ s : State, s.phase = .idle →
    let launched (c : Op) : State :=
      { s with
        done := false, outValid := false, err := .none, outLen := 0, blkCnt := 0, opl := some c, phase := .run }
    (GatePasses .pad s → exec .pad s = .next (launched .pad)) ∧
    (GatePasses .unpad s → exec .unpad s = .next (launched .unpad))

/-! ## Engine steps -/

/-- R163 of 42_cbc.md: one ENCRYPT block step, its stores to OUT_BUF[8i..8i+8), and its frame. -/
def Obligations.EncryptBlockStep : Prop :=
  ∀ s : State, s.opl = some .encrypt →
    let i := s.blkCnt.toNat
    let l := s.inLen.toNat
    let n := l / 8 + 1
    let p := Block.ofFn fun j => if 8 * i + j < l then inByte s (8 * i + j) else BitVec.ofNat 8 (8 - l % 8)
    let c := cipherE s.cfg.primitive (s.key.take s.keyLen.toNat) (xor8 p s.chain)
    ∃ t, engineStep s = .next t ∧
      (∀ j < 8, outByte t (8 * i + j) = c.get j) ∧
      (∀ q, q < 8 * i ∨ 8 * i + 8 ≤ q → outByte t q = outByte s q) ∧
      (i + 1 ≠ n → t = { s with outBuf := t.outBuf, chain := c, blkCnt := s.blkCnt + 1 }) ∧
      (i + 1 = n → t =
        { s with
          outBuf := t.outBuf, blkCnt := s.blkCnt + 1
          outLen := BitVec.ofNat 32 (8 * n), outValid := true, err := .none, done := true, phase := .idle, opl := none
          key := List.replicate s.cfg.keyMaxBytes 0, keyLen := 0, iv := Block.zero, ivLen := 0, chain := Block.zero })

/-- R164 of 42_cbc.md: one DECRYPT block step, its stores, its frame, and the unpad of the last step. -/
def Obligations.DecryptBlockStep : Prop :=
  ∀ s : State, s.opl = some .decrypt →
    let i := s.blkCnt.toNat
    let l := s.inLen.toNat
    let n := l / 8
    let c := Block.ofFn fun j => inByte s (8 * i + j)
    let p := xor8 (cipherD s.cfg.primitive (s.key.take s.keyLen.toNat) c) s.chain
    ∃ t, engineStep s = .next t ∧
      (∀ j < 8, outByte t (8 * i + j) = p.get j) ∧
      (∀ q, q < 8 * i ∨ 8 * i + 8 ≤ q → outByte t q = outByte s q) ∧
      (i + 1 ≠ n → t = { s with outBuf := t.outBuf, chain := c, blkCnt := s.blkCnt + 1 }) ∧
      (i + 1 = n →
        let ended (len : Word) (valid : Bool) (e : Err) : State :=
          { s with
            outBuf := t.outBuf, blkCnt := s.blkCnt + 1, outLen := len, outValid := valid, err := e
            done := true, phase := .idle, opl := none
            key := List.replicate s.cfg.keyMaxBytes 0, keyLen := 0, iv := Block.zero, ivLen := 0, chain := Block.zero }
        (unpad s.cfg.unpadCheckAll (outBytes t l) = none → t = ended 0 false .invalidPadding) ∧
        (∀ r, unpad s.cfg.unpadCheckAll (outBytes t l) = some r → t = ended (BitVec.ofNat 32 r.length) true .none))

/-- R142 of 41_padding.md: the PAD step copies IN_BUF[0..L), appends pad_len bytes of value pad_len, and completes. -/
def Obligations.PadStepEffect : Prop :=
  ∀ s : State, s.opl = some .pad →
    let l := s.inLen.toNat
    let p := 8 - l % 8
    ∃ t, engineStep s = .next t ∧
      (∀ q < l, outByte t q = inByte s q) ∧
      (∀ q, l ≤ q → q < l + p → outByte t q = BitVec.ofNat 8 p) ∧
      (∀ q, l + p ≤ q → outByte t q = outByte s q) ∧
      t = { s with
            outBuf := t.outBuf, outLen := BitVec.ofNat 32 (l + p), outValid := true, err := .none, done := true
            phase := .idle, opl := none }

/-- R141 and R143 of 41_padding.md. With L the length and p the last byte, `unpad` rejects exactly when L = 0, p = 0, p > 8,
L < p, or UNPAD_CHECK_ALL = 1 and one of the last p bytes is not p; else it drops the last p bytes. The UNPAD step completes
with INVALID_PADDING and writes nothing, or copies IN_BUF[0..L-p), by the same test of IN_BUF. -/
def Obligations.UnpadStepEffect : Prop :=
  let rejects (checkAll : Bool) (l : Nat) (byte : Nat → Byte) : Prop :=
    let p := (byte (l - 1)).toNat
    l = 0 ∨ p = 0 ∨ 8 < p ∨ l < p ∨ (checkAll = true ∧ ∃ m, l - p ≤ m ∧ m < l ∧ (byte m).toNat ≠ p)
  (∀ (checkAll : Bool) (d : List Byte),
    let byte (i : Nat) : Byte := d.getD i 0
    (rejects checkAll d.length byte → unpad checkAll d = none) ∧
    (¬ rejects checkAll d.length byte →
      unpad checkAll d = some (d.take (d.length - (byte (d.length - 1)).toNat)))) ∧
  (∀ s : State, s.opl = some .unpad →
    let l := s.inLen.toNat
    let p := (inByte s (l - 1)).toNat
    ∃ t, engineStep s = .next t ∧
      (rejects s.cfg.unpadCheckAll l (inByte s) →
        t = { s with
              outLen := 0, outValid := false, err := .invalidPadding, done := true, phase := .idle, opl := none }) ∧
      (¬ rejects s.cfg.unpadCheckAll l (inByte s) →
        (∀ q < l - p, outByte t q = inByte s q) ∧
        (∀ q, l - p ≤ q → outByte t q = outByte s q) ∧
        t = { s with
              outBuf := t.outBuf, outLen := BitVec.ofNat 32 (l - p), outValid := true, err := .none, done := true
              phase := .idle, opl := none }))

/-! ## Whole commands: acceptance and all engine steps -/

/-- ENCRYPT from acceptance to completion (42_cbc.md sections 3 and 4): N = IN_LEN div 8 + 1 steps after the acceptance the
host reads CBC_ENC(K, IV, d) in the output window, OUT_LEN = 8N, BLK_CNT = N, the key material is scrubbed, and nothing else
has changed. -/
def Obligations.EncryptCommandResult : Prop :=
  ∀ s : State, s.cfg.wf = true → s.phase = .idle → s.rstAsserted = false → s.sched = [] → GatePasses .encrypt s →
    let l := s.inLen.toNat
    let n := l / 8 + 1
    let ct := cbcEnc s.cfg.primitive (s.key.take s.keyLen.toNat) s.iv (inBytes s l)
    ∃ a t, exec .encrypt s = .next a ∧ runSteps n a = .next t ∧
      ct.length = 8 * n ∧
      (∀ i < 8 * n, readByte t (0x20000 + i) = ct.getD i 0) ∧
      (∀ i, 8 * n ≤ i → outByte t i = outByte s i) ∧
      t = { s with
            outBuf := t.outBuf, outLen := BitVec.ofNat 32 (8 * n), blkCnt := BitVec.ofNat 32 n
            outValid := true, err := .none, done := true, opl := none
            key := List.replicate s.cfg.keyMaxBytes 0, keyLen := 0, iv := Block.zero, ivLen := 0, chain := Block.zero }

/-- DECRYPT from acceptance to completion (42_cbc.md sections 3 and 4): after IN_LEN / 8 steps the host reads CBC_DEC(K, IV,
d), or ERR = INVALID_PADDING and an output window of zeros; the key material is scrubbed either way. -/
def Obligations.DecryptCommandResult : Prop :=
  ∀ s : State, s.cfg.wf = true → s.phase = .idle → s.rstAsserted = false → s.sched = [] → GatePasses .decrypt s →
    let l := s.inLen.toNat
    let n := l / 8
    let pt := cbcDec s.cfg.unpadCheckAll s.cfg.primitive (s.key.take s.keyLen.toNat) s.iv (inBytes s l)
    ∃ a t, exec .decrypt s = .next a ∧ runSteps n a = .next t ∧
      (∀ i, l ≤ i → outByte t i = outByte s i) ∧
      (let ended (len : Word) (valid : Bool) (e : Err) : State :=
        { s with
          outBuf := t.outBuf, blkCnt := BitVec.ofNat 32 n, outLen := len, outValid := valid, err := e
          done := true, opl := none
          key := List.replicate s.cfg.keyMaxBytes 0, keyLen := 0, iv := Block.zero, ivLen := 0, chain := Block.zero }
      (pt = none → t = ended 0 false .invalidPadding ∧ ∀ i < 0x10000, readByte t (0x20000 + i) = 0) ∧
      (∀ r, pt = some r → t = ended (BitVec.ofNat 32 r.length) true .none ∧
        l ≤ r.length + 8 ∧ r.length < l ∧
        ∀ i < r.length, readByte t (0x20000 + i) = r.getD i 0))

/-- PAD from acceptance to completion (41_padding.md section 3): after one engine step the host reads pad(IN_BUF[0..L)). -/
def Obligations.PadCommandResult : Prop :=
  ∀ s : State, s.cfg.wf = true → s.phase = .idle → s.rstAsserted = false → s.sched = [] → GatePasses .pad s →
    let l := s.inLen.toNat
    let r := pad (inBytes s l)
    ∃ a t, exec .pad s = .next a ∧ runSteps 1 a = .next t ∧
      r.length = l + (8 - l % 8) ∧
      (∀ i < r.length, readByte t (0x20000 + i) = r.getD i 0) ∧
      (∀ i, r.length ≤ i → outByte t i = outByte s i) ∧
      t = { s with
            outBuf := t.outBuf, outLen := BitVec.ofNat 32 r.length, blkCnt := 0
            outValid := true, err := .none, done := true, opl := none }

/-- UNPAD from acceptance to completion (41_padding.md section 3): after one engine step the host reads unpad(IN_BUF[0..L)),
or ERR = INVALID_PADDING. -/
def Obligations.UnpadCommandResult : Prop :=
  ∀ s : State, s.cfg.wf = true → s.phase = .idle → s.rstAsserted = false → s.sched = [] → GatePasses .unpad s →
    ∃ a t, exec .unpad s = .next a ∧ runSteps 1 a = .next t ∧
      (unpad s.cfg.unpadCheckAll (inBytes s s.inLen.toNat) = none →
        t = { s with outLen := 0, blkCnt := 0, outValid := false, err := .invalidPadding, done := true, opl := none } ∧
        ∀ i < 0x10000, readByte t (0x20000 + i) = 0) ∧
      (∀ r, unpad s.cfg.unpadCheckAll (inBytes s s.inLen.toNat) = some r →
        (∀ i < r.length, readByte t (0x20000 + i) = r.getD i 0) ∧
        (∀ i, r.length ≤ i → outByte t i = outByte s i) ∧
        t = { s with
              outBuf := t.outBuf, outLen := BitVec.ofNat 32 r.length, blkCnt := 0
              outValid := true, err := .none, done := true, opl := none })

/-- The result does not depend on the interleaving (42_cbc.md section 4): from ANY legal state in which ENCRYPT or DECRYPT is
under way, however host and engine turns got there, the engine step that ends it leaves CBC_ENC or CBC_DEC of the key, IV and
input that the state holds. -/
def Obligations.ResultUnderAnyInterleaving : Prop :=
  ∀ s t : State, Inv s → engineStep s = .next t → t.phase = .idle →
    let l := s.inLen.toNat
    (s.opl = some .encrypt →
      let ct := cbcEnc s.cfg.primitive (keyOperand s) s.iv (inBytes s l)
      t.err = .none ∧ t.outValid = true ∧ t.outLen.toNat = ct.length ∧ t.blkCnt.toNat = l / 8 + 1 ∧
        ∀ i < ct.length, outByte t i = ct.getD i 0) ∧
    (s.opl = some .decrypt →
      t.blkCnt.toNat = l / 8 ∧
      match cbcDec s.cfg.unpadCheckAll s.cfg.primitive (keyOperand s) s.iv (inBytes s l) with
      | none   => t.err = .invalidPadding ∧ t.outValid = false ∧ t.outLen = 0
      | some r => t.err = .none ∧ t.outValid = true ∧ t.outLen.toNat = r.length ∧ ∀ i < r.length, outByte t i = r.getD i 0)

/-- R128 and R129 of 40_gate.md: two idle states of one build that agree on KEY_LEN, KEY[0..KEY_LEN), IV_LEN, IV, IN_LEN and
IN_BUF[0..IN_LEN) give the same ERR, OUT_LEN, BLK_CNT and readable output. Both have `rst_n` released and an empty schedule,
and nothing else of them need agree. That they complete in the same number n of steps rests on the empty schedule, under which
the engine moves first: the model's choice (log entry 2). -/
def Obligations.OutcomeDependsOnInputsOnly : Prop :=
  ∀ (c : Op) (s₁ s₂ : State), s₁.cfg.wf = true → s₁.cfg = s₂.cfg →
    (s₁.phase = .idle ∧ s₁.rstAsserted = false ∧ s₁.sched = []) →
    (s₂.phase = .idle ∧ s₂.rstAsserted = false ∧ s₂.sched = []) →
    s₁.keyLen = s₂.keyLen → keyOperand s₁ = keyOperand s₂ → s₁.ivLen = s₂.ivLen → s₁.iv = s₂.iv →
    s₁.inLen = s₂.inLen → (∀ i < s₁.inLen.toNat, inByte s₁ i = inByte s₂ i) →
    ∃ n a₁ a₂ t₁ t₂, exec c.instr s₁ = .next a₁ ∧ exec c.instr s₂ = .next a₂ ∧
      runSteps n a₁ = .next t₁ ∧ runSteps n a₂ = .next t₂ ∧
      t₁.phase = .idle ∧ t₂.phase = .idle ∧ t₁.done = true ∧ t₂.done = true ∧
      t₁.err = t₂.err ∧ t₁.outLen = t₂.outLen ∧ t₁.blkCnt = t₂.blkCnt ∧
      ∀ i < 0x10000, readByte t₁ (0x20000 + i) = readByte t₂ (0x20000 + i)

/-- The round trip on the machine (42_cbc.md section 4): decrypting, under the same key and IV, what the host read after an
ENCRYPT gives the plaintext back. Both runs have `rst_n` released and an empty schedule, under which the engine moves first, so
that each takes IN_LEN div 8 + 1 steps of the machine: the model's choice (log entry 2). -/
def Obligations.EncryptThenDecryptOnMachine : Prop :=
  ∀ s₁ a₁ t₁ s₂ : State, s₁.cfg.wf = true → s₁.phase = .idle → s₁.rstAsserted = false → s₁.sched = [] →
    GatePasses .encrypt s₁ → exec .encrypt s₁ = .next a₁ → runSteps (s₁.inLen.toNat / 8 + 1) a₁ = .next t₁ →
    s₂.cfg = s₁.cfg → s₂.phase = .idle → s₂.rstAsserted = false → s₂.sched = [] →
    s₂.keyLen = s₁.keyLen → keyOperand s₂ = keyOperand s₁ → s₂.ivLen = s₁.ivLen → s₂.iv = s₁.iv →
    s₂.inLen = t₁.outLen → (∀ i < t₁.outLen.toNat, inByte s₂ i = readByte t₁ (0x20000 + i)) →
    ∃ a₂ t₂, exec .decrypt s₂ = .next a₂ ∧ runSteps (s₁.inLen.toNat / 8 + 1) a₂ = .next t₂ ∧
      t₂.done = true ∧ t₂.err = .none ∧ t₂.outValid = true ∧ t₂.outLen = s₁.inLen ∧
      ∀ i < s₁.inLen.toNat, readByte t₂ (0x20000 + i) = inByte s₁ i

/-! ## The transforms as functions -/

/-- The round trip (42_cbc.md section 4), with either unpad variant. The spec gives it for accepted keys; that it holds for
every byte list as the key is the model's choice (log entry 5). -/
def Obligations.CbcRoundTrip : Prop :=
  ∀ (checkAll : Bool) (p : Primitive) (k : List Byte) (iv : Block) (d : List Byte),
    cbcDec checkAll p k iv (cbcEnc p k iv d) = some d

/-- Locality of a ciphertext error (42_cbc.md section 4): an error δ in ciphertext block i makes raw block i the decryption of the changed block XOR the chain,
a different block; changes raw block i + 1 by exactly δ; and changes no other raw block. That raw block i differs for every
byte list as the key, accepted or not, is the model's choice (log entry 5). -/
def Obligations.CiphertextErrorLocality : Prop :=
  ∀ (p : Primitive) (k : List Byte) (iv δ : Block) (cs : List Block) (i : Nat), i < cs.length → δ ≠ Block.zero →
    let raw := cbcDecBlocks (cipherD p k) iv cs
    let raw' := cbcDecBlocks (cipherD p k) iv (cs.set i (xor8 (cs.getD i Block.zero) δ))
    raw'.length = raw.length ∧
    raw'.getD i Block.zero =
      xor8 (cipherD p k (xor8 (cs.getD i Block.zero) δ)) (if i = 0 then iv else cs.getD (i - 1) Block.zero) ∧
    raw'.getD i Block.zero ≠ raw.getD i Block.zero ∧
    (i + 1 < cs.length → raw'.getD (i + 1) Block.zero = xor8 (raw.getD (i + 1) Block.zero) δ) ∧
    (∀ m, m ≠ i → m ≠ i + 1 → raw'.getD m Block.zero = raw.getD m Block.zero)

/-- Raw plaintext block i depends only on ciphertext blocks i and i − 1, or the IV for i = 0, so the order of decryption does
not matter (42_cbc.md section 4). -/
def Obligations.RawBlockDependsOnTwoBlocks : Prop :=
  ∀ (p : Primitive) (k : List Byte) (iv : Block) (cs : List Block) (i : Nat), i < cs.length →
    (cbcDecBlocks (cipherD p k) iv cs).getD i Block.zero =
      xor8 (cipherD p k (cs.getD i Block.zero)) (if i = 0 then iv else cs.getD (i - 1) Block.zero)

/-- IV sensitivity (42_cbc.md section 4): two IVs that differ give first ciphertext blocks that differ, for every plaintext.
That this holds for every byte list as the key, accepted or not, is the model's choice (log entry 5). -/
def Obligations.IvSensitivity : Prop :=
  ∀ (p : Primitive) (k : List Byte) (iv₁ iv₂ : Block) (d : List Byte), iv₁ ≠ iv₂ →
    blockAt (cbcEnc p k iv₁ d) 0 ≠ blockAt (cbcEnc p k iv₂ d) 0

/-- R147 of 41_padding.md: unpad inverts pad, with either value of UNPAD_CHECK_ALL. -/
def Obligations.UnpadInvertsPad : Prop :=
  ∀ (checkAll : Bool) (d : List Byte), unpad checkAll (pad d) = some d

/-- R146 of 41_padding.md: padding always grows the length, to the next multiple of 8. -/
def Obligations.PadGrowsToBlocks : Prop :=
  ∀ d : List Byte, (pad d).length = 8 * (d.length / 8 + 1) ∧ d.length < (pad d).length ∧ (pad d).length % 8 = 0

/-- R160 of 42_cbc.md: xor8 works lane by lane, and its algebra. -/
def Obligations.XorLanes : Prop :=
  ∀ a b c : Block, (∀ j < 8, (xor8 a b).get j = a.get j ^^^ b.get j) ∧
    xor8 a a = Block.zero ∧ xor8 a Block.zero = a ∧ xor8 a b = xor8 b a ∧ xor8 (xor8 a b) c = xor8 a (xor8 b c)

/-- The laws of the primitive (00_scope.md section 3): D undoes E, and E under one key is a bijection with inverse D. That they
hold for every key, not the accepted ones only, is the model's choice (log entry 5). -/
def Obligations.PrimitiveLaws : Prop :=
  ∀ (p : Primitive) (k : List Byte),
    (∀ b, cipherD p k (cipherE p k b) = b) ∧ (∀ b, cipherE p k (cipherD p k b) = b) ∧
    Function.Bijective (cipherE p k)

/-! ## Whole-machine rules -/

/-- Every step keeps the legal states legal (Safety.lean): the build, canonical memories inside their capacity, BUSY mirroring
OPL, clean status while running, OUT_LEN only with a valid result, every readable byte written by the engine, a zero CHAIN
outside ENCRYPT and DECRYPT, the chain invariant, and the reset values while `rst_n` is asserted. -/
def Obligations.StepKeepsInvariant : Prop :=
  ∀ s t : State, Inv s → step s = .next t → Inv t

/-- The state after reset is legal, in every admissible build and in the default one. -/
def Obligations.ResetIsLegal : Prop :=
  (∀ c : Config, c.wf = true → Inv (State.resetOf c)) ∧ Inv State.reset

/-- From a legal state the machine always goes on: no fault, no refusal, no lock-up (60_exceptions.md section 4). -/
def Obligations.LegalStatesNeverStop : Prop :=
  ∀ s : State, Inv s → ∃ t, step s = .next t

/-- The step counts (40_gate.md section 4): each engine step of a running operation takes one off the count left, the last one
completes it, no host turn changes the count, and an acceptance sets it. -/
def Obligations.EveryOperationEnds : Prop :=
  (∀ s t : State, Inv s → s.phase = .run → engineStep s = .next t →
    stepsLeft t + 1 = stepsLeft s ∧ (t.phase = .idle ↔ stepsLeft s = 1) ∧ (t.phase = .idle → t.done = true)) ∧
  (∀ s t : State, Inv s → s.phase = .run → nextTurn s = .host → step s = .next t →
    t.phase = .run ∧ stepsLeft t = stepsLeft s) ∧
  (∀ s : State, s.phase = .idle →
    (GatePasses .encrypt s → ∃ t, exec .encrypt s = .next t ∧ stepsLeft t = s.inLen.toNat / 8 + 1) ∧
    (GatePasses .decrypt s → ∃ t, exec .decrypt s = .next t ∧ stepsLeft t = s.inLen.toNat / 8) ∧
    (GatePasses .pad s → ∃ t, exec .pad s = .next t ∧ stepsLeft t = 1) ∧
    (GatePasses .unpad s → ∃ t, exec .unpad s = .next t ∧ stepsLeft t = 1))

/-- `wait` comes back (30_encoding.md section 4, 40_gate.md section 4): with nothing scheduled, polling STATUS until BUSY = 0
ends after the steps the operation still takes and one more. That the engine moves first when nothing is scheduled is the
model's choice (log entry 2). -/
def Obligations.WaitReturns : Prop :=
  ∀ (s : State) (rest : List HostStmt), Inv s → s.rstAsserted = false → s.sched = [] →
    s.host = waitStmt s.cfg :: rest →
    ∃ t, runSteps (stepsLeft s + 1) s = .next t ∧ t.host = rest ∧ t.phase = .idle ∧ (statusWord t).getLsbD 0 = false

/-- While an operation runs, nothing the host does reaches its inputs or its progress (20_memory.md section 3, 40_gate.md
section 1): a host turn changes at most IE, DONE, WBUSY, CMDOVR, the host's own statements, the schedule and the response. -/
def Obligations.HostCannotDisturbOperation : Prop :=
  ∀ s t : State, s.phase = .run → nextTurn s = .host → step s = .next t →
    t = { s with
          ie := t.ie, done := t.done, wbusy := t.wbusy, cmdovr := t.cmdovr
          host := t.host, sched := t.sched, resp := t.resp } ∧
    (s.done = false → t.done = false)

/-- What an engine turn leaves alone (20_memory.md section 3, 10_state.md section 3): IN_BUF, IN_LEN, CTRL, WBUSY, CMDOVR;
and BLK_CNT advances by exactly 1 in a block step and not at all otherwise. -/
def Obligations.EngineTurnFrame : Prop :=
  ∀ s t : State, nextTurn s = .engine → step s = .next t →
    t.ie = s.ie ∧ t.wbusy = s.wbusy ∧ t.cmdovr = s.cmdovr ∧ t.inLen = s.inLen ∧ (∀ i, inByte t i = inByte s i) ∧
    t.cfg = s.cfg ∧ t.rstAsserted = s.rstAsserted ∧ t.resetCount = s.resetCount ∧
    t.host = s.host ∧ t.sched = s.sched.tail ∧ t.resp = s.resp ∧
    (s.rstAsserted = false → s.phase = .run → (s.opl = some .encrypt ∨ s.opl = some .decrypt) →
      t.blkCnt = s.blkCnt + 1) ∧
    (s.rstAsserted = true ∨ s.phase = .idle ∨ s.opl = some .pad ∨ s.opl = some .unpad → t.blkCnt = s.blkCnt)

/-- DONE rises only in a completion, and OUT_VALID only in a successful one, made by the engine (10_state.md section 2). -/
def Obligations.OnlyCompletionsSetDone : Prop :=
  ∀ s t : State, step s = .next t →
    (s.done = false → t.done = true → t.phase = .idle ∧ t.opl = none ∧ (t.outValid = true ↔ t.err = .none)) ∧
    (s.outValid = false → t.outValid = true →
      s.phase = .run ∧ nextTurn s = .engine ∧ t.phase = .idle ∧ t.done = true ∧ t.err = .none)

/-- R29 of 10_state.md: BUSY is 1 exactly when PHASE = RUN; it rises at the acceptance of an ENCRYPT, DECRYPT, PAD or UNPAD
that passes the gate (one that fails it completes without BUSY) and at nothing else, and it falls at the engine's completion
and at reset and at nothing else. -/
def Obligations.BusyLifecycle : Prop :=
  (∀ s : State, (statusWord s).getLsbD 0 = true ↔ s.phase = .run) ∧
  (∀ (c : Op) (s : State), s.phase = .idle → ∃ t, exec c.instr s = .next t ∧
    (GatePasses c s → t.phase = .run) ∧ (¬ GatePasses c s → t.phase = .idle ∧ t.done = true)) ∧
  (∀ s t : State, s.phase = .run → engineStep s = .next t → s.done = false → t.done = true → t.phase = .idle) ∧
  (∀ s t : State, nextTurn s = .assertReset → step s = .next t → t.phase = .idle) ∧
  ∀ s t : State, step s = .next t →
    (s.phase = .idle → t.phase = .run → nextTurn s = .host ∧ ∃ (w : Word) (rest : List HostStmt) (c : Op),
      s.host = .write (s.cfg.base + 0x010) 4 w :: rest ∧ decode w = c.instr ∧ GatePasses c s ∧ t.opl = some c) ∧
    (s.phase = .run → t.phase = .idle → (nextTurn s = .engine ∧ t.done = true) ∨ nextTurn s = .assertReset)

/-- R33 and R34 of 10_state.md: WBUSY and CMDOVR fall only at a STATUS write with their bit, at CLEAR or at reset. -/
def Obligations.StickyFlagsFall : Prop :=
  ∀ s t : State, step s = .next t →
    let fell (bit : Nat) : Prop :=
      nextTurn s = .assertReset ∨
      (nextTurn s = .host ∧ ∃ (v : Word) (rest : List HostStmt),
        (s.host = .write (s.cfg.base + 0x014) 4 v :: rest ∧ v.getLsbD bit = true) ∨
        (s.host = .write (s.cfg.base + 0x010) 4 v :: rest ∧ decode v = .clear ∧ s.phase = .idle))
    (s.wbusy = true → t.wbusy = false → fell 8) ∧ (s.cmdovr = true → t.cmdovr = false → fell 9)

/-- R122 of 40_gate.md: every end of an ENCRYPT or DECRYPT, at the gate or by the engine, zeroes KEY, KEY_LEN, IV, IV_LEN and
CHAIN; PAD, UNPAD and BAD leave KEY, KEY_LEN, IV and IV_LEN alone. -/
def Obligations.ScrubAtEveryCompletion : Prop :=
  let scrubbed (t : State) : Prop :=
    t.key = List.replicate t.cfg.keyMaxBytes 0 ∧ t.keyLen = 0 ∧ t.iv = Block.zero ∧ t.ivLen = 0 ∧ t.chain = Block.zero
  let kept (s t : State) : Prop := t.key = s.key ∧ t.keyLen = s.keyLen ∧ t.iv = s.iv ∧ t.ivLen = s.ivLen
  (∀ s t : State, s.opl = some .encrypt ∨ s.opl = some .decrypt → s.phase = .run → engineStep s = .next t →
    t.phase = .idle → scrubbed t) ∧
  (∀ s t : State, s.phase = .idle → exec .encrypt s = .next t ∨ exec .decrypt s = .next t → t.phase = .idle → scrubbed t) ∧
  (∀ s t : State, s.opl = some .pad ∨ s.opl = some .unpad → engineStep s = .next t → kept s t) ∧
  (∀ (w : Word) (s t : State), exec .pad s = .next t ∨ exec .unpad s = .next t ∨ exec (.bad w) s = .next t → kept s t)

/-! ## The bus -/

/-- R66 of 20_memory.md, as a step: a well-formed host read returns the bytes, little-endian and zero-extended, and changes
nothing but the host's statements, the schedule and the response. -/
def Obligations.HostReadStep : Prop :=
  ∀ (s : State) (a n : Nat) (rest : List HostStmt), s.rstAsserted = false → nextTurn s = .host →
    s.host = .read (s.cfg.base + a) n :: rest → a < 0x40000 →
    n = 1 ∨ n = 2 ∨ n = 4 → a % n = 0 → 0x100 ≤ a ∨ n = 4 →
    ∃ v : Word, step s = .next
        { s with host := rest, sched := s.sched.tail, resp := some { error := false, data := v } } ∧
      (∀ j < n, byteOf v j = readByte s (a + j)) ∧ (∀ j, n ≤ j → j < 4 → byteOf v j = 0)

/-- R65 of 20_memory.md: a malformed access gets a bus error, changes no state of the block, and a read returns 0. -/
def Obligations.MalformedAccessIsBusError : Prop :=
  ∀ (s : State) (a n : Nat), ¬ (n = 1 ∨ n = 2 ∨ n = 4) ∨ a % n ≠ 0 ∨ (a < 0x100 ∧ n ≠ 4) →
    memRead s a n = { error := true, data := 0 } ∧
    ∀ v : Word, memWrite s a n v = .next { s with resp := some { error := true, data := 0 } }

/-- A window write that is not dropped stores its bytes little-endian where the map says, and no other byte of the aperture
changes (20_memory.md sections 2 and 3). -/
def Obligations.WindowWriteStoresBytes : Prop :=
  ∀ (s : State) (a n : Nat) (v : Word), s.phase = .idle → s.key.length = s.cfg.keyMaxBytes → 0x100 ≤ a →
    n = 1 ∨ n = 2 ∨ n = 4 → a % n = 0 →
    ∃ t, memWrite s a n v = .next t ∧
      t = { s with key := t.key, iv := t.iv, inBuf := t.inBuf, resp := some { error := false, data := 0 } } ∧
      (∀ j < n, match regionOf s.cfg (a + j) with
        | .key i   => t.key.getD i 0 = byteOf v j
        | .iv i    => t.iv.get i = byteOf v j ∧ readByte t (a + j) = byteOf v j
        | .input i => inByte t i = byteOf v j ∧ readByte t (a + j) = byteOf v j
        | .register | .output _ | .reserved => readByte t (a + j) = readByte s (a + j)) ∧
      (∀ o, o < a ∨ a + n ≤ o → readByte t o = readByte s o) ∧
      (∀ i, (∀ j < n, regionOf s.cfg (a + j) ≠ .key i) → t.key.getD i 0 = s.key.getD i 0)

/-- R76 of 20_memory.md: while BUSY, writes to KEY_LEN, IV_LEN, IN_LEN and to implemented bytes of the key, IV and input
windows are dropped whole and set WBUSY; writes to CTRL and STATUS take effect. -/
def Obligations.BusyWritesAreDropped : Prop :=
  ∀ (s : State) (v : Word), s.phase = .run → s.cfg.wf = true →
    let dropped : State := { s with resp := some { error := false, data := 0 }, wbusy := true }
    (memWrite s 0x018 4 v = .next dropped ∧ memWrite s 0x01C 4 v = .next dropped ∧
      memWrite s 0x020 4 v = .next dropped) ∧
    (∀ a n, n = 1 ∨ n = 2 ∨ n = 4 → a % n = 0 →
      (0x100 ≤ a ∧ a < 0x100 + s.cfg.keyMaxBytes) ∨ (0x200 ≤ a ∧ a < 0x208) ∨
        (0x10000 ≤ a ∧ a < 0x10000 + s.cfg.bufBytes) →
      memWrite s a n v = .next dropped) ∧
    memWrite s 0x00C 4 v = .next { s with resp := some { error := false, data := 0 }, ie := v.getLsbD 0 } ∧
    memWrite s 0x014 4 v = .next
      { s with
        resp := some { error := false, data := 0 }
        done := s.done && !v.getLsbD 1, wbusy := s.wbusy && !v.getLsbD 8, cmdovr := s.cmdovr && !v.getLsbD 9 }

/-- Writes to read-only and reserved registers, reserved regions, unimplemented window bytes and the output window have no
effect, raise no bus error and set no WBUSY, idle or busy; reads of reserved places give 0 (20_memory.md section 3). -/
def Obligations.IgnoredWrites : Prop :=
  ∀ (s : State) (a n : Nat) (v : Word), s.cfg.wf = true → a < 0x40000 →
    n = 1 ∨ n = 2 ∨ n = 4 → a % n = 0 → 0x100 ≤ a ∨ n = 4 →
    let ignored : Prop := memWrite s a n v = .next { s with resp := some { error := false, data := 0 } }
    let reserved : Prop := 0x02C ≤ a ∧ a < 0x100 ∨ 0x100 + s.cfg.keyMaxBytes ≤ a ∧ a < 0x200 ∨
      0x208 ≤ a ∧ a < 0x10000 ∨ 0x10000 + s.cfg.bufBytes ≤ a ∧ a < 0x20000 ∨
      0x20000 + s.cfg.bufBytes ≤ a
    (a = 0x000 ∨ a = 0x004 ∨ a = 0x008 ∨ a = 0x024 ∨ a = 0x028 → ignored) ∧
    (0x20000 ≤ a ∧ a < 0x30000 → ignored) ∧
    (reserved → ignored ∧ memRead s a n = { error := false, data := 0 })

/-- R69 of 20_memory.md: the effect of a 4-byte write at each register offset. -/
def Obligations.RegisterWriteMap : Prop :=
  ∀ (s : State) (v : Word),
    let s' : State := { s with resp := some { error := false, data := 0 } }
    let unlessBusy (t : State) : State := if s.phase = .run then { s' with wbusy := true } else t
    memWrite s 0x00C 4 v = .next { s' with ie := v.getLsbD 0 } ∧
    memWrite s 0x010 4 v = exec (decode v) s' ∧
    memWrite s 0x014 4 v = .next
      { s' with done := s.done && !v.getLsbD 1, wbusy := s.wbusy && !v.getLsbD 8, cmdovr := s.cmdovr && !v.getLsbD 9 } ∧
    memWrite s 0x018 4 v = .next (unlessBusy { s' with keyLen := v }) ∧
    memWrite s 0x01C 4 v = .next (unlessBusy { s' with ivLen := v }) ∧
    memWrite s 0x020 4 v = .next (unlessBusy { s' with inLen := v }) ∧
    (∀ r, r = 0x000 ∨ r = 0x004 ∨ r = 0x008 ∨ r = 0x024 ∨ r = 0x028 → memWrite s r 4 v = .next s') ∧
    (∀ r, 0x02C ≤ r → r < 0x100 → r % 4 = 0 → memWrite s r 4 v = .next s')

/-- R68 of 20_memory.md with the values of 10_state.md section 2: what a 4-byte read at each register offset returns. -/
def Obligations.RegisterReadMap : Prop :=
  ∀ s : State,
    let reads (r : Nat) (v : Word) : Prop := memRead s r 4 = { error := false, data := v }
    reads 0x000 0x43424331 ∧ reads 0x004 (capsWord s.cfg) ∧ reads 0x008 (BitVec.ofNat 32 s.cfg.bufBytes) ∧
    reads 0x00C (if s.ie then 1 else 0) ∧ reads 0x010 0 ∧ reads 0x014 (statusWord s) ∧
    reads 0x018 s.keyLen ∧ reads 0x01C s.ivLen ∧ reads 0x020 s.inLen ∧ reads 0x024 s.outLen ∧ reads 0x028 s.blkCnt ∧
    (∀ r, 0x02C ≤ r → r < 0x100 → r % 4 = 0 → reads r 0)

/-- CAPS reports the build parameters, and the default build reads 0x00200308 (10_state.md section 2). -/
def Obligations.CapsReportsBuild : Prop :=
  (∀ c : Config, c.wf = true →
    ((capsWord c).extractLsb' 0 8).toNat = 8 ∧
    ((capsWord c).getLsbD 8 = true ↔ c.keyPolicy = .permissive8) ∧
    (capsWord c).getLsbD 9 = c.unpadCheckAll ∧
    ((capsWord c).extractLsb' 10 6).toNat = 0 ∧
    ((capsWord c).extractLsb' 16 9).toNat = c.keyMaxBytes ∧
    ((capsWord c).extractLsb' 25 7).toNat = 0) ∧
  capsWord Config.default = 0x00200308

/-- The fields of STATUS, its reserved bits, the ERR codes of 60_exceptions.md R210 and R217, and its reset value
(10_state.md section 2). -/
def Obligations.StatusWordFields : Prop :=
  (∀ s : State,
    (statusWord s).getLsbD 0 = decide (s.phase = .run) ∧ (statusWord s).getLsbD 1 = s.done ∧
    (statusWord s).getLsbD 2 = s.outValid ∧ (statusWord s).getLsbD 3 = false ∧
    ((statusWord s).extractLsb' 4 3).toNat =
      (match s.err with
        | .none => 0 | .invalidKeySize => 1 | .invalidIvSize => 2 | .invalidCiphertextLength => 3
        | .invalidPadding => 4 | .lengthRange => 5 | .badCommand => 6) ∧
    (statusWord s).getLsbD 7 = false ∧ (statusWord s).getLsbD 8 = s.wbusy ∧ (statusWord s).getLsbD 9 = s.cmdovr ∧
    (∀ j, 10 ≤ j → (statusWord s).getLsbD j = false)) ∧
  (∀ c : Config, statusWord (State.resetOf c) = 0)

/-- The interrupt (60_exceptions.md section 2): irq is DONE AND IE on line IRQ_LINE; a step that makes irq rise is a
completion with IE set or a CTRL write that sets IE while DONE is set; a STATUS write with bit 1 and a CTRL write of 0 make
it fall. -/
def Obligations.InterruptLine : Prop :=
  (∀ (s : State) (n : Nat), s.drivesLine n = true ↔ n = s.cfg.irqLine ∧ s.done = true ∧ s.ie = true) ∧
  (∀ s t : State, step s = .next t → s.irq = false → t.irq = true →
    (s.done = false ∧ t.ie = true ∧ t.phase = .idle ∧ (t.outValid = true ↔ t.err = .none)) ∨
    (s.done = true ∧ s.ie = false ∧ nextTurn s = .host ∧ ∃ (v : Word) (rest : List HostStmt),
      s.host = .write (s.cfg.base + 0x00C) 4 v :: rest ∧ v.getLsbD 0 = true)) ∧
  (∀ (s : State) (v : Word),
    (v.getLsbD 1 = true → ∃ t, memWrite s 0x014 4 v = .next t ∧ t.irq = false) ∧
    (v.getLsbD 0 = false → ∃ t, memWrite s 0x00C 4 v = .next t ∧ t.irq = false))

/-- R72 of 20_memory.md: the output gate, ignored writes to the output window, and nothing readable while an operation runs. -/
def Obligations.OutputGate : Prop :=
  (∀ (s : State) (i : Nat), s.cfg.wf = true → i < s.cfg.bufBytes →
    readByte s (0x20000 + i) = if s.outValid = true ∧ i < s.outLen.toNat then outByte s i else 0) ∧
  (∀ (s : State) (a n : Nat) (v : Word), n = 1 ∨ n = 2 ∨ n = 4 → a % n = 0 → 0x20000 ≤ a → a < 0x30000 →
    memWrite s a n v = .next { s with resp := some { error := false, data := 0 } }) ∧
  (∀ (s : State) (i : Nat), Inv s → s.phase = .run → i < 0x10000 → readByte s (0x20000 + i) = 0)

/-- No host read depends on KEY, CHAIN, OPL or an unreadable byte of OUT_BUF (20_memory.md section 3, 10_state.md sections 3
and 4, 60_exceptions.md section 5). -/
def Obligations.HiddenStateIsInvisible : Prop :=
  ∀ (s : State) (k : List Byte) (c : Block) (o : Option Op) (m : Memory) (a n : Nat),
    (s.outValid = true → ∀ i < s.outLen.toNat,
      outByte { s with outBuf := m } i = outByte s i) →
    memRead { s with key := k, chain := c, opl := o, outBuf := m } a n = memRead s a n

/-- `load IN, b0 b1 …` (30_encoding.md section 4): run on an idle block with nothing scheduled, its accesses put the bytes at
the start of IN_BUF and change nothing else of the block. -/
def Obligations.LoadFillsInputWindow : Prop :=
  ∀ (s : State) (bs : List Byte) (rest : List HostStmt), s.cfg.wf = true → s.phase = .idle → s.rstAsserted = false →
    s.sched = [] → bs.length ≤ s.cfg.bufBytes → s.host = loadStmts s.cfg inWin bs ++ rest →
    ∃ t, runSteps (loadStmts s.cfg inWin bs).length s = .next t ∧
      t = { s with inBuf := t.inBuf, host := rest, resp := t.resp } ∧
      (∀ i < bs.length, inByte t i = bs.getD i 0) ∧ (∀ i, bs.length ≤ i → inByte t i = inByte s i)

/-! ## Reset and the primitive's port -/

/-- R240 of 70_reset_and_hazards.md: the reset values, in every build. -/
def Obligations.ResetValues : Prop :=
  ∀ c : Config,
    let s := State.resetOf c
    s.ie = false ∧ s.phase = .idle ∧ s.done = false ∧ s.outValid = false ∧ s.err = .none ∧ s.wbusy = false ∧
    s.cmdovr = false ∧ s.keyLen = 0 ∧ s.ivLen = 0 ∧ s.inLen = 0 ∧ s.outLen = 0 ∧ s.blkCnt = 0 ∧
    s.key = List.replicate c.keyMaxBytes 0 ∧ s.iv = Block.zero ∧ s.chain = Block.zero ∧ s.opl = none ∧
    statusWord s = 0 ∧ s.irq = false ∧
    (∀ i, inByte s i = Config.inBufInit s.resetCount i) ∧ (∀ i, outByte s i = Config.outBufInit s.resetCount i)

/-- Reset (70_reset_and_hazards.md section 1): asserting `rst_n`, idle or busy, gives the reset values with fresh buffer draws
and no completion; while it is asserted neither agent has a step; releasing it changes nothing else. That the pulse is two
turns is the model's choice (log entry 11). -/
def Obligations.ResetStopsEverything : Prop :=
  ∀ (s : State) (ts : List Turn),
    (s.sched = .assertReset :: ts → ∃ t, step s = .next t ∧
      t = { State.resetOf s.cfg with
            rstAsserted := true, resetCount := s.resetCount + 1, host := s.host, sched := ts, resp := s.resp } ∧
      t.done = false ∧ t.irq = false ∧ (∀ i, inByte t i = Config.inBufInit (s.resetCount + 1) i) ∧
      ∀ i, readByte t (0x20000 + i) = 0) ∧
    (s.rstAsserted = true → nextTurn s = .host ∨ nextTurn s = .engine → step s = .next { s with sched := s.sched.tail }) ∧
    (s.sched = .releaseReset :: ts → step s = .next { s with rstAsserted := false, sched := ts })

/-- The primitive's port (42_cbc.md section 2): block byte 0 on bits [63:56], byte 7 on bits [7:0]; each block step makes
exactly one call, with the direction, KEY_LEN, KEY with KEY[0] in the most significant byte, and the block the step feeds to
E or D. KEY has its KEY_MAX_BYTES bytes in every legal state (Obligations.StepKeepsInvariant). -/
def Obligations.PortCarriesTheCall : Prop :=
  (∀ b : Block, blockOfPort (portOfBlock b) = b ∧ ∀ j < 8, (portOfBlock b).extractLsb' (56 - 8 * j) 8 = b.get j) ∧
  (∀ s : State, s.key.length = s.cfg.keyMaxBytes →
    let carriesKey (p : PortCall s.cfg.keyMaxBytes) : Prop :=
      p.keyLen = s.keyLen ∧
      ∀ i < s.cfg.keyMaxBytes, p.key.extractLsb' (8 * (s.cfg.keyMaxBytes - 1 - i)) 8 = s.key.getD i 0
    (s.opl = some .encrypt → ∃ p, portCall s = some p ∧ p.dir = false ∧ carriesKey p ∧
      encCipherBlock s = cipherE s.cfg.primitive (keyOperand s) (blockOfPort p.din)) ∧
    (s.opl = some .decrypt → ∃ p, portCall s = some p ∧ p.dir = true ∧ carriesKey p ∧
      decPlainBlock s = xor8 (cipherD s.cfg.primitive (keyOperand s) (blockOfPort p.din)) s.chain)) ∧
  (∀ s : State, s.opl = some .pad ∨ s.opl = some .unpad ∨ s.opl = none → portCall s = none)
end

