-- ==== Sys2Proof/Laws/Block.lean ====
section
/-! SUPPORT. Blocks: byte access, the lane-wise XOR, the blocks of a byte sequence, and the laws of the primitive. -/

namespace Sys2Proof

/-- A claim about the eight byte positions of a block. -/
theorem forall_lt_eight {p : Nat → Prop} (h0 : p 0) (h1 : p 1) (h2 : p 2) (h3 : p 3) (h4 : p 4) (h5 : p 5)
    (h6 : p 6) (h7 : p 7) : ∀ j < 8, p j := by
  intro j hj
  match j, hj with
  | 0, _ => exact h0
  | 1, _ => exact h1
  | 2, _ => exact h2
  | 3, _ => exact h3
  | 4, _ => exact h4
  | 5, _ => exact h5
  | 6, _ => exact h6
  | 7, _ => exact h7

theorem Block.ext_get {a b : Block} (h : ∀ j < 8, a.get j = b.get j) : a = b :=
  Block.ext (h 0 (by omega)) (h 1 (by omega)) (h 2 (by omega)) (h 3 (by omega)) (h 4 (by omega)) (h 5 (by omega))
    (h 6 (by omega)) (h 7 (by omega))

theorem Block.get_ofFn (f : Nat → Byte) : ∀ j < 8, (Block.ofFn f).get j = f j :=
  forall_lt_eight rfl rfl rfl rfl rfl rfl rfl rfl

theorem Block.ofFn_congr {f g : Nat → Byte} (h : ∀ j < 8, f j = g j) : Block.ofFn f = Block.ofFn g :=
  Block.ext_get fun j hj => by rw [Block.get_ofFn _ j hj, Block.get_ofFn _ j hj, h j hj]

theorem Block.ofFn_get (b : Block) : Block.ofFn b.get = b := rfl

theorem Block.get_set (b : Block) (v : Byte) (i j : Nat) (hi : i < 8) :
    (b.set i v).get j = if j = i then v else b.get j := by
  rcases Nat.lt_or_ge j 8 with hj | hj
  · revert j
    revert i
    refine forall_lt_eight ?_ ?_ ?_ ?_ ?_ ?_ ?_ ?_ <;> exact fun j hj =>
      forall_lt_eight (p := fun j => (b.set _ v).get j = if j = _ then v else b.get j) rfl rfl rfl rfl rfl rfl rfl rfl j hj
  · obtain ⟨k, rfl⟩ := Nat.exists_eq_add_of_le' hj
    have : ¬ k + 8 = i := by omega
    simp [Block.get, this]

@[simp] theorem Block.get_zero (j : Nat) : Block.zero.get j = 0 := by
  rcases Nat.lt_or_ge j 8 with hj | hj
  · exact forall_lt_eight (p := fun j => Block.zero.get j = 0) rfl rfl rfl rfl rfl rfl rfl rfl j hj
  · obtain ⟨k, rfl⟩ := Nat.exists_eq_add_of_le' hj; rfl

theorem xor8_get (a b : Block) (j : Nat) (hj : j < 8) : (xor8 a b).get j = a.get j ^^^ b.get j :=
  Block.get_ofFn _ j hj

theorem xor8_comm (a b : Block) : xor8 a b = xor8 b a :=
  Block.ext_get fun j hj => by simp only [xor8_get _ _ j hj, BitVec.xor_comm]

theorem xor8_assoc (a b c : Block) : xor8 (xor8 a b) c = xor8 a (xor8 b c) :=
  Block.ext_get fun j hj => by simp only [xor8_get _ _ j hj, BitVec.xor_assoc]

@[simp] theorem xor8_self (a : Block) : xor8 a a = Block.zero :=
  Block.ext_get fun j hj => by simp [xor8_get _ _ j hj]

@[simp] theorem xor8_zero (a : Block) : xor8 a Block.zero = a :=
  Block.ext_get fun j hj => by simp [xor8_get _ _ j hj]

@[simp] theorem xor8_cancel (a b : Block) : xor8 (xor8 a b) b = a := by rw [xor8_assoc, xor8_self, xor8_zero]

theorem xor8_left_inj {a b c : Block} : xor8 a c = xor8 b c ↔ a = b :=
  ⟨fun h => by rw [← xor8_cancel a c, h, xor8_cancel], fun h => by rw [h]⟩

theorem xor8_right_inj {a b c : Block} : xor8 c a = xor8 c b ↔ a = b := by
  rw [xor8_comm c, xor8_comm c, xor8_left_inj]

@[simp] theorem Block.length_toList (b : Block) : b.toList.length = 8 := rfl

theorem Block.getElem?_toList (b : Block) : ∀ j < 8, b.toList[j]? = some (b.get j) :=
  forall_lt_eight rfl rfl rfl rfl rfl rfl rfl rfl

@[simp] theorem bytesOf_nil : bytesOf [] = [] := rfl

@[simp] theorem bytesOf_cons (b : Block) (bs : List Block) : bytesOf (b :: bs) = b.toList ++ bytesOf bs := rfl

@[simp] theorem bytesOf_length (bs : List Block) : (bytesOf bs).length = 8 * bs.length := by
  induction bs with
  | nil => rfl
  | cons b bs ih => simp [ih]; omega

/-- Byte 8i + j of a sequence of blocks is byte j of block i. -/
theorem bytesOf_getD (bs : List Block) (i j : Nat) (hj : j < 8) :
    (bytesOf bs).getD (8 * i + j) 0 = (bs.getD i Block.zero).get j := by
  induction bs generalizing i with
  | nil => simp
  | cons b bs ih =>
    cases i with
    | zero =>
      rw [bytesOf_cons, List.getD_eq_getElem?_getD, List.getElem?_append_left (by simp; omega)]
      simp [Block.getElem?_toList b j hj]
    | succ i =>
      rw [bytesOf_cons, List.getD_eq_getElem?_getD, List.getElem?_append_right (by simp; omega)]
      have e : 8 * (i + 1) + j - b.toList.length = 8 * i + j := by simp; omega
      rw [e, ← List.getD_eq_getElem?_getD, ih]; simp

theorem blockAt_get (s : List Byte) (i j : Nat) (hj : j < 8) : (blockAt s i).get j = s.getD (8 * i + j) 0 :=
  Block.get_ofFn _ j hj

@[simp] theorem blocksOf_length (s : List Byte) : (blocksOf s).length = s.length / 8 := by simp [blocksOf]

theorem blocksOf_getD {s : List Byte} {i : Nat} (h : i < s.length / 8) :
    (blocksOf s).getD i Block.zero = blockAt s i := by
  simp [blocksOf, List.getD_eq_getElem?_getD, List.getElem?_range h]

theorem list_ext_getD {α : Type} {d : α} {s t : List α} (hl : s.length = t.length)
    (h : ∀ i < s.length, s.getD i d = t.getD i d) : s = t := by
  refine List.ext_getElem hl fun i h1 h2 => ?_
  have := h i h1
  simpa [List.getD_eq_getElem?_getD, h1, h2] using this

theorem blocksOf_bytesOf (bs : List Block) : blocksOf (bytesOf bs) = bs := by
  refine list_ext_getD (d := Block.zero) (by simp) fun i hi => ?_
  have hi : i < bs.length := by simpa using hi
  rw [blocksOf_getD (by simpa using hi)]
  exact Block.ext_get fun j hj => by rw [blockAt_get _ _ _ hj, bytesOf_getD _ _ _ hj]

theorem bytesOf_blocksOf {s : List Byte} (h : s.length % 8 = 0) : bytesOf (blocksOf s) = s := by
  refine list_ext_getD (d := 0) (by simp; omega) fun i hi => ?_
  have hi : i < 8 * (s.length / 8) := by simpa using hi
  have e : i = 8 * (i / 8) + i % 8 := by omega
  rw [e, bytesOf_getD _ _ _ (by omega), blocksOf_getD (by omega), blockAt_get _ _ _ (by omega)]

/-- The test primitive's decryption undoes its encryption (95_test_vectors.md section 0). -/
theorem testDecrypt_testEncrypt (k : List Byte) (b : Block) : testDecrypt k (testEncrypt k b) = b := by
  refine Block.ext_get fun m hm => ?_
  have h7 : (m + 7) % 8 < 8 := Nat.mod_lt _ (by omega)
  have e : ((m + 7) % 8 + 1) % 8 = m := by omega
  rw [testDecrypt, Block.get_ofFn _ m hm, testEncrypt, Block.get_ofFn _ _ h7, e, BitVec.xor_assoc]
  simp

theorem testEncrypt_testDecrypt (k : List Byte) (c : Block) : testEncrypt k (testDecrypt k c) = c := by
  refine Block.ext_get fun j hj => ?_
  have h1 : (j + 1) % 8 < 8 := Nat.mod_lt _ (by omega)
  have e : ((j + 1) % 8 + 7) % 8 = j := by omega
  rw [testEncrypt, Block.get_ofFn _ j hj, testDecrypt, Block.get_ofFn _ _ h1, e, BitVec.xor_assoc]
  simp

end Sys2Proof
end

