-- ==== Sys2Proof/Laws/Decode.lean ====
section
/-! SUPPORT. Fields and bytes of a word, and what the decoder reads from them. -/

namespace Sys2Proof

theorem opField_eq (w : Word) : opField w = w.toNat % 16 := by simp [opField]

theorem rsvdField_eq (w : Word) : rsvdField w = w.toNat / 16 := by
  have := w.isLt
  simp [rsvdField, Nat.shiftRight_eq_div_pow]; omega

/-- A byte of a word, as a number. -/
theorem byteOf_toNat (w : Word) (j : Nat) : (byteOf w j).toNat = w.toNat / 2 ^ (8 * j) % 256 := by
  simp [byteOf, Nat.shiftRight_eq_div_pow]

theorem wordOfBytes_toNat (b0 b1 b2 b3 : Byte) :
    (wordOfBytes b0 b1 b2 b3).toNat = b0.toNat + 256 * b1.toNat + 65536 * b2.toNat + 16777216 * b3.toNat := by
  have h0 := b0.isLt; have h1 := b1.isLt; have h2 := b2.isLt; have h3 := b3.isLt
  simp only [wordOfBytes, BitVec.toNat_append]
  rw [← Nat.shiftLeft_add_eq_or_of_lt h0, ← Nat.shiftLeft_add_eq_or_of_lt h1, ← Nat.shiftLeft_add_eq_or_of_lt h2]
  simp only [Nat.shiftLeft_eq]; omega

/-- Laying a word out in bytes and reading it back gives the word. -/
theorem wordOfBytes_byteOf (w : Word) : wordOfBytes (byteOf w 0) (byteOf w 1) (byteOf w 2) (byteOf w 3) = w := by
  have := w.isLt
  refine BitVec.eq_of_toNat_eq ?_
  simp only [wordOfBytes_toNat, byteOf_toNat]; omega

/-- The six defined command words are 0 to 5 (R92). -/
theorem decode_of_lt {w : Word} (h : w.toNat < 6) :
    w = 0 ∧ decode w = .nop ∨ w = 1 ∧ decode w = .encrypt ∨ w = 2 ∧ decode w = .decrypt ∨ w = 3 ∧ decode w = .clear ∨
    w = 4 ∧ decode w = .pad ∨ w = 5 ∧ decode w = .unpad := by
  have e : w = BitVec.ofNat 32 w.toNat := by simp
  generalize w.toNat = n at h e
  subst e
  match n, h with
  | 0, _ => exact .inl ⟨rfl, by decide⟩
  | 1, _ => exact .inr (.inl ⟨rfl, by decide⟩)
  | 2, _ => exact .inr (.inr (.inl ⟨rfl, by decide⟩))
  | 3, _ => exact .inr (.inr (.inr (.inl ⟨rfl, by decide⟩)))
  | 4, _ => exact .inr (.inr (.inr (.inr (.inl ⟨rfl, by decide⟩))))
  | 5, _ => exact .inr (.inr (.inr (.inr (.inr ⟨rfl, by decide⟩))))

/-- Every other word is BAD (R95). -/
theorem decode_of_ge {w : Word} (h : 6 ≤ w.toNat) : decode w = .bad w := by
  unfold decode
  split
  · rfl
  · rename_i hr
    have hr : w.toNat / 16 = 0 := by rw [← rsvdField_eq]; omega
    have ho : opField w = w.toNat := by rw [opField_eq]; omega
    split <;> first | rfl | (rename_i e; rw [ho] at e; omega)

/-- The words `bad` may carry are exactly those from 6 upward. -/
theorem bad_wf_iff (w : Word) : (Instr.bad w).wf = true ↔ 6 ≤ w.toNat := by
  have h := w.isLt
  have h1 : w.extractLsb' 4 28 ≠ 0#28 ↔ w.toNat / 16 ≠ 0 := by
    rw [← rsvdField_eq]; simp [rsvdField, ← BitVec.toNat_inj]
  have h2 : (w.extractLsb' 0 4).toNat = w.toNat % 16 := opField_eq w
  simp only [Instr.wf, Bool.or_eq_true, decide_eq_true_eq, h1, h2]; omega

end Sys2Proof
end

