-- ==== Sys2Proof/Laws/State.lean ====
section
/-! SUPPORT. One lemma per field per state update: what each named update leaves in each field. -/

namespace Sys2Proof.Machine

@[simp] theorem start_ie (s : State) : (start s).ie = s.ie := rfl
@[simp] theorem start_done (s : State) : (start s).done = false := rfl
@[simp] theorem start_outValid (s : State) : (start s).outValid = false := rfl
@[simp] theorem start_err (s : State) : (start s).err = .none := rfl
@[simp] theorem start_wbusy (s : State) : (start s).wbusy = s.wbusy := rfl
@[simp] theorem start_cmdovr (s : State) : (start s).cmdovr = s.cmdovr := rfl
@[simp] theorem start_keyLen (s : State) : (start s).keyLen = s.keyLen := rfl
@[simp] theorem start_ivLen (s : State) : (start s).ivLen = s.ivLen := rfl
@[simp] theorem start_inLen (s : State) : (start s).inLen = s.inLen := rfl
@[simp] theorem start_outLen (s : State) : (start s).outLen = 0 := rfl
@[simp] theorem start_blkCnt (s : State) : (start s).blkCnt = 0 := rfl
@[simp] theorem start_key (s : State) : (start s).key = s.key := rfl
@[simp] theorem start_iv (s : State) : (start s).iv = s.iv := rfl
@[simp] theorem start_inBuf (s : State) : (start s).inBuf = s.inBuf := rfl
@[simp] theorem start_outBuf (s : State) : (start s).outBuf = s.outBuf := rfl
@[simp] theorem start_chain (s : State) : (start s).chain = s.chain := rfl
@[simp] theorem start_phase (s : State) : (start s).phase = s.phase := rfl
@[simp] theorem start_opl (s : State) : (start s).opl = s.opl := rfl
@[simp] theorem start_rstAsserted (s : State) : (start s).rstAsserted = s.rstAsserted := rfl
@[simp] theorem start_resetCount (s : State) : (start s).resetCount = s.resetCount := rfl
@[simp] theorem start_host (s : State) : (start s).host = s.host := rfl
@[simp] theorem start_sched (s : State) : (start s).sched = s.sched := rfl
@[simp] theorem start_resp (s : State) : (start s).resp = s.resp := rfl
@[simp] theorem start_cfg (s : State) : (start s).cfg = s.cfg := rfl

@[simp] theorem scrub_ie (s : State) : (scrub s).ie = s.ie := rfl
@[simp] theorem scrub_done (s : State) : (scrub s).done = s.done := rfl
@[simp] theorem scrub_outValid (s : State) : (scrub s).outValid = s.outValid := rfl
@[simp] theorem scrub_err (s : State) : (scrub s).err = s.err := rfl
@[simp] theorem scrub_wbusy (s : State) : (scrub s).wbusy = s.wbusy := rfl
@[simp] theorem scrub_cmdovr (s : State) : (scrub s).cmdovr = s.cmdovr := rfl
@[simp] theorem scrub_keyLen (s : State) : (scrub s).keyLen = 0 := rfl
@[simp] theorem scrub_ivLen (s : State) : (scrub s).ivLen = 0 := rfl
@[simp] theorem scrub_inLen (s : State) : (scrub s).inLen = s.inLen := rfl
@[simp] theorem scrub_outLen (s : State) : (scrub s).outLen = s.outLen := rfl
@[simp] theorem scrub_blkCnt (s : State) : (scrub s).blkCnt = s.blkCnt := rfl
@[simp] theorem scrub_key (s : State) : (scrub s).key = List.replicate s.cfg.keyMaxBytes 0 := rfl
@[simp] theorem scrub_iv (s : State) : (scrub s).iv = Block.zero := rfl
@[simp] theorem scrub_inBuf (s : State) : (scrub s).inBuf = s.inBuf := rfl
@[simp] theorem scrub_outBuf (s : State) : (scrub s).outBuf = s.outBuf := rfl
@[simp] theorem scrub_chain (s : State) : (scrub s).chain = Block.zero := rfl
@[simp] theorem scrub_phase (s : State) : (scrub s).phase = s.phase := rfl
@[simp] theorem scrub_opl (s : State) : (scrub s).opl = s.opl := rfl
@[simp] theorem scrub_rstAsserted (s : State) : (scrub s).rstAsserted = s.rstAsserted := rfl
@[simp] theorem scrub_resetCount (s : State) : (scrub s).resetCount = s.resetCount := rfl
@[simp] theorem scrub_host (s : State) : (scrub s).host = s.host := rfl
@[simp] theorem scrub_sched (s : State) : (scrub s).sched = s.sched := rfl
@[simp] theorem scrub_resp (s : State) : (scrub s).resp = s.resp := rfl
@[simp] theorem scrub_cfg (s : State) : (scrub s).cfg = s.cfg := rfl

@[simp] theorem completeOK_ie (n : Nat) (b : Bool) (s : State) : (completeOK n b s).ie = s.ie := by cases b <;> rfl
@[simp] theorem completeOK_done (n : Nat) (b : Bool) (s : State) : (completeOK n b s).done = true := by cases b <;> rfl
@[simp] theorem completeOK_outValid (n : Nat) (b : Bool) (s : State) : (completeOK n b s).outValid = true := by cases b <;> rfl
@[simp] theorem completeOK_err (n : Nat) (b : Bool) (s : State) : (completeOK n b s).err = .none := by cases b <;> rfl
@[simp] theorem completeOK_wbusy (n : Nat) (b : Bool) (s : State) : (completeOK n b s).wbusy = s.wbusy := by cases b <;> rfl
@[simp] theorem completeOK_cmdovr (n : Nat) (b : Bool) (s : State) : (completeOK n b s).cmdovr = s.cmdovr := by cases b <;> rfl
@[simp] theorem completeOK_keyLen (n : Nat) (b : Bool) (s : State) : (completeOK n b s).keyLen = if b then 0 else s.keyLen := by cases b <;> rfl
@[simp] theorem completeOK_ivLen (n : Nat) (b : Bool) (s : State) : (completeOK n b s).ivLen = if b then 0 else s.ivLen := by cases b <;> rfl
@[simp] theorem completeOK_inLen (n : Nat) (b : Bool) (s : State) : (completeOK n b s).inLen = s.inLen := by cases b <;> rfl
@[simp] theorem completeOK_outLen (n : Nat) (b : Bool) (s : State) : (completeOK n b s).outLen = BitVec.ofNat 32 n := by cases b <;> rfl
@[simp] theorem completeOK_blkCnt (n : Nat) (b : Bool) (s : State) : (completeOK n b s).blkCnt = s.blkCnt := by cases b <;> rfl
@[simp] theorem completeOK_key (n : Nat) (b : Bool) (s : State) : (completeOK n b s).key = if b then List.replicate s.cfg.keyMaxBytes 0 else s.key := by cases b <;> rfl
@[simp] theorem completeOK_iv (n : Nat) (b : Bool) (s : State) : (completeOK n b s).iv = if b then Block.zero else s.iv := by cases b <;> rfl
@[simp] theorem completeOK_inBuf (n : Nat) (b : Bool) (s : State) : (completeOK n b s).inBuf = s.inBuf := by cases b <;> rfl
@[simp] theorem completeOK_outBuf (n : Nat) (b : Bool) (s : State) : (completeOK n b s).outBuf = s.outBuf := by cases b <;> rfl
@[simp] theorem completeOK_chain (n : Nat) (b : Bool) (s : State) : (completeOK n b s).chain = if b then Block.zero else s.chain := by cases b <;> rfl
@[simp] theorem completeOK_phase (n : Nat) (b : Bool) (s : State) : (completeOK n b s).phase = .idle := by cases b <;> rfl
@[simp] theorem completeOK_opl (n : Nat) (b : Bool) (s : State) : (completeOK n b s).opl = none := by cases b <;> rfl
@[simp] theorem completeOK_rstAsserted (n : Nat) (b : Bool) (s : State) : (completeOK n b s).rstAsserted = s.rstAsserted := by cases b <;> rfl
@[simp] theorem completeOK_resetCount (n : Nat) (b : Bool) (s : State) : (completeOK n b s).resetCount = s.resetCount := by cases b <;> rfl
@[simp] theorem completeOK_host (n : Nat) (b : Bool) (s : State) : (completeOK n b s).host = s.host := by cases b <;> rfl
@[simp] theorem completeOK_sched (n : Nat) (b : Bool) (s : State) : (completeOK n b s).sched = s.sched := by cases b <;> rfl
@[simp] theorem completeOK_resp (n : Nat) (b : Bool) (s : State) : (completeOK n b s).resp = s.resp := by cases b <;> rfl
@[simp] theorem completeOK_cfg (n : Nat) (b : Bool) (s : State) : (completeOK n b s).cfg = s.cfg := by cases b <;> rfl

@[simp] theorem completeError_ie (e : Err) (b : Bool) (s : State) : (completeError e b s).ie = s.ie := by cases b <;> rfl
@[simp] theorem completeError_done (e : Err) (b : Bool) (s : State) : (completeError e b s).done = true := by cases b <;> rfl
@[simp] theorem completeError_outValid (e : Err) (b : Bool) (s : State) : (completeError e b s).outValid = false := by cases b <;> rfl
@[simp] theorem completeError_err (e : Err) (b : Bool) (s : State) : (completeError e b s).err = e := by cases b <;> rfl
@[simp] theorem completeError_wbusy (e : Err) (b : Bool) (s : State) : (completeError e b s).wbusy = s.wbusy := by cases b <;> rfl
@[simp] theorem completeError_cmdovr (e : Err) (b : Bool) (s : State) : (completeError e b s).cmdovr = s.cmdovr := by cases b <;> rfl
@[simp] theorem completeError_keyLen (e : Err) (b : Bool) (s : State) : (completeError e b s).keyLen = if b then 0 else s.keyLen := by cases b <;> rfl
@[simp] theorem completeError_ivLen (e : Err) (b : Bool) (s : State) : (completeError e b s).ivLen = if b then 0 else s.ivLen := by cases b <;> rfl
@[simp] theorem completeError_inLen (e : Err) (b : Bool) (s : State) : (completeError e b s).inLen = s.inLen := by cases b <;> rfl
@[simp] theorem completeError_outLen (e : Err) (b : Bool) (s : State) : (completeError e b s).outLen = 0 := by cases b <;> rfl
@[simp] theorem completeError_blkCnt (e : Err) (b : Bool) (s : State) : (completeError e b s).blkCnt = s.blkCnt := by cases b <;> rfl
@[simp] theorem completeError_key (e : Err) (b : Bool) (s : State) : (completeError e b s).key = if b then List.replicate s.cfg.keyMaxBytes 0 else s.key := by cases b <;> rfl
@[simp] theorem completeError_iv (e : Err) (b : Bool) (s : State) : (completeError e b s).iv = if b then Block.zero else s.iv := by cases b <;> rfl
@[simp] theorem completeError_inBuf (e : Err) (b : Bool) (s : State) : (completeError e b s).inBuf = s.inBuf := by cases b <;> rfl
@[simp] theorem completeError_outBuf (e : Err) (b : Bool) (s : State) : (completeError e b s).outBuf = s.outBuf := by cases b <;> rfl
@[simp] theorem completeError_chain (e : Err) (b : Bool) (s : State) : (completeError e b s).chain = if b then Block.zero else s.chain := by cases b <;> rfl
@[simp] theorem completeError_phase (e : Err) (b : Bool) (s : State) : (completeError e b s).phase = .idle := by cases b <;> rfl
@[simp] theorem completeError_opl (e : Err) (b : Bool) (s : State) : (completeError e b s).opl = none := by cases b <;> rfl
@[simp] theorem completeError_rstAsserted (e : Err) (b : Bool) (s : State) : (completeError e b s).rstAsserted = s.rstAsserted := by cases b <;> rfl
@[simp] theorem completeError_resetCount (e : Err) (b : Bool) (s : State) : (completeError e b s).resetCount = s.resetCount := by cases b <;> rfl
@[simp] theorem completeError_host (e : Err) (b : Bool) (s : State) : (completeError e b s).host = s.host := by cases b <;> rfl
@[simp] theorem completeError_sched (e : Err) (b : Bool) (s : State) : (completeError e b s).sched = s.sched := by cases b <;> rfl
@[simp] theorem completeError_resp (e : Err) (b : Bool) (s : State) : (completeError e b s).resp = s.resp := by cases b <;> rfl
@[simp] theorem completeError_cfg (e : Err) (b : Bool) (s : State) : (completeError e b s).cfg = s.cfg := by cases b <;> rfl

@[simp] theorem launch_ie (c : Op) (s : State) : (launch c s).ie = s.ie := rfl
@[simp] theorem launch_done (c : Op) (s : State) : (launch c s).done = s.done := rfl
@[simp] theorem launch_outValid (c : Op) (s : State) : (launch c s).outValid = s.outValid := rfl
@[simp] theorem launch_err (c : Op) (s : State) : (launch c s).err = s.err := rfl
@[simp] theorem launch_wbusy (c : Op) (s : State) : (launch c s).wbusy = s.wbusy := rfl
@[simp] theorem launch_cmdovr (c : Op) (s : State) : (launch c s).cmdovr = s.cmdovr := rfl
@[simp] theorem launch_keyLen (c : Op) (s : State) : (launch c s).keyLen = s.keyLen := rfl
@[simp] theorem launch_ivLen (c : Op) (s : State) : (launch c s).ivLen = s.ivLen := rfl
@[simp] theorem launch_inLen (c : Op) (s : State) : (launch c s).inLen = s.inLen := rfl
@[simp] theorem launch_outLen (c : Op) (s : State) : (launch c s).outLen = s.outLen := rfl
@[simp] theorem launch_blkCnt (c : Op) (s : State) : (launch c s).blkCnt = s.blkCnt := rfl
@[simp] theorem launch_key (c : Op) (s : State) : (launch c s).key = s.key := rfl
@[simp] theorem launch_iv (c : Op) (s : State) : (launch c s).iv = s.iv := rfl
@[simp] theorem launch_inBuf (c : Op) (s : State) : (launch c s).inBuf = s.inBuf := rfl
@[simp] theorem launch_outBuf (c : Op) (s : State) : (launch c s).outBuf = s.outBuf := rfl
@[simp] theorem launch_chain (c : Op) (s : State) : (launch c s).chain = if c.scrubs then s.iv else s.chain := rfl
@[simp] theorem launch_phase (c : Op) (s : State) : (launch c s).phase = .run := rfl
@[simp] theorem launch_opl (c : Op) (s : State) : (launch c s).opl = some c := rfl
@[simp] theorem launch_rstAsserted (c : Op) (s : State) : (launch c s).rstAsserted = s.rstAsserted := rfl
@[simp] theorem launch_resetCount (c : Op) (s : State) : (launch c s).resetCount = s.resetCount := rfl
@[simp] theorem launch_host (c : Op) (s : State) : (launch c s).host = s.host := rfl
@[simp] theorem launch_sched (c : Op) (s : State) : (launch c s).sched = s.sched := rfl
@[simp] theorem launch_resp (c : Op) (s : State) : (launch c s).resp = s.resp := rfl
@[simp] theorem launch_cfg (c : Op) (s : State) : (launch c s).cfg = s.cfg := rfl

@[simp] theorem overrun_ie (s : State) : (overrun s).ie = s.ie := rfl
@[simp] theorem overrun_done (s : State) : (overrun s).done = s.done := rfl
@[simp] theorem overrun_outValid (s : State) : (overrun s).outValid = s.outValid := rfl
@[simp] theorem overrun_err (s : State) : (overrun s).err = s.err := rfl
@[simp] theorem overrun_wbusy (s : State) : (overrun s).wbusy = s.wbusy := rfl
@[simp] theorem overrun_cmdovr (s : State) : (overrun s).cmdovr = true := rfl
@[simp] theorem overrun_keyLen (s : State) : (overrun s).keyLen = s.keyLen := rfl
@[simp] theorem overrun_ivLen (s : State) : (overrun s).ivLen = s.ivLen := rfl
@[simp] theorem overrun_inLen (s : State) : (overrun s).inLen = s.inLen := rfl
@[simp] theorem overrun_outLen (s : State) : (overrun s).outLen = s.outLen := rfl
@[simp] theorem overrun_blkCnt (s : State) : (overrun s).blkCnt = s.blkCnt := rfl
@[simp] theorem overrun_key (s : State) : (overrun s).key = s.key := rfl
@[simp] theorem overrun_iv (s : State) : (overrun s).iv = s.iv := rfl
@[simp] theorem overrun_inBuf (s : State) : (overrun s).inBuf = s.inBuf := rfl
@[simp] theorem overrun_outBuf (s : State) : (overrun s).outBuf = s.outBuf := rfl
@[simp] theorem overrun_chain (s : State) : (overrun s).chain = s.chain := rfl
@[simp] theorem overrun_phase (s : State) : (overrun s).phase = s.phase := rfl
@[simp] theorem overrun_opl (s : State) : (overrun s).opl = s.opl := rfl
@[simp] theorem overrun_rstAsserted (s : State) : (overrun s).rstAsserted = s.rstAsserted := rfl
@[simp] theorem overrun_resetCount (s : State) : (overrun s).resetCount = s.resetCount := rfl
@[simp] theorem overrun_host (s : State) : (overrun s).host = s.host := rfl
@[simp] theorem overrun_sched (s : State) : (overrun s).sched = s.sched := rfl
@[simp] theorem overrun_resp (s : State) : (overrun s).resp = s.resp := rfl
@[simp] theorem overrun_cfg (s : State) : (overrun s).cfg = s.cfg := rfl

@[simp] theorem softClear_ie (s : State) : (softClear s).ie = false := rfl
@[simp] theorem softClear_done (s : State) : (softClear s).done = false := rfl
@[simp] theorem softClear_outValid (s : State) : (softClear s).outValid = false := rfl
@[simp] theorem softClear_err (s : State) : (softClear s).err = .none := rfl
@[simp] theorem softClear_wbusy (s : State) : (softClear s).wbusy = false := rfl
@[simp] theorem softClear_cmdovr (s : State) : (softClear s).cmdovr = false := rfl
@[simp] theorem softClear_keyLen (s : State) : (softClear s).keyLen = 0 := rfl
@[simp] theorem softClear_ivLen (s : State) : (softClear s).ivLen = 0 := rfl
@[simp] theorem softClear_inLen (s : State) : (softClear s).inLen = 0 := rfl
@[simp] theorem softClear_outLen (s : State) : (softClear s).outLen = 0 := rfl
@[simp] theorem softClear_blkCnt (s : State) : (softClear s).blkCnt = 0 := rfl
@[simp] theorem softClear_key (s : State) : (softClear s).key = List.replicate s.cfg.keyMaxBytes 0 := rfl
@[simp] theorem softClear_iv (s : State) : (softClear s).iv = Block.zero := rfl
@[simp] theorem softClear_inBuf (s : State) : (softClear s).inBuf = s.inBuf := rfl
@[simp] theorem softClear_outBuf (s : State) : (softClear s).outBuf = s.outBuf := rfl
@[simp] theorem softClear_chain (s : State) : (softClear s).chain = Block.zero := rfl
@[simp] theorem softClear_phase (s : State) : (softClear s).phase = .idle := rfl
@[simp] theorem softClear_opl (s : State) : (softClear s).opl = none := rfl
@[simp] theorem softClear_rstAsserted (s : State) : (softClear s).rstAsserted = s.rstAsserted := rfl
@[simp] theorem softClear_resetCount (s : State) : (softClear s).resetCount = s.resetCount := rfl
@[simp] theorem softClear_host (s : State) : (softClear s).host = s.host := rfl
@[simp] theorem softClear_sched (s : State) : (softClear s).sched = s.sched := rfl
@[simp] theorem softClear_resp (s : State) : (softClear s).resp = s.resp := rfl
@[simp] theorem softClear_cfg (s : State) : (softClear s).cfg = s.cfg := rfl

@[simp] theorem assertReset_ie (s : State) : (assertReset s).ie = false := rfl
@[simp] theorem assertReset_done (s : State) : (assertReset s).done = false := rfl
@[simp] theorem assertReset_outValid (s : State) : (assertReset s).outValid = false := rfl
@[simp] theorem assertReset_err (s : State) : (assertReset s).err = .none := rfl
@[simp] theorem assertReset_wbusy (s : State) : (assertReset s).wbusy = false := rfl
@[simp] theorem assertReset_cmdovr (s : State) : (assertReset s).cmdovr = false := rfl
@[simp] theorem assertReset_keyLen (s : State) : (assertReset s).keyLen = 0 := rfl
@[simp] theorem assertReset_ivLen (s : State) : (assertReset s).ivLen = 0 := rfl
@[simp] theorem assertReset_inLen (s : State) : (assertReset s).inLen = 0 := rfl
@[simp] theorem assertReset_outLen (s : State) : (assertReset s).outLen = 0 := rfl
@[simp] theorem assertReset_blkCnt (s : State) : (assertReset s).blkCnt = 0 := rfl
@[simp] theorem assertReset_key (s : State) : (assertReset s).key = List.replicate s.cfg.keyMaxBytes 0 := rfl
@[simp] theorem assertReset_iv (s : State) : (assertReset s).iv = Block.zero := rfl
@[simp] theorem assertReset_inBuf (s : State) : (assertReset s).inBuf = [] := rfl
@[simp] theorem assertReset_outBuf (s : State) : (assertReset s).outBuf = [] := rfl
@[simp] theorem assertReset_chain (s : State) : (assertReset s).chain = Block.zero := rfl
@[simp] theorem assertReset_phase (s : State) : (assertReset s).phase = .idle := rfl
@[simp] theorem assertReset_opl (s : State) : (assertReset s).opl = none := rfl
@[simp] theorem assertReset_rstAsserted (s : State) : (assertReset s).rstAsserted = true := rfl
@[simp] theorem assertReset_resetCount (s : State) : (assertReset s).resetCount = s.resetCount + 1 := rfl
@[simp] theorem assertReset_host (s : State) : (assertReset s).host = s.host := rfl
@[simp] theorem assertReset_sched (s : State) : (assertReset s).sched = s.sched := rfl
@[simp] theorem assertReset_resp (s : State) : (assertReset s).resp = s.resp := rfl
@[simp] theorem assertReset_cfg (s : State) : (assertReset s).cfg = s.cfg := rfl

@[simp] theorem releaseReset_ie (s : State) : (releaseReset s).ie = s.ie := rfl
@[simp] theorem releaseReset_done (s : State) : (releaseReset s).done = s.done := rfl
@[simp] theorem releaseReset_outValid (s : State) : (releaseReset s).outValid = s.outValid := rfl
@[simp] theorem releaseReset_err (s : State) : (releaseReset s).err = s.err := rfl
@[simp] theorem releaseReset_wbusy (s : State) : (releaseReset s).wbusy = s.wbusy := rfl
@[simp] theorem releaseReset_cmdovr (s : State) : (releaseReset s).cmdovr = s.cmdovr := rfl
@[simp] theorem releaseReset_keyLen (s : State) : (releaseReset s).keyLen = s.keyLen := rfl
@[simp] theorem releaseReset_ivLen (s : State) : (releaseReset s).ivLen = s.ivLen := rfl
@[simp] theorem releaseReset_inLen (s : State) : (releaseReset s).inLen = s.inLen := rfl
@[simp] theorem releaseReset_outLen (s : State) : (releaseReset s).outLen = s.outLen := rfl
@[simp] theorem releaseReset_blkCnt (s : State) : (releaseReset s).blkCnt = s.blkCnt := rfl
@[simp] theorem releaseReset_key (s : State) : (releaseReset s).key = s.key := rfl
@[simp] theorem releaseReset_iv (s : State) : (releaseReset s).iv = s.iv := rfl
@[simp] theorem releaseReset_inBuf (s : State) : (releaseReset s).inBuf = s.inBuf := rfl
@[simp] theorem releaseReset_outBuf (s : State) : (releaseReset s).outBuf = s.outBuf := rfl
@[simp] theorem releaseReset_chain (s : State) : (releaseReset s).chain = s.chain := rfl
@[simp] theorem releaseReset_phase (s : State) : (releaseReset s).phase = s.phase := rfl
@[simp] theorem releaseReset_opl (s : State) : (releaseReset s).opl = s.opl := rfl
@[simp] theorem releaseReset_rstAsserted (s : State) : (releaseReset s).rstAsserted = false := rfl
@[simp] theorem releaseReset_resetCount (s : State) : (releaseReset s).resetCount = s.resetCount := rfl
@[simp] theorem releaseReset_host (s : State) : (releaseReset s).host = s.host := rfl
@[simp] theorem releaseReset_sched (s : State) : (releaseReset s).sched = s.sched := rfl
@[simp] theorem releaseReset_resp (s : State) : (releaseReset s).resp = s.resp := rfl
@[simp] theorem releaseReset_cfg (s : State) : (releaseReset s).cfg = s.cfg := rfl

@[simp] theorem statusWrite_ie (v : Word) (s : State) : (statusWrite v s).ie = s.ie := rfl
@[simp] theorem statusWrite_done (v : Word) (s : State) : (statusWrite v s).done = (s.done && !v.getLsbD 1) := rfl
@[simp] theorem statusWrite_outValid (v : Word) (s : State) : (statusWrite v s).outValid = s.outValid := rfl
@[simp] theorem statusWrite_err (v : Word) (s : State) : (statusWrite v s).err = s.err := rfl
@[simp] theorem statusWrite_wbusy (v : Word) (s : State) : (statusWrite v s).wbusy = (s.wbusy && !v.getLsbD 8) := rfl
@[simp] theorem statusWrite_cmdovr (v : Word) (s : State) : (statusWrite v s).cmdovr = (s.cmdovr && !v.getLsbD 9) := rfl
@[simp] theorem statusWrite_keyLen (v : Word) (s : State) : (statusWrite v s).keyLen = s.keyLen := rfl
@[simp] theorem statusWrite_ivLen (v : Word) (s : State) : (statusWrite v s).ivLen = s.ivLen := rfl
@[simp] theorem statusWrite_inLen (v : Word) (s : State) : (statusWrite v s).inLen = s.inLen := rfl
@[simp] theorem statusWrite_outLen (v : Word) (s : State) : (statusWrite v s).outLen = s.outLen := rfl
@[simp] theorem statusWrite_blkCnt (v : Word) (s : State) : (statusWrite v s).blkCnt = s.blkCnt := rfl
@[simp] theorem statusWrite_key (v : Word) (s : State) : (statusWrite v s).key = s.key := rfl
@[simp] theorem statusWrite_iv (v : Word) (s : State) : (statusWrite v s).iv = s.iv := rfl
@[simp] theorem statusWrite_inBuf (v : Word) (s : State) : (statusWrite v s).inBuf = s.inBuf := rfl
@[simp] theorem statusWrite_outBuf (v : Word) (s : State) : (statusWrite v s).outBuf = s.outBuf := rfl
@[simp] theorem statusWrite_chain (v : Word) (s : State) : (statusWrite v s).chain = s.chain := rfl
@[simp] theorem statusWrite_phase (v : Word) (s : State) : (statusWrite v s).phase = s.phase := rfl
@[simp] theorem statusWrite_opl (v : Word) (s : State) : (statusWrite v s).opl = s.opl := rfl
@[simp] theorem statusWrite_rstAsserted (v : Word) (s : State) : (statusWrite v s).rstAsserted = s.rstAsserted := rfl
@[simp] theorem statusWrite_resetCount (v : Word) (s : State) : (statusWrite v s).resetCount = s.resetCount := rfl
@[simp] theorem statusWrite_host (v : Word) (s : State) : (statusWrite v s).host = s.host := rfl
@[simp] theorem statusWrite_sched (v : Word) (s : State) : (statusWrite v s).sched = s.sched := rfl
@[simp] theorem statusWrite_resp (v : Word) (s : State) : (statusWrite v s).resp = s.resp := rfl
@[simp] theorem statusWrite_cfg (v : Word) (s : State) : (statusWrite v s).cfg = s.cfg := rfl

@[simp] theorem ctrlWrite_ie (v : Word) (s : State) : (ctrlWrite v s).ie = v.getLsbD 0 := rfl
@[simp] theorem ctrlWrite_done (v : Word) (s : State) : (ctrlWrite v s).done = s.done := rfl
@[simp] theorem ctrlWrite_outValid (v : Word) (s : State) : (ctrlWrite v s).outValid = s.outValid := rfl
@[simp] theorem ctrlWrite_err (v : Word) (s : State) : (ctrlWrite v s).err = s.err := rfl
@[simp] theorem ctrlWrite_wbusy (v : Word) (s : State) : (ctrlWrite v s).wbusy = s.wbusy := rfl
@[simp] theorem ctrlWrite_cmdovr (v : Word) (s : State) : (ctrlWrite v s).cmdovr = s.cmdovr := rfl
@[simp] theorem ctrlWrite_keyLen (v : Word) (s : State) : (ctrlWrite v s).keyLen = s.keyLen := rfl
@[simp] theorem ctrlWrite_ivLen (v : Word) (s : State) : (ctrlWrite v s).ivLen = s.ivLen := rfl
@[simp] theorem ctrlWrite_inLen (v : Word) (s : State) : (ctrlWrite v s).inLen = s.inLen := rfl
@[simp] theorem ctrlWrite_outLen (v : Word) (s : State) : (ctrlWrite v s).outLen = s.outLen := rfl
@[simp] theorem ctrlWrite_blkCnt (v : Word) (s : State) : (ctrlWrite v s).blkCnt = s.blkCnt := rfl
@[simp] theorem ctrlWrite_key (v : Word) (s : State) : (ctrlWrite v s).key = s.key := rfl
@[simp] theorem ctrlWrite_iv (v : Word) (s : State) : (ctrlWrite v s).iv = s.iv := rfl
@[simp] theorem ctrlWrite_inBuf (v : Word) (s : State) : (ctrlWrite v s).inBuf = s.inBuf := rfl
@[simp] theorem ctrlWrite_outBuf (v : Word) (s : State) : (ctrlWrite v s).outBuf = s.outBuf := rfl
@[simp] theorem ctrlWrite_chain (v : Word) (s : State) : (ctrlWrite v s).chain = s.chain := rfl
@[simp] theorem ctrlWrite_phase (v : Word) (s : State) : (ctrlWrite v s).phase = s.phase := rfl
@[simp] theorem ctrlWrite_opl (v : Word) (s : State) : (ctrlWrite v s).opl = s.opl := rfl
@[simp] theorem ctrlWrite_rstAsserted (v : Word) (s : State) : (ctrlWrite v s).rstAsserted = s.rstAsserted := rfl
@[simp] theorem ctrlWrite_resetCount (v : Word) (s : State) : (ctrlWrite v s).resetCount = s.resetCount := rfl
@[simp] theorem ctrlWrite_host (v : Word) (s : State) : (ctrlWrite v s).host = s.host := rfl
@[simp] theorem ctrlWrite_sched (v : Word) (s : State) : (ctrlWrite v s).sched = s.sched := rfl
@[simp] theorem ctrlWrite_resp (v : Word) (s : State) : (ctrlWrite v s).resp = s.resp := rfl
@[simp] theorem ctrlWrite_cfg (v : Word) (s : State) : (ctrlWrite v s).cfg = s.cfg := rfl

@[simp] theorem afterTurn_ie (s : State) : (afterTurn s).ie = s.ie := rfl
@[simp] theorem afterTurn_done (s : State) : (afterTurn s).done = s.done := rfl
@[simp] theorem afterTurn_outValid (s : State) : (afterTurn s).outValid = s.outValid := rfl
@[simp] theorem afterTurn_err (s : State) : (afterTurn s).err = s.err := rfl
@[simp] theorem afterTurn_wbusy (s : State) : (afterTurn s).wbusy = s.wbusy := rfl
@[simp] theorem afterTurn_cmdovr (s : State) : (afterTurn s).cmdovr = s.cmdovr := rfl
@[simp] theorem afterTurn_keyLen (s : State) : (afterTurn s).keyLen = s.keyLen := rfl
@[simp] theorem afterTurn_ivLen (s : State) : (afterTurn s).ivLen = s.ivLen := rfl
@[simp] theorem afterTurn_inLen (s : State) : (afterTurn s).inLen = s.inLen := rfl
@[simp] theorem afterTurn_outLen (s : State) : (afterTurn s).outLen = s.outLen := rfl
@[simp] theorem afterTurn_blkCnt (s : State) : (afterTurn s).blkCnt = s.blkCnt := rfl
@[simp] theorem afterTurn_key (s : State) : (afterTurn s).key = s.key := rfl
@[simp] theorem afterTurn_iv (s : State) : (afterTurn s).iv = s.iv := rfl
@[simp] theorem afterTurn_inBuf (s : State) : (afterTurn s).inBuf = s.inBuf := rfl
@[simp] theorem afterTurn_outBuf (s : State) : (afterTurn s).outBuf = s.outBuf := rfl
@[simp] theorem afterTurn_chain (s : State) : (afterTurn s).chain = s.chain := rfl
@[simp] theorem afterTurn_phase (s : State) : (afterTurn s).phase = s.phase := rfl
@[simp] theorem afterTurn_opl (s : State) : (afterTurn s).opl = s.opl := rfl
@[simp] theorem afterTurn_rstAsserted (s : State) : (afterTurn s).rstAsserted = s.rstAsserted := rfl
@[simp] theorem afterTurn_resetCount (s : State) : (afterTurn s).resetCount = s.resetCount := rfl
@[simp] theorem afterTurn_host (s : State) : (afterTurn s).host = s.host := rfl
@[simp] theorem afterTurn_sched (s : State) : (afterTurn s).sched = s.sched.tail := rfl
@[simp] theorem afterTurn_resp (s : State) : (afterTurn s).resp = s.resp := rfl
@[simp] theorem afterTurn_cfg (s : State) : (afterTurn s).cfg = s.cfg := rfl

@[simp] theorem encAdvance_ie (s : State) : (encAdvance s).ie = s.ie := rfl
@[simp] theorem encAdvance_done (s : State) : (encAdvance s).done = s.done := rfl
@[simp] theorem encAdvance_outValid (s : State) : (encAdvance s).outValid = s.outValid := rfl
@[simp] theorem encAdvance_err (s : State) : (encAdvance s).err = s.err := rfl
@[simp] theorem encAdvance_wbusy (s : State) : (encAdvance s).wbusy = s.wbusy := rfl
@[simp] theorem encAdvance_cmdovr (s : State) : (encAdvance s).cmdovr = s.cmdovr := rfl
@[simp] theorem encAdvance_keyLen (s : State) : (encAdvance s).keyLen = s.keyLen := rfl
@[simp] theorem encAdvance_ivLen (s : State) : (encAdvance s).ivLen = s.ivLen := rfl
@[simp] theorem encAdvance_inLen (s : State) : (encAdvance s).inLen = s.inLen := rfl
@[simp] theorem encAdvance_outLen (s : State) : (encAdvance s).outLen = s.outLen := rfl
@[simp] theorem encAdvance_blkCnt (s : State) : (encAdvance s).blkCnt = s.blkCnt + 1 := rfl
@[simp] theorem encAdvance_key (s : State) : (encAdvance s).key = s.key := rfl
@[simp] theorem encAdvance_iv (s : State) : (encAdvance s).iv = s.iv := rfl
@[simp] theorem encAdvance_inBuf (s : State) : (encAdvance s).inBuf = s.inBuf := rfl
@[simp] theorem encAdvance_outBuf (s : State) : (encAdvance s).outBuf = Memory.store s.outBuf (8 * s.blkCnt.toNat) (encCipherBlock s).toList := rfl
@[simp] theorem encAdvance_chain (s : State) : (encAdvance s).chain = encCipherBlock s := rfl
@[simp] theorem encAdvance_phase (s : State) : (encAdvance s).phase = s.phase := rfl
@[simp] theorem encAdvance_opl (s : State) : (encAdvance s).opl = s.opl := rfl
@[simp] theorem encAdvance_rstAsserted (s : State) : (encAdvance s).rstAsserted = s.rstAsserted := rfl
@[simp] theorem encAdvance_resetCount (s : State) : (encAdvance s).resetCount = s.resetCount := rfl
@[simp] theorem encAdvance_host (s : State) : (encAdvance s).host = s.host := rfl
@[simp] theorem encAdvance_sched (s : State) : (encAdvance s).sched = s.sched := rfl
@[simp] theorem encAdvance_resp (s : State) : (encAdvance s).resp = s.resp := rfl
@[simp] theorem encAdvance_cfg (s : State) : (encAdvance s).cfg = s.cfg := rfl

@[simp] theorem decAdvance_ie (s : State) : (decAdvance s).ie = s.ie := rfl
@[simp] theorem decAdvance_done (s : State) : (decAdvance s).done = s.done := rfl
@[simp] theorem decAdvance_outValid (s : State) : (decAdvance s).outValid = s.outValid := rfl
@[simp] theorem decAdvance_err (s : State) : (decAdvance s).err = s.err := rfl
@[simp] theorem decAdvance_wbusy (s : State) : (decAdvance s).wbusy = s.wbusy := rfl
@[simp] theorem decAdvance_cmdovr (s : State) : (decAdvance s).cmdovr = s.cmdovr := rfl
@[simp] theorem decAdvance_keyLen (s : State) : (decAdvance s).keyLen = s.keyLen := rfl
@[simp] theorem decAdvance_ivLen (s : State) : (decAdvance s).ivLen = s.ivLen := rfl
@[simp] theorem decAdvance_inLen (s : State) : (decAdvance s).inLen = s.inLen := rfl
@[simp] theorem decAdvance_outLen (s : State) : (decAdvance s).outLen = s.outLen := rfl
@[simp] theorem decAdvance_blkCnt (s : State) : (decAdvance s).blkCnt = s.blkCnt + 1 := rfl
@[simp] theorem decAdvance_key (s : State) : (decAdvance s).key = s.key := rfl
@[simp] theorem decAdvance_iv (s : State) : (decAdvance s).iv = s.iv := rfl
@[simp] theorem decAdvance_inBuf (s : State) : (decAdvance s).inBuf = s.inBuf := rfl
@[simp] theorem decAdvance_outBuf (s : State) : (decAdvance s).outBuf = Memory.store s.outBuf (8 * s.blkCnt.toNat) (decPlainBlock s).toList := rfl
@[simp] theorem decAdvance_chain (s : State) : (decAdvance s).chain = inBlock s s.blkCnt.toNat := rfl
@[simp] theorem decAdvance_phase (s : State) : (decAdvance s).phase = s.phase := rfl
@[simp] theorem decAdvance_opl (s : State) : (decAdvance s).opl = s.opl := rfl
@[simp] theorem decAdvance_rstAsserted (s : State) : (decAdvance s).rstAsserted = s.rstAsserted := rfl
@[simp] theorem decAdvance_resetCount (s : State) : (decAdvance s).resetCount = s.resetCount := rfl
@[simp] theorem decAdvance_host (s : State) : (decAdvance s).host = s.host := rfl
@[simp] theorem decAdvance_sched (s : State) : (decAdvance s).sched = s.sched := rfl
@[simp] theorem decAdvance_resp (s : State) : (decAdvance s).resp = s.resp := rfl
@[simp] theorem decAdvance_cfg (s : State) : (decAdvance s).cfg = s.cfg := rfl

theorem busy_iff (s : State) : s.busy = true ↔ s.phase = .run := by simp [State.busy]

theorem not_busy_iff (s : State) : s.busy = false ↔ s.phase = .idle := by
  cases h : s.phase <;> simp [State.busy, h]

end Sys2Proof.Machine
end

