-- ==== Sys2Proof/Laws/Exec.lean ====
section
/-! SUPPORT. Everything a command's acceptance and an engine step can do, said once. -/

namespace Sys2Proof.Machine

/-- The gate passes exactly when no check fails; otherwise the first failing check's error completes the command. -/
theorem gate_cases (c : Op) (s : State) :
    (∃ e, firstFailure (gateChecks c s) = some e ∧ e ≠ .none ∧ gate c s = completeError e c.scrubs s) ∨
    (firstFailure (gateChecks c s) = none ∧ gate c s = launch c s) := by
  unfold gate
  cases h : firstFailure (gateChecks c s) with
  | none => exact .inr ⟨rfl, rfl⟩
  | some e =>
    refine .inl ⟨e, rfl, ?_, rfl⟩
    rintro rfl
    cases c <;> simp only [gateChecks, firstFailure] at h <;> (repeat' split at h) <;> cases h

/-- What the acceptance of an operation does. -/
theorem acceptOp_cases (c : Op) (s : State) :
    (∃ e, firstFailure (gateChecks c s) = some e ∧ e ≠ .none ∧ acceptOp c s = completeError e c.scrubs (start s)) ∨
    (firstFailure (gateChecks c s) = none ∧ acceptOp c s = launch c (start s)) :=
  have h : gateChecks c (start s) = gateChecks c s := by cases c <;> rfl
  h ▸ gate_cases c (start s)

/-- What a command word presented to the block does. -/
theorem exec_cases {i : Instr} {s t : State} (h : exec i s = .next t) :
    (i = .nop ∧ t = s) ∨
    (i ≠ .nop ∧ s.phase = .run ∧ t = overrun s) ∨
    (i = .clear ∧ s.phase = .idle ∧ t = softClear s) ∨
    ((∃ w, i = .bad w) ∧ s.phase = .idle ∧ t = completeError .badCommand false (start s)) ∨
    (∃ c, (c = .encrypt ∧ i = .encrypt ∨ c = .decrypt ∧ i = .decrypt ∨ c = .pad ∧ i = .pad ∨ c = .unpad ∧ i = .unpad) ∧
      s.phase = .idle ∧ t = acceptOp c s) := by
  have key : ∀ act : State → State, whenIdle act s = t →
      s.phase = .run ∧ t = overrun s ∨ s.phase = .idle ∧ t = act s := by
    intro act ha
    unfold whenIdle at ha
    split at ha
    · exact .inl ⟨(busy_iff s).1 ‹_›, ha.symm⟩
    · rename_i hb
      exact .inr ⟨(not_busy_iff s).1 (by simpa using hb), ha.symm⟩
  cases i with
  | nop => exact .inl ⟨rfl, by cases h; rfl⟩
  | encrypt =>
    rcases key _ (Host.Outcome.next.inj h) with h | h
    · exact .inr (.inl ⟨by simp, h.1, h.2⟩)
    · exact .inr (.inr (.inr (.inr ⟨.encrypt, by simp, h.1, h.2⟩)))
  | decrypt =>
    rcases key _ (Host.Outcome.next.inj h) with h | h
    · exact .inr (.inl ⟨by simp, h.1, h.2⟩)
    · exact .inr (.inr (.inr (.inr ⟨.decrypt, by simp, h.1, h.2⟩)))
  | clear =>
    rcases key _ (Host.Outcome.next.inj h) with h | h
    · exact .inr (.inl ⟨by simp, h.1, h.2⟩)
    · exact .inr (.inr (.inl ⟨rfl, h.1, h.2⟩))
  | pad =>
    rcases key _ (Host.Outcome.next.inj h) with h | h
    · exact .inr (.inl ⟨by simp, h.1, h.2⟩)
    · exact .inr (.inr (.inr (.inr ⟨.pad, by simp, h.1, h.2⟩)))
  | unpad =>
    rcases key _ (Host.Outcome.next.inj h) with h | h
    · exact .inr (.inl ⟨by simp, h.1, h.2⟩)
    · exact .inr (.inr (.inr (.inr ⟨.unpad, by simp, h.1, h.2⟩)))
  | bad w =>
    rcases key _ (Host.Outcome.next.inj h) with h | h
    · exact .inr (.inl ⟨by simp, h.1, h.2⟩)
    · exact .inr (.inr (.inr (.inl ⟨⟨w, rfl⟩, h.1, h.2⟩)))

/-- A command always answers a next state. -/
theorem exec_goes (i : Instr) (s : State) : ∃ t, exec i s = .next t := by cases i <;> exact ⟨_, rfl⟩

/-- A command leaves the build, the buffers, IN_LEN (but for CLEAR), the reset input and the agents' lists alone. -/
theorem exec_frame {i : Instr} {s t : State} (h : exec i s = .next t) :
    t.cfg = s.cfg ∧ t.inBuf = s.inBuf ∧ t.outBuf = s.outBuf ∧ t.rstAsserted = s.rstAsserted ∧
    t.resetCount = s.resetCount ∧ t.host = s.host ∧ t.sched = s.sched ∧ t.resp = s.resp ∧
    (i ≠ .clear → t.inLen = s.inLen ∧ t.ie = s.ie ∧ t.wbusy = s.wbusy) := by
  rcases exec_cases h with ⟨-, rfl⟩ | ⟨-, -, rfl⟩ | ⟨rfl, -, rfl⟩ | ⟨-, -, rfl⟩ | ⟨c, -, -, rfl⟩
  · simp
  · simp
  · simp
  · simp
  · rcases acceptOp_cases c s with ⟨e, -, -, h⟩ | ⟨-, h⟩ <;> simp [h]

/-- The five kinds of engine step (R126, R163, R164, R142, R143). -/
theorem engineStep_cases {s t : State} (h : engineStep s = .next t) :
    (s.opl = some .encrypt ∧ t = encStep s) ∨ (s.opl = some .decrypt ∧ t = decStep s) ∨
    (s.opl = some .pad ∧ t = padStep s) ∨ (s.opl = some .unpad ∧ t = unpadStep s) := by
  unfold engineStep at h
  split at h
  · cases h
  · exact .inl ⟨‹_›, (Host.Outcome.next.inj h).symm⟩
  · exact .inr (.inl ⟨‹_›, (Host.Outcome.next.inj h).symm⟩)
  · exact .inr (.inr (.inl ⟨‹_›, (Host.Outcome.next.inj h).symm⟩))
  · exact .inr (.inr (.inr ⟨‹_›, (Host.Outcome.next.inj h).symm⟩))

/-- The end of DECRYPT (R164). -/
theorem decFinish_cases (s : State) :
    (unpad s.cfg.unpadCheckAll (outBytes s s.inLen.toNat) = none ∧ decFinish s = completeError .invalidPadding true s) ∨
    (∃ r, unpad s.cfg.unpadCheckAll (outBytes s s.inLen.toNat) = some r ∧ decFinish s = completeOK r.length true s) := by
  unfold decFinish
  split
  · exact .inl ⟨‹_›, rfl⟩
  · exact .inr ⟨_, ‹_›, rfl⟩

/-- The step of UNPAD (R143). -/
theorem unpadStep_cases (s : State) :
    (unpad s.cfg.unpadCheckAll (inBytes s s.inLen.toNat) = none ∧ unpadStep s = completeError .invalidPadding false s) ∨
    (∃ r, unpad s.cfg.unpadCheckAll (inBytes s s.inLen.toNat) = some r ∧
      unpadStep s = completeOK r.length false { s with outBuf := Memory.store s.outBuf 0 r }) := by
  unfold unpadStep
  split
  · exact .inl ⟨‹_›, rfl⟩
  · exact .inr ⟨_, ‹_›, rfl⟩

/-- An engine step leaves the build, IN_BUF, IN_LEN, CTRL, the sticky flags, the reset input and the agents' lists alone. -/
theorem engineStep_frame {s t : State} (h : engineStep s = .next t) :
    t.cfg = s.cfg ∧ t.inBuf = s.inBuf ∧ t.inLen = s.inLen ∧ t.ie = s.ie ∧ t.wbusy = s.wbusy ∧ t.cmdovr = s.cmdovr ∧
    t.rstAsserted = s.rstAsserted ∧ t.resetCount = s.resetCount ∧ t.host = s.host ∧ t.sched = s.sched ∧
    t.resp = s.resp := by
  rcases engineStep_cases h with ⟨-, rfl⟩ | ⟨-, rfl⟩ | ⟨-, rfl⟩ | ⟨-, rfl⟩
  · unfold encStep; split <;> simp
  · unfold decStep
    split
    · rcases decFinish_cases (decAdvance s) with ⟨-, h⟩ | ⟨r, -, h⟩ <;> simp [h]
    · simp
  · simp [padStep]
  · rcases unpadStep_cases s with ⟨-, h⟩ | ⟨r, -, h⟩ <;> simp [h]

end Sys2Proof.Machine
end

