-- ==== Sys2Proof/Laws/Memory.lean ====
section
/-! SUPPORT. The buffer memories: read after write, the frame of a write, and that every write keeps the canonical form. -/

namespace Sys2Proof.Machine

@[simp] theorem find_nil (a : Nat) : Memory.find [] a = none := rfl

theorem find_cons (c : Host.Cell) (m : Memory) (a : Nat) :
    Memory.find (c :: m) a = if c.1 = a then some c.2 else Memory.find m a := rfl

theorem find_eq_none_iff {m : Memory} {a : Nat} : Memory.find m a = none ↔ ∀ c ∈ m, c.1 ≠ a := by
  induction m with
  | nil => simp
  | cons c m ih => by_cases h : c.1 = a <;> simp [find_cons, h, ih]

theorem find_append (m n : Memory) (a : Nat) :
    Memory.find (m ++ n) a = (Memory.find m a).or (Memory.find n a) := by
  induction m with
  | nil => simp
  | cons c m ih => by_cases h : c.1 = a <;> simp [find_cons, h, ih]

theorem find_filter (p : Nat → Bool) (m : Memory) (a : Nat) :
    Memory.find (m.filter fun c => p c.1) a = if p a then Memory.find m a else none := by
  induction m with
  | nil => simp
  | cons c m ih =>
    by_cases hp : p c.1 <;> by_cases h : c.1 = a <;> simp_all [find_cons]

theorem find_cells (a : Nat) (bs : List Byte) (x : Nat) :
    Memory.find (Memory.cells a bs) x = if a ≤ x then bs[x - a]? else none := by
  induction bs generalizing a with
  | nil => simp [Memory.cells]
  | cons b bs ih =>
    rw [Memory.cells, find_cons, ih]
    rcases Nat.lt_trichotomy a x with h | h | h
    · have e : x - a = (x - (a + 1)) + 1 := by omega
      rw [if_neg (by simp; omega), if_pos (by omega), if_pos (by omega), e]; simp
    · subst h; simp
    · rw [if_neg (by simp; omega), if_neg (by omega), if_neg (by omega)]

/-- What a read after a store gives: the stored bytes at their addresses, everything else as before. -/
theorem find_store (m : Memory) (a : Nat) (bs : List Byte) (x : Nat) :
    Memory.find (Memory.store m a bs) x =
      if a ≤ x ∧ x < a + bs.length then bs[x - a]? else Memory.find m x := by
  unfold Memory.store
  rw [find_append, find_append, find_cells,
    find_filter (fun k => decide (k < a)), find_filter (fun k => decide (a + bs.length ≤ k))]
  by_cases h1 : x < a
  · simp [h1, show ¬ a ≤ x by omega, show ¬ a + bs.length ≤ x by omega]
  · by_cases h2 : x < a + bs.length
    · simp [h1, h2, show a ≤ x by omega, show ¬ a + bs.length ≤ x by omega]
    · simp [h1, h2, show a ≤ x by omega, show a + bs.length ≤ x by omega, show bs.length ≤ x - a by omega]

theorem find_store_outside {m : Memory} {a x : Nat} {bs : List Byte} (h : x < a ∨ a + bs.length ≤ x) :
    Memory.find (Memory.store m a bs) x = Memory.find m x := by
  rw [find_store, if_neg (by omega)]

theorem find_store_inside {m : Memory} {a j : Nat} {bs : List Byte} (h : j < bs.length) :
    Memory.find (Memory.store m a bs) (a + j) = some bs[j] := by
  rw [find_store, if_pos (by omega)]; simp [h]

theorem mem_cells {a : Nat} {bs : List Byte} {c : Host.Cell} (h : c ∈ Memory.cells a bs) :
    a ≤ c.1 ∧ c.1 < a + bs.length := by
  induction bs generalizing a with
  | nil => simp [Memory.cells] at h
  | cons b bs ih =>
    rcases List.mem_cons.1 h with rfl | h
    · simp
    · have := ih h; simp only [List.length_cons]; omega

theorem wf_cells (a : Nat) (bs : List Byte) : Memory.wf (Memory.cells a bs) := by
  induction bs generalizing a with
  | nil => exact List.Pairwise.nil
  | cons b bs ih => exact List.Pairwise.cons (fun c hc => (mem_cells hc).1) (ih _)

/-- A store keeps the canonical form. -/
theorem wf_store {m : Memory} (h : Memory.wf m) (a : Nat) (bs : List Byte) : Memory.wf (Memory.store m a bs) := by
  refine List.pairwise_append.2 ⟨List.pairwise_append.2 ⟨h.filter _, wf_cells a bs, ?_⟩, h.filter _, ?_⟩
  · intro x hx y hy
    have := (mem_cells hy).1
    have := of_decide_eq_true (List.mem_filter.1 hx).2
    omega
  · intro x hx y hy
    have hy := of_decide_eq_true (List.mem_filter.1 hy).2
    rcases List.mem_append.1 hx with hx | hx
    · have := of_decide_eq_true (List.mem_filter.1 hx).2; omega
    · have := (mem_cells hx).2; omega

theorem below_store {m : Memory} {n a : Nat} {bs : List Byte} (h : Memory.below m n) (hb : a + bs.length ≤ n) :
    Memory.below (Memory.store m a bs) n := by
  intro c hc
  rcases List.mem_append.1 hc with hc | hc
  · rcases List.mem_append.1 hc with hc | hc
    · exact h c (List.mem_filter.1 hc).1
    · have := (mem_cells hc).2; omega
  · exact h c (List.mem_filter.1 hc).1

/-- The memories of the reset state are canonical. -/
theorem wf_reset (c : Config) : Memory.wf (State.resetOf c).inBuf ∧ Memory.wf (State.resetOf c).outBuf :=
  ⟨List.Pairwise.nil, List.Pairwise.nil⟩

/-- Two canonical memories that read alike at every address are the same data. -/
theorem wf_ext {m n : Memory} (hm : Memory.wf m) (hn : Memory.wf n) (h : ∀ a, Memory.find m a = Memory.find n a) :
    m = n := by
  induction m generalizing n with
  | nil =>
    cases n with
    | nil => rfl
    | cons d n => have := h d.1; simp [find_cons] at this
  | cons c m ih =>
    cases n with
    | nil => have := h c.1; simp [find_cons] at this
    | cons d n =>
      have hm' := List.pairwise_cons.1 hm
      have hn' := List.pairwise_cons.1 hn
      have hmc : Memory.find m c.1 = none := find_eq_none_iff.2 fun x hx => Nat.ne_of_gt (hm'.1 x hx)
      have hnd : Memory.find n d.1 = none := find_eq_none_iff.2 fun x hx => Nat.ne_of_gt (hn'.1 x hx)
      have key : c.1 = d.1 := by
        rcases Nat.lt_trichotomy c.1 d.1 with hlt | he | hgt
        · have hc := h c.1
          have : Memory.find n c.1 = none := find_eq_none_iff.2 fun x hx => by have := hn'.1 x hx; omega
          simp [find_cons, this, show ¬ d.1 = c.1 by omega] at hc
        · exact he
        · have hd := h d.1
          have : Memory.find m d.1 = none := find_eq_none_iff.2 fun x hx => by have := hm'.1 x hx; omega
          simp [find_cons, this, show ¬ c.1 = d.1 by omega] at hd
      have hv : c.2 = d.2 := by have := h c.1; simpa [find_cons, key] using this
      have hcd : c = d := Prod.ext key hv
      subst hcd
      refine congrArg _ (ih hm'.2 hn'.2 fun a => ?_)
      by_cases ha : c.1 = a
      · subst ha; rw [hmc, hnd]
      · have := h a; simpa [find_cons, ha] using this

end Sys2Proof.Machine
end

