-- ==== Sys2Proof/Laws/Bus.lean ====
section
/-! SUPPORT. Everything a host access and a turn can do, said once. -/

namespace Sys2Proof.Machine

theorem writeByte_eq (s : State) (o : Nat) (b : Byte) :
    (∃ i, regionOf s.cfg o = .key i ∧ writeByte s o b = { s with key := s.key.set i b }) ∨
    (∃ i, regionOf s.cfg o = .iv i ∧ writeByte s o b = { s with iv := s.iv.set i b }) ∨
    (∃ i, regionOf s.cfg o = .input i ∧ writeByte s o b = { s with inBuf := Memory.store s.inBuf i [b] }) ∨
    ((regionOf s.cfg o = .register ∨ (∃ i, regionOf s.cfg o = .output i) ∨ regionOf s.cfg o = .reserved) ∧
      writeByte s o b = s) := by
  unfold writeByte
  split
  · exact .inl ⟨_, ‹_›, rfl⟩
  · exact .inr (.inl ⟨_, ‹_›, rfl⟩)
  · exact .inr (.inr (.inl ⟨_, ‹_›, rfl⟩))
  · exact .inr (.inr (.inr ⟨.inl ‹_›, rfl⟩))
  · exact .inr (.inr (.inr ⟨.inr (.inl ⟨_, ‹_›⟩), rfl⟩))
  · exact .inr (.inr (.inr ⟨.inr (.inr ‹_›), rfl⟩))

theorem writeBytes_shape (s : State) (a : Nat) (v : Word) (n : Nat) :
    ∃ k i m, writeBytes s a v n = { s with key := k, iv := i, inBuf := m } := by
  induction n with
  | zero => exact ⟨s.key, s.iv, s.inBuf, rfl⟩
  | succ n ih =>
    obtain ⟨k, i, m, ih⟩ := ih
    rw [writeBytes]
    rcases writeByte_eq (writeBytes s a v n) (a + n) (byteOf v n) with ⟨j, -, h⟩ | ⟨j, -, h⟩ | ⟨j, -, h⟩ | ⟨-, h⟩ <;>
      rw [h, ih]
    · exact ⟨_, i, m, rfl⟩
    · exact ⟨k, _, m, rfl⟩
    · exact ⟨k, i, _, rfl⟩
    · exact ⟨k, i, m, rfl⟩

/-- Window writes touch KEY, IV and IN_BUF only. -/
theorem writeBytes_frame (s : State) (a : Nat) (v : Word) (n : Nat) :
    writeBytes s a v n =
      { s with key := (writeBytes s a v n).key, iv := (writeBytes s a v n).iv, inBuf := (writeBytes s a v n).inBuf } := by
  obtain ⟨k, i, m, h⟩ := writeBytes_shape s a v n
  simp only [h]

theorem writeBytes_cfg (s : State) (a : Nat) (v : Word) (n : Nat) : (writeBytes s a v n).cfg = s.cfg := by
  obtain ⟨k, i, m, h⟩ := writeBytes_shape s a v n
  rw [h]

/-- The indices of the regions are inside their arrays. -/
theorem regionOf_bound (c : Config) (o : Nat) :
    (∀ i, regionOf c o = .key i → i < c.keyMaxBytes ∧ o = 0x100 + i) ∧
    (∀ i, regionOf c o = .iv i → i < 8 ∧ o = 0x200 + i) ∧
    (∀ i, regionOf c o = .input i → i < c.bufBytes ∧ o = 0x10000 + i) ∧
    (∀ i, regionOf c o = .output i → i < c.bufBytes ∧ o = 0x20000 + i) := by
  unfold regionOf
  refine ⟨?_, ?_, ?_, ?_⟩ <;> intro i h <;> (repeat' split at h) <;>
    simp only [reduceCtorEq, Region.key.injEq, Region.iv.injEq, Region.input.injEq, Region.output.injEq] at h <;> omega

theorem writeBytes_key_length (s : State) (a : Nat) (v : Word) (n : Nat) :
    (writeBytes s a v n).key.length = s.key.length := by
  induction n with
  | zero => rfl
  | succ n ih =>
    rw [writeBytes]
    rcases writeByte_eq (writeBytes s a v n) (a + n) (byteOf v n) with ⟨i, -, h⟩ | ⟨i, -, h⟩ | ⟨i, -, h⟩ | ⟨-, h⟩ <;>
      simp [h, ih]

/-- Window writes keep the input buffer canonical and inside its capacity. -/
theorem writeBytes_inBuf (s : State) (a : Nat) (v : Word) (n : Nat) (hw : Memory.wf s.inBuf)
    (hb : Memory.below s.inBuf s.cfg.bufBytes) :
    Memory.wf (writeBytes s a v n).inBuf ∧ Memory.below (writeBytes s a v n).inBuf s.cfg.bufBytes := by
  induction n with
  | zero => exact ⟨hw, hb⟩
  | succ n ih =>
    rw [writeBytes]
    rcases writeByte_eq (writeBytes s a v n) (a + n) (byteOf v n) with ⟨i, -, h⟩ | ⟨i, -, h⟩ | ⟨i, hi, h⟩ | ⟨-, h⟩ <;>
      simp only [h]
    · exact ih
    · exact ih
    · refine ⟨wf_store ih.1 _ _, below_store ih.2 ?_⟩
      rw [writeBytes_cfg] at hi
      have := ((regionOf_bound _ _).2.2.1 i hi).1
      simpa using this
    · exact ih

/-- What a host access can do to the block, whatever it does to the pending statements and the response. -/
inductive HostEffect (s : State) : State → Prop where
  | nothing : HostEffect s s
  | ctrl (v : Word) : HostEffect s (ctrlWrite v s)
  | status (v : Word) : HostEffect s (statusWrite v s)
  | command (w : Word) (t : State) (h : exec (decode w) s = .next t) : HostEffect s t
  | dropped (hb : s.phase = .run) : HostEffect s { s with wbusy := true }
  | keyLen (v : Word) (hb : s.phase = .idle) : HostEffect s { s with keyLen := v }
  | ivLen (v : Word) (hb : s.phase = .idle) : HostEffect s { s with ivLen := v }
  | inLen (v : Word) (hb : s.phase = .idle) : HostEffect s { s with inLen := v }
  | window (a n : Nat) (v : Word) (hb : s.phase = .idle) : HostEffect s (writeBytes s a v n)
  | ignored (a n : Nat) (v : Word) (hd : droppable s.cfg a = false) (ha : 0x100 ≤ a) (hm : malformed a n = false) :
      HostEffect s (writeBytes s a v n)

theorem lenWrite_cases (set : State → State) (s : State) :
    (s.phase = .run ∧ lenWrite set s = { s with wbusy := true }) ∨ (s.phase = .idle ∧ lenWrite set s = set s) := by
  unfold lenWrite
  split
  · exact .inl ⟨(busy_iff s).1 ‹_›, rfl⟩
  · rename_i h
    exact .inr ⟨(not_busy_iff s).1 (by simpa using h), rfl⟩

theorem registerWrite_effect {s t : State} {r : Nat} {v : Word} (h : registerWrite s r v = .next t) :
    HostEffect s t := by
  unfold registerWrite at h
  split at h
  · exact Host.Outcome.next.inj h ▸ .ctrl v
  · exact .command v t h
  · exact Host.Outcome.next.inj h ▸ .status v
  · rcases lenWrite_cases (fun s => { s with keyLen := v }) s with ⟨hb, e⟩ | ⟨hb, e⟩
    · exact Host.Outcome.next.inj h ▸ e ▸ .dropped hb
    · exact Host.Outcome.next.inj h ▸ e ▸ .keyLen v hb
  · rcases lenWrite_cases (fun s => { s with ivLen := v }) s with ⟨hb, e⟩ | ⟨hb, e⟩
    · exact Host.Outcome.next.inj h ▸ e ▸ .dropped hb
    · exact Host.Outcome.next.inj h ▸ e ▸ .ivLen v hb
  · rcases lenWrite_cases (fun s => { s with inLen := v }) s with ⟨hb, e⟩ | ⟨hb, e⟩
    · exact Host.Outcome.next.inj h ▸ e ▸ .dropped hb
    · exact Host.Outcome.next.inj h ▸ e ▸ .inLen v hb
  all_goals exact Host.Outcome.next.inj h ▸ .nothing

/-- What `MemWrite` does: a response, and one effect on the block. -/
theorem memWrite_effect {s t : State} {a n : Nat} {v : Word} (h : memWrite s a n v = .next t) :
    ∃ r, HostEffect { s with resp := r } t := by
  unfold memWrite at h
  split at h
  · obtain rfl := Host.Outcome.next.inj h
    exact ⟨_, .nothing⟩
  · rename_i hm
    simp only at h
    split at h
    · exact ⟨_, registerWrite_effect h⟩
    · rename_i ha
      split at h
      · rename_i hd
        rw [Bool.and_eq_true] at hd
        refine ⟨some ⟨false, 0⟩, Host.Outcome.next.inj h ▸ ?_⟩
        exact HostEffect.dropped (s := { s with resp := some ⟨false, 0⟩ }) ((busy_iff s).1 hd.2)
      · rename_i hd
        refine ⟨some ⟨false, 0⟩, Host.Outcome.next.inj h ▸ ?_⟩
        rcases Bool.eq_false_or_eq_true s.busy with hb | hb
        · refine .ignored a n v ?_ (by omega) (by simpa using hm)
          simpa [hb] using hd
        · exact .window a n v ((not_busy_iff s).1 hb)

/-- A host step: its statements and the response, and one effect on the block. -/
theorem hostStep_effect {s t : State} (h : hostStep s = .next t) :
    ∃ l r, HostEffect { s with host := l, resp := r } t := by
  have hread : ∀ (u : State) addr n, ∃ r, busRead u addr n = { u with resp := r } := by
    intro u addr n
    unfold busRead
    split <;> exact ⟨_, rfl⟩
  unfold hostStep at h
  split at h
  · exact ⟨s.host, s.resp, Host.Outcome.next.inj h ▸ .nothing⟩
  · rename_i addr n rest _
    obtain ⟨r, hr⟩ := hread { s with host := rest } addr n
    exact ⟨rest, r, Host.Outcome.next.inj h ▸ hr ▸ .nothing⟩
  · rename_i addr n v rest _
    unfold busWrite at h
    split at h
    · obtain ⟨r, hr⟩ := memWrite_effect h
      exact ⟨rest, r, hr⟩
    · exact ⟨rest, none, Host.Outcome.next.inj h ▸ .nothing⟩
  · rename_i addr mask v rest _
    obtain ⟨r, hr⟩ := hread s addr 4
    simp only [hr] at h
    split at h
    · exact ⟨rest, r, Host.Outcome.next.inj h ▸ .nothing⟩
    · exact ⟨s.host, r, Host.Outcome.next.inj h ▸ .nothing⟩

/-- A host access always answers a next state: a bus error is a response, not a stop (R65). -/
theorem hostStep_goes (s : State) : ∃ t, hostStep s = .next t := by
  have hmw : ∀ (u : State) a n v, ∃ t, memWrite u a n v = .next t := by
    intro u a n v
    unfold memWrite registerWrite
    repeat' split
    all_goals first | exact exec_goes _ _ | exact ⟨_, rfl⟩
  unfold hostStep busWrite
  repeat' split
  all_goals first | exact hmw _ _ _ _ | exact ⟨_, rfl⟩

/-- Everything one turn can do. -/
theorem takeTurn_cases {k : Turn} {s t : State} (h : takeTurn k s = .next t) :
    (t = s ∧ (k = .host ∧ s.rstAsserted = true ∨ k = .engine ∧ (s.rstAsserted = true ∨ s.phase = .idle))) ∨
    (k = .host ∧ s.rstAsserted = false ∧ hostStep s = .next t) ∨
    (k = .engine ∧ s.rstAsserted = false ∧ s.phase = .run ∧ engineStep s = .next t) ∨
    (k = .assertReset ∧ t = assertReset s) ∨ (k = .releaseReset ∧ t = releaseReset s) := by
  unfold takeTurn at h
  cases k with
  | host =>
    simp only at h
    split at h
    · exact .inl ⟨(Host.Outcome.next.inj h).symm, .inl ⟨rfl, ‹_›⟩⟩
    · rename_i hr
      exact .inr (.inl ⟨rfl, by simpa using hr, h⟩)
  | engine =>
    simp only at h
    split at h
    · rename_i hr
      refine .inl ⟨(Host.Outcome.next.inj h).symm, .inr ⟨rfl, ?_⟩⟩
      rcases Bool.or_eq_true _ _ ▸ hr with hr | hr
      · exact .inl hr
      · exact .inr ((not_busy_iff s).1 (by simpa using hr))
    · rename_i hr
      simp only [Bool.or_eq_true, not_or] at hr
      exact .inr (.inr (.inl ⟨rfl, by simpa using hr.1, (busy_iff s).1 (by simpa using hr.2), h⟩))
  | assertReset => exact .inr (.inr (.inr (.inl ⟨rfl, (Host.Outcome.next.inj h).symm⟩)))
  | releaseReset => exact .inr (.inr (.inr (.inr ⟨rfl, (Host.Outcome.next.inj h).symm⟩)))

end Sys2Proof.Machine
end

