-- ==== Sys2Proof/Laws/Padding.lean ====
section
/-! SUPPORT. The padding transform as functions on byte sequences. -/

namespace Sys2Proof.Machine

theorem padLen_pos (l : Nat) : 1 ≤ padLen l := by unfold padLen; omega

theorem padLen_le (l : Nat) : padLen l ≤ 8 := by unfold padLen; omega

theorem add_padLen (l : Nat) : l + padLen l = 8 * (l / 8 + 1) := by unfold padLen; omega

theorem padLen_toNat (l : Nat) : (BitVec.ofNat 8 (padLen l) : Byte).toNat = padLen l := by
  have := padLen_le l; simp; omega

@[simp] theorem pad_length (d : List Byte) : (pad d).length = 8 * (d.length / 8 + 1) := by
  simp [pad, add_padLen]

/-- Byte q of pad(d) (R140). -/
theorem pad_getD (d : List Byte) (q : Nat) (h : q < d.length + padLen d.length) :
    (pad d).getD q 0 = if q < d.length then d.getD q 0 else BitVec.ofNat 8 (padLen d.length) := by
  unfold pad
  rw [List.getD_eq_getElem?_getD]
  split
  · rename_i hq; rw [List.getElem?_append_left hq, ← List.getD_eq_getElem?_getD]
  · rename_i hq
    rw [List.getElem?_append_right (by omega), List.getElem?_replicate, if_pos (by omega)]; rfl

/-- When unpad succeeds, and with what (R141). -/
theorem unpad_eq_some_iff (b : Bool) (d r : List Byte) :
    unpad b d = some r ↔
      ∃ p : Nat, 1 ≤ p ∧ p ≤ 8 ∧ p ≤ d.length ∧ (d.getD (d.length - 1) 0).toNat = p ∧
        (b = true → ∀ x ∈ d.drop (d.length - p), x = d.getD (d.length - 1) 0) ∧ r = d.take (d.length - p) := by
  simp only [unpad]
  constructor
  · intro h
    split at h
    · cases h
    split at h
    · cases h
    split at h
    · cases h
    split at h
    · cases h
    rename_i h1 h2 h3 h4
    refine ⟨_, by omega, by omega, by omega, rfl, ?_, (Option.some.inj h).symm⟩
    intro hb x hx
    subst hb
    simp only [Bool.true_and, List.any_eq_true, decide_eq_true_eq, not_exists, not_and, not_not] at h4
    exact h4 x hx
  · rintro ⟨p, h1, h2, h3, hp, hall, rfl⟩
    rw [if_neg (by omega), if_neg (by omega), if_neg (by omega), if_neg]
    · rw [hp]
    · rw [hp]
      cases b with
      | false => simp
      | true =>
        simp only [Bool.true_and, List.any_eq_true, decide_eq_true_eq, not_exists, not_and, not_not]
        exact hall rfl

theorem unpad_length {b : Bool} {d r : List Byte} (h : unpad b d = some r) :
    r.length < d.length ∧ d.length ≤ r.length + 8 ∧ r = d.take r.length := by
  obtain ⟨p, h1, h2, h3, -, -, rfl⟩ := (unpad_eq_some_iff b d r).1 h
  simp; omega

theorem padByte_eq (s : State) (l q : Nat) (h : q < l + padLen l) :
    padByte s l q = (pad (inBytes s l)).getD q 0 := by
  have hl : (inBytes s l).length = l := by simp [inBytes]
  rw [pad_getD _ _ (by rw [hl]; exact h), hl, padByte]
  split
  · rename_i hq; simp [inBytes, List.getD_eq_getElem?_getD, List.getElem?_range hq]
  · rfl

/-- The block the byte counter makes is the block of the padded input. -/
theorem padBlock_eq (s : State) (l i : Nat) (h : i < l / 8 + 1) : padBlock s l i = blockAt (pad (inBytes s l)) i :=
  Block.ofFn_congr fun j hj => padByte_eq s l _ (by rw [add_padLen]; omega)

/-- The bytes PAD writes are pad(IN_BUF[0..L)). -/
theorem padBytes_eq (s : State) (l : Nat) :
    (List.range (l + padLen l)).map (padByte s l) = pad (inBytes s l) := by
  have hl : (inBytes s l).length = l := by simp [inBytes]
  refine list_ext_getD (d := 0) (by simp [hl, add_padLen]) fun q hq => ?_
  have hq : q < l + padLen l := by simpa using hq
  rw [← padByte_eq s l q hq]
  simp [List.getD_eq_getElem?_getD, List.getElem?_range hq]

end Sys2Proof.Machine
end

