-- ==== Sys2Proof/Laws/Cbc.lean ====
section
/-! SUPPORT. The CBC chains as functions on blocks. -/

namespace Sys2Proof.Machine

@[simp] theorem cbcEncBlocks_length (enc : Block → Block) (iv : Block) (ps : List Block) :
    (cbcEncBlocks enc iv ps).length = ps.length := by
  induction ps generalizing iv with
  | nil => rfl
  | cons p ps ih => simp [cbcEncBlocks, ih]

@[simp] theorem cbcDecBlocks_length (dec : Block → Block) (iv : Block) (cs : List Block) :
    (cbcDecBlocks dec iv cs).length = cs.length := by
  induction cs generalizing iv with
  | nil => rfl
  | cons c cs ih => simp [cbcDecBlocks, ih]

/-- Ciphertext block i: E of plaintext block i XOR the previous ciphertext block, or the IV (R163). -/
theorem cbcEncBlocks_getD (enc : Block → Block) (iv : Block) (ps : List Block) (i : Nat) (h : i < ps.length) :
    (cbcEncBlocks enc iv ps).getD i Block.zero =
      enc (xor8 (ps.getD i Block.zero)
        (if i = 0 then iv else (cbcEncBlocks enc iv ps).getD (i - 1) Block.zero)) := by
  induction ps generalizing iv i with
  | nil => simp at h
  | cons p ps ih =>
    cases i with
    | zero => simp [cbcEncBlocks]
    | succ i =>
      have hi : i < ps.length := by simpa using h
      simp only [cbcEncBlocks, List.getD_cons_succ, ih _ _ hi]
      cases i with
      | zero => simp
      | succ i => simp

/-- A list of blocks that satisfies the encryption recurrence is the CBC encryption. -/
theorem eq_cbcEncBlocks {enc : Block → Block} {iv : Block} {ps cs : List Block} (hl : cs.length = ps.length)
    (h : ∀ i < ps.length, cs.getD i Block.zero =
      enc (xor8 (ps.getD i Block.zero) (if i = 0 then iv else cs.getD (i - 1) Block.zero))) :
    cs = cbcEncBlocks enc iv ps := by
  refine list_ext_getD (d := Block.zero) (by simp [hl]) fun i hi => ?_
  induction i with
  | zero => rw [h 0 (by omega), cbcEncBlocks_getD _ _ _ _ (by omega)]; simp
  | succ i ih =>
    rw [h _ (by omega), cbcEncBlocks_getD _ _ _ _ (by omega)]
    have e := ih (by omega)
    simp only [Nat.add_one_ne_zero, if_false, Nat.add_sub_cancel, e]

/-- A list of blocks that satisfies the decryption recurrence (R164) is the CBC decryption. -/
theorem eq_cbcDecBlocks {dec : Block → Block} {iv : Block} {cs ps : List Block} (hl : ps.length = cs.length)
    (h : ∀ i < cs.length, ps.getD i Block.zero =
      xor8 (dec (cs.getD i Block.zero)) (if i = 0 then iv else cs.getD (i - 1) Block.zero)) :
    ps = cbcDecBlocks dec iv cs := by
  induction cs generalizing iv ps with
  | nil => exact List.length_eq_zero_iff.1 hl
  | cons c cs ih =>
    cases ps with
    | nil => simp at hl
    | cons p ps =>
      have h0 := h 0 (by simp)
      rw [cbcDecBlocks, ← ih (iv := c) (by simpa using hl)]
      · simpa using h0
      · intro i hi
        have hs := h (i + 1) (by simpa using hi)
        cases i <;> simpa using hs

end Sys2Proof.Machine
end

