-- ==== Sys2Proof/Laws/Operands.lean ====
section
/-! SUPPORT. The buffers read byte by byte and block by block, after a store and through the output window. -/

namespace Sys2Proof.Machine

theorem outByte_congr {s t : State} {x : Nat} (h : t.resetCount = s.resetCount)
    (he : Memory.find t.outBuf x = Memory.find s.outBuf x) : outByte t x = outByte s x := by
  simp [outByte, h, he]

/-- A stored byte of OUT_BUF reads back. -/
theorem outByte_store_inside {s t : State} {a j : Nat} {bs : List Byte} (h : t.outBuf = Memory.store s.outBuf a bs)
    (hj : j < bs.length) : outByte t (a + j) = bs[j] := by
  simp [outByte, h, find_store_inside hj]

/-- A store to OUT_BUF leaves every other byte alone. -/
theorem outByte_store_outside {s t : State} {a x : Nat} {bs : List Byte} (h : t.outBuf = Memory.store s.outBuf a bs)
    (hr : t.resetCount = s.resetCount) (hx : x < a ∨ a + bs.length ≤ x) : outByte t x = outByte s x :=
  outByte_congr hr (by rw [h, find_store_outside hx])

theorem Block.getElem_toList (b : Block) (j : Nat) (hj : j < b.toList.length) : b.toList[j] = b.get j := by
  have h := Block.getElem?_toList b j hj
  rw [List.getElem?_eq_getElem hj] at h
  exact Option.some.inj h

@[simp] theorem inBytes_length (s : State) (n : Nat) : (inBytes s n).length = n := by simp [inBytes]

@[simp] theorem outBytes_length (s : State) (n : Nat) : (outBytes s n).length = n := by simp [outBytes]

theorem inBytes_getD (s : State) {n i : Nat} (h : i < n) : (inBytes s n).getD i 0 = inByte s i := by
  simp [inBytes, List.getD_eq_getElem?_getD, List.getElem?_range h]

theorem outBytes_getD (s : State) {n i : Nat} (h : i < n) : (outBytes s n).getD i 0 = outByte s i := by
  simp [outBytes, List.getD_eq_getElem?_getD, List.getElem?_range h]

/-- A block stored at its own place reads back as that block. -/
theorem outBlock_store_self {s t : State} {i : Nat} {b : Block}
    (h : t.outBuf = Memory.store s.outBuf (8 * i) b.toList) : outBlock t i = b := by
  refine Block.ext_get fun j hj => ?_
  rw [outBlock, Block.get_ofFn _ j hj, outByte_store_inside h (by simpa using hj), Block.getElem_toList]

/-- A store of one block leaves every other block alone. -/
theorem outBlock_store_other {s t : State} {i k : Nat} {b : Block}
    (h : t.outBuf = Memory.store s.outBuf (8 * i) b.toList) (hr : t.resetCount = s.resetCount) (hk : k ≠ i) :
    outBlock t k = outBlock s k :=
  Block.ofFn_congr fun j hj => outByte_store_outside h hr (by simp; omega)

theorem outBlock_congr {s t : State} (i : Nat) (h : t.resetCount = s.resetCount) (he : t.outBuf = s.outBuf) :
    outBlock t i = outBlock s i :=
  Block.ofFn_congr fun j _ => outByte_congr h (by rw [he])

theorem inBlock_eq (s : State) {l i : Nat} (h : i < l / 8) : inBlock s i = blockAt (inBytes s l) i :=
  Block.ofFn_congr fun j hj => (inBytes_getD s (by omega)).symm

/-- The bytes of OUT_BUF are those of its blocks. -/
theorem outBytes_eq_bytesOf {s : State} {bs : List Block} (h : ∀ i < bs.length, outBlock s i = bs.getD i Block.zero) :
    outBytes s (8 * bs.length) = bytesOf bs := by
  refine list_ext_getD (d := 0) (by simp) fun q hq => ?_
  have hq : q < 8 * bs.length := by simpa using hq
  rw [outBytes_getD s hq]
  have e : q = 8 * (q / 8) + q % 8 := by omega
  rw [e, bytesOf_getD _ _ _ (by omega), ← h _ (by omega), outBlock, Block.get_ofFn _ _ (by omega)]

/-- The output window through its gate (R72). -/
theorem readByte_output (s : State) {i : Nat} (h : i < s.cfg.bufBytes) (hb : s.cfg.bufBytes ≤ 65536) :
    readByte s (0x20000 + i) = if s.outValid = true ∧ i < s.outLen.toNat then outByte s i else 0 := by
  have hr : regionOf s.cfg (0x20000 + i) = .output i := by
    unfold regionOf
    rw [if_neg (by omega), if_neg (by omega), if_neg (by omega), if_neg (by omega), if_neg (by omega),
      if_pos (by omega), if_pos (by omega), Nat.add_sub_cancel_left]
  simp [readByte, hr]

/-- With OUT_VALID = 0 the whole output window reads 0 (R72). -/
theorem readByte_output_invalid (s : State) (hv : s.outValid = false) {i : Nat} (h : i < 0x10000) :
    readByte s (0x20000 + i) = 0 := by
  have hr : regionOf s.cfg (0x20000 + i) = .output i ∨ regionOf s.cfg (0x20000 + i) = .reserved := by
    unfold regionOf
    rw [if_neg (by omega), if_neg (by omega), if_neg (by omega), if_neg (by omega), if_neg (by omega),
      if_pos (by omega), Nat.add_sub_cancel_left]
    split <;> simp
  rcases hr with hr | hr <;> simp [readByte, hr, hv]

/-- The bytes of a read value are the bytes read, lowest address first, and zeros above them (R62, R66). -/
theorem byteOf_readBytes (s : State) (a n j : Nat) :
    byteOf (readBytes s a n) j = if j < n ∧ j < 4 then readByte s (a + j) else 0 := by
  have bit : ∀ i, (readBytes s a n).getLsbD i =
      (decide (i / 8 < n) && decide (i < 32) && (readByte s (a + i / 8)).getLsbD (i % 8)) := by
    intro i
    induction n with
    | zero => simp [readBytes]
    | succ n ih =>
      rw [readBytes, BitVec.getLsbD_or, ih, BitVec.getLsbD_shiftLeft, BitVec.getLsbD_setWidth]
      by_cases hi : i < 32
      · rcases Nat.lt_trichotomy (i / 8) n with h | h | h
        · simp only [h, hi, show i < 8 * n by omega, show i / 8 < n + 1 by omega]; simp
        · subst h
          simp only [hi, show ¬ i < 8 * (i / 8) by omega, show i / 8 < i / 8 + 1 by omega, Nat.lt_irrefl,
            show i - 8 * (i / 8) = i % 8 by omega, show i % 8 < 32 by omega]
          simp
        · have h8 : (readByte s (a + n)).getLsbD (i - 8 * n) = false := BitVec.getLsbD_of_ge _ _ (by omega)
          simp only [h8, show ¬ i / 8 < n by omega, show ¬ i / 8 < n + 1 by omega]; simp
      · simp [hi]
  apply BitVec.eq_of_getLsbD_eq
  intro i hi
  unfold byteOf
  rw [BitVec.getLsbD_extractLsb', bit]
  simp only [hi, show (8 * j + i) / 8 = j by omega, show (8 * j + i) % 8 = i by omega]
  by_cases h1 : j < n <;> by_cases h2 : j < 4 <;> simp [h1, h2] <;> omega

end Sys2Proof.Machine
end

