-- ==== Sys2Proof/Laws/Chain.lean ====
section
/-! SUPPORT. The chain invariants of a running ENCRYPT or DECRYPT (42_cbc.md R161): a block step keeps them, and what they say
once the last block is written. -/

namespace Sys2Proof.Machine

theorem blkCnt_succ_toNat {s : State} {n : Nat} (h : s.blkCnt.toNat < n) (hn : n ≤ 2 ^ 29) :
    (s.blkCnt + 1).toNat = s.blkCnt.toNat + 1 := by
  rw [BitVec.toNat_add]; simp; omega

theorem encBlocks_le (w : Word) : encBlocks w.toNat ≤ 2 ^ 29 := by
  have := w.isLt; unfold encBlocks; omega

/-- Blocks 0 to i of OUT_BUF, and the chain values before blocks 0 to i + 1, after the step that wrote block i. -/
theorem encAdvance_blocks {s : State} (h : EncryptInv s) :
    ∀ j < s.blkCnt.toNat + 1, outBlock (encAdvance s) j =
      cipherE s.cfg.primitive (keyOperand s) (xor8 (padBlock s s.inLen.toNat j) (encChainAt (encAdvance s) j)) := by
  have hst : (encAdvance s).outBuf = Memory.store s.outBuf (8 * s.blkCnt.toNat) (encCipherBlock s).toList := rfl
  have old : ∀ k, k ≠ s.blkCnt.toNat → outBlock (encAdvance s) k = outBlock s k := fun k hk =>
    outBlock_store_other hst rfl hk
  have hch : ∀ j, j ≤ s.blkCnt.toNat → encChainAt (encAdvance s) j = encChainAt s j := by
    intro j hj
    cases j with
    | zero => rfl
    | succ j => exact old j (by omega)
  intro j hj
  rw [hch j (by omega)]
  rcases Nat.lt_or_ge j s.blkCnt.toNat with hlt | hge
  · rw [old j (by omega), h.blocks j hlt]
  · obtain rfl : j = s.blkCnt.toNat := by omega
    rw [outBlock_store_self hst, encCipherBlock, h.chain]

/-- A block step of ENCRYPT that is not the last keeps the chain invariant. -/
theorem EncryptInv.advance {s : State} (h : EncryptInv s) (hl : s.blkCnt.toNat + 1 ≠ encBlocks s.inLen.toNat) :
    EncryptInv (encAdvance s) := by
  have hb : (encAdvance s).blkCnt.toNat = s.blkCnt.toNat + 1 := blkCnt_succ_toNat h.count (encBlocks_le _)
  have hst : (encAdvance s).outBuf = Memory.store s.outBuf (8 * s.blkCnt.toNat) (encCipherBlock s).toList := rfl
  have hc := h.count
  refine ⟨h.key_ok, h.iv_ok, h.range, ?_, ?_, ?_⟩
  · rw [hb]; change _ < encBlocks s.inLen.toNat; omega
  · rw [hb]; exact (outBlock_store_self hst).symm
  · rw [hb]; exact encAdvance_blocks h

/-- After the last block step OUT_BUF holds CBC_ENC of the key, the IV and the input (R168). -/
theorem EncryptInv.result {s : State} (h : EncryptInv s) (hl : s.blkCnt.toNat + 1 = encBlocks s.inLen.toNat) :
    outBytes (encAdvance s) (8 * encBlocks s.inLen.toNat) =
      cbcEnc s.cfg.primitive (keyOperand s) s.iv (inBytes s s.inLen.toNat) := by
  have hn : (blocksOf (pad (inBytes s s.inLen.toNat))).length = encBlocks s.inLen.toNat := by
    rw [blocksOf_length, pad_length, inBytes_length, encBlocks]; omega
  have hl' : ((List.range (encBlocks s.inLen.toNat)).map (outBlock (encAdvance s))).length = encBlocks s.inLen.toNat := by
    simp
  have hget : ∀ i < encBlocks s.inLen.toNat,
      ((List.range (encBlocks s.inLen.toNat)).map (outBlock (encAdvance s))).getD i Block.zero =
        outBlock (encAdvance s) i := by
    intro i hi; simp [List.getD_eq_getElem?_getD, List.getElem?_range hi]
  have key : (List.range (encBlocks s.inLen.toNat)).map (outBlock (encAdvance s)) =
      cbcEncBlocks (cipherE s.cfg.primitive (keyOperand s)) s.iv (blocksOf (pad (inBytes s s.inLen.toNat))) := by
    refine eq_cbcEncBlocks (by rw [hl', hn]) fun i hi => ?_
    rw [hn] at hi
    rw [hget i hi, encAdvance_blocks h i (by omega), blocksOf_getD (by rw [← blocksOf_length, hn]; exact hi),
      ← padBlock_eq s _ i hi]
    cases i with
    | zero => rfl
    | succ i => rw [if_neg (by omega), Nat.add_sub_cancel, hget i (by omega)]; rfl
  rw [cbcEnc, ← key, ← outBytes_eq_bytesOf (s := encAdvance s) (fun i hi => (hget i (hl' ▸ hi)).symm), hl']

theorem decAdvance_blocks {s : State} (h : DecryptInv s) :
    ∀ j < s.blkCnt.toNat + 1, outBlock (decAdvance s) j =
      xor8 (cipherD s.cfg.primitive (keyOperand s) (inBlock s j)) (decChainAt s j) := by
  have hst : (decAdvance s).outBuf = Memory.store s.outBuf (8 * s.blkCnt.toNat) (decPlainBlock s).toList := rfl
  intro j hj
  rcases Nat.lt_or_ge j s.blkCnt.toNat with hlt | hge
  · rw [outBlock_store_other hst rfl (by omega), h.blocks j hlt]
  · obtain rfl : j = s.blkCnt.toNat := by omega
    rw [outBlock_store_self hst, decPlainBlock, h.chain]

/-- A block step of DECRYPT that is not the last keeps the chain invariant. -/
theorem DecryptInv.advance {s : State} (h : DecryptInv s) (hl : s.blkCnt.toNat + 1 ≠ s.inLen.toNat / 8) :
    DecryptInv (decAdvance s) := by
  have hc := h.count
  have hb : (decAdvance s).blkCnt.toNat = s.blkCnt.toNat + 1 :=
    blkCnt_succ_toNat h.count (by have := s.inLen.isLt; omega)
  refine ⟨h.key_ok, h.iv_ok, h.length, h.range, ?_, ?_, ?_⟩
  · rw [hb]; change _ < s.inLen.toNat / 8; omega
  · rw [hb]; rfl
  · rw [hb]
    intro j hj
    rw [decAdvance_blocks h j hj]
    cases j <;> rfl

/-- After the last block step OUT_BUF holds the raw decrypted bytes (R168). -/
theorem DecryptInv.result {s : State} (h : DecryptInv s) (hl : s.blkCnt.toNat + 1 = s.inLen.toNat / 8) :
    outBytes (decAdvance s) s.inLen.toNat =
      cbcDecRaw s.cfg.primitive (keyOperand s) s.iv (inBytes s s.inLen.toNat) := by
  have hm := ((by simpa [ctLenOk] using h.length : 0 < s.inLen.toNat ∧ s.inLen.toNat % 8 = 0)).2
  have e8 : s.inLen.toNat = 8 * (s.inLen.toNat / 8) := by omega
  have hn : (blocksOf (inBytes s s.inLen.toNat)).length = s.inLen.toNat / 8 := by simp
  have hget : ∀ i < s.inLen.toNat / 8,
      ((List.range (s.inLen.toNat / 8)).map (outBlock (decAdvance s))).getD i Block.zero = outBlock (decAdvance s) i := by
    intro i hi; simp [List.getD_eq_getElem?_getD, List.getElem?_range hi]
  have key : (List.range (s.inLen.toNat / 8)).map (outBlock (decAdvance s)) =
      cbcDecBlocks (cipherD s.cfg.primitive (keyOperand s)) s.iv (blocksOf (inBytes s s.inLen.toNat)) := by
    refine eq_cbcDecBlocks (by simp) fun i hi => ?_
    rw [hn] at hi
    rw [hget i hi, decAdvance_blocks h i (by omega), blocksOf_getD (by rw [inBytes_length]; exact hi),
      ← inBlock_eq s hi]
    cases i with
    | zero => rfl
    | succ i =>
      rw [if_neg (by omega), Nat.add_sub_cancel, blocksOf_getD (by rw [inBytes_length]; omega),
        ← inBlock_eq s (by omega)]
      rfl
  have hfin := outBytes_eq_bytesOf (s := decAdvance s)
    (bs := (List.range (s.inLen.toNat / 8)).map (outBlock (decAdvance s))) fun i hi => (hget i (by simpa using hi)).symm
  rw [List.length_map, List.length_range, ← e8] at hfin
  rw [cbcDecRaw, ← key, hfin]

end Sys2Proof.Machine
end

