-- ==== Sys2Proof/Laws/Gate.lean ====
section
/-! SUPPORT. The gate in plain arithmetic, and what an accepted command becomes. -/

namespace Sys2Proof.Machine

theorem busy_of_run {s : State} (h : s.phase = .run) : s.busy = true := (busy_iff s).2 h

theorem busy_of_idle {s : State} (h : s.phase = .idle) : s.busy = false := (not_busy_iff s).2 h

theorem keyOk_iff (c : Config) (l : Word) : keyOk c l = true ↔ KeyLengthAccepted c l.toNat := by
  unfold keyOk KeyLengthAccepted
  cases c.keyPolicy <;> simp [and_assoc]

theorem ivOk_iff (l : Word) : ivOk l = true ↔ l.toNat = 8 := by simp [ivOk]

theorem ctLenOk_iff (l : Word) : ctLenOk l = true ↔ 0 < l.toNat ∧ l.toNat % 8 = 0 := by simp [ctLenOk]

theorem encRangeOk_iff (c : Config) (l : Word) : encRangeOk c l = true ↔ l.toNat < c.bufBytes := by simp [encRangeOk]

theorem decRangeOk_iff (c : Config) (l : Word) : decRangeOk c l = true ↔ l.toNat ≤ c.bufBytes := by simp [decRangeOk]

theorem firstFailure_eq_none_iff {l : List (Bool × Err)} : firstFailure l = none ↔ ∀ c ∈ l, c.1 = true := by
  induction l with
  | nil => simp [firstFailure]
  | cons c l ih => by_cases h : c.1 = true <;> simp [firstFailure, h, ih]

/-- The gate passes a command exactly under the plain conditions. -/
theorem gatePasses_iff (c : Op) (s : State) : firstFailure (gateChecks c s) = none ↔ GatePasses c s := by
  rw [firstFailure_eq_none_iff]
  cases c <;>
    simp [gateChecks, GatePasses, keyOk_iff, ivOk_iff, ctLenOk_iff, encRangeOk_iff, decRangeOk_iff]

/-- An operation's command on an idle block is its acceptance. -/
theorem exec_op {c : Op} {s : State} (h : s.phase = .idle) : exec c.instr s = .next (acceptOp c s) := by
  have hb := busy_of_idle h
  cases c <;> simp [exec, Op.instr, execEncrypt, execDecrypt, execPad, execUnpad, whenIdle, hb]

theorem acceptOp_of_passes {c : Op} {s : State} (h : GatePasses c s) : acceptOp c s = launch c (start s) := by
  rcases acceptOp_cases c s with ⟨e, he, -, -⟩ | ⟨-, h2⟩
  · rw [(gatePasses_iff c s).2 h] at he; cases he
  · exact h2

/-- Where the gate fails, the first failing check's error completes the command. -/
theorem acceptOp_of_fails {c : Op} {s : State} {e : Err} (h : firstFailure (gateChecks c s) = some e) :
    acceptOp c s = completeError e c.scrubs (start s) := by
  rcases acceptOp_cases c s with ⟨e', he, -, h2⟩ | ⟨h1, -⟩
  · rw [h] at he; cases he; exact h2
  · rw [h] at h1; cases h1

end Sys2Proof.Machine
end

