-- ==== Sys2Proof/Laws/PerInstr.lean ====
section
/-! SUPPORT. Per-instruction families: facts of an instruction as syntax, one lemma per constructor. -/

namespace Sys2Proof.Laws.WordRoundTrip

/-- Decoding the word of a well-formed command gives the command. -/
def Statement (i : Instr) : Prop := i.wf = true → decode (encode i) = i

theorem nop : Statement .nop := fun _ => by decide
theorem encrypt : Statement .encrypt := fun _ => by decide
theorem decrypt : Statement .decrypt := fun _ => by decide
theorem clear : Statement .clear := fun _ => by decide
theorem pad : Statement .pad := fun _ => by decide
theorem unpad : Statement .unpad := fun _ => by decide
theorem bad (w : Word) : Statement (.bad w) := fun h => decode_of_ge ((bad_wf_iff w).1 h)

end Sys2Proof.Laws.WordRoundTrip
end

