-- ==== Sys2Proof/Laws/Port.lean ====
section
/-! SUPPORT. The number on the key wires, byte by byte. -/

namespace Sys2Proof.Machine

theorem bigEndian_append (bs : List Byte) (b : Byte) : bigEndian (bs ++ [b]) = 256 * bigEndian bs + b.toNat := by
  simp [bigEndian]

/-- Byte `i` of a list stands `bs.length - 1 - i` bytes above the least significant one. -/
theorem bigEndian_byte (bs : List Byte) (i : Nat) (h : i < bs.length) :
    BitVec.ofNat 8 (bigEndian bs / 256 ^ (bs.length - 1 - i)) = bs.getD i 0 := by
  induction bs using List.reverseRecOn with
  | nil => exact absurd h (Nat.not_lt_zero i)
  | append_singleton bs b ih =>
    have hb := b.isLt
    rw [bigEndian_append, List.length_append, List.length_singleton] at *
    rcases Nat.lt_or_ge i bs.length with hi | hi
    · have e : bs.length + 1 - 1 - i = (bs.length - 1 - i) + 1 := by omega
      rw [e, Nat.pow_succ', ← Nat.div_div_eq_div_mul, show (256 * bigEndian bs + b.toNat) / 256 = bigEndian bs by omega,
        ih hi]
      simp [List.getD_eq_getElem?_getD, List.getElem?_append_left hi, hi]
    · obtain rfl : i = bs.length := by omega
      apply BitVec.eq_of_toNat_eq
      simp
      omega

/-- The key wires carry byte `i` of KEY at its place, where KEY has its full length (42_cbc.md R165). -/
theorem keyWires_byte (bs : List Byte) (n i : Nat) (hn : bs.length = n) (h : i < n) :
    (BitVec.ofNat (8 * n) (bigEndian bs)).extractLsb' (8 * (n - 1 - i)) 8 = bs.getD i 0 := by
  subst hn
  rw [← bigEndian_byte bs i h]
  apply BitVec.eq_of_getLsbD_eq
  intro j hj
  rw [show (256 : Nat) = 2 ^ 8 from rfl, ← Nat.pow_mul]
  have hlt : 8 * (bs.length - 1 - i) + j < 8 * bs.length := by omega
  rw [BitVec.getLsbD_extractLsb', BitVec.getLsbD_ofNat, BitVec.getLsbD_ofNat, Nat.testBit_div_two_pow, Nat.add_comm j]
  simp [hj, hlt]

end Sys2Proof.Machine
end

