-- ==== Sys2Proof/Laws/Step.lean ====
section
/-! SUPPORT. One step: whose turn, what it does, and running several of them. -/

namespace Sys2Proof.Machine

@[simp] theorem nextTurn_cons {s : State} {k : Turn} {ks : List Turn} (h : s.sched = k :: ks) : nextTurn s = k := by
  simp [nextTurn, h]

theorem nextTurn_idle {s : State} (h : s.sched = []) (hi : s.phase = .idle) : nextTurn s = .host := by
  simp [nextTurn, h, busy_of_idle hi]

theorem nextTurn_run {s : State} (h : s.sched = []) (hi : s.phase = .run) : nextTurn s = .engine := by
  simp [nextTurn, h, busy_of_run hi]

theorem afterTurn_of_nil {s : State} (h : s.sched = []) : afterTurn s = s := by
  unfold afterTurn; cases s; simp_all

/-- A host turn with `rst_n` released is the host's step. -/
theorem step_host {s : State} (hr : s.rstAsserted = false) (hn : nextTurn s = .host) :
    step s = hostStep (afterTurn s) := by
  simp [step, hn, takeTurn, hr]

/-- An engine turn with `rst_n` released while PHASE = RUN is the engine's step. -/
theorem step_engine {s : State} (hr : s.rstAsserted = false) (hn : nextTurn s = .engine) (hp : s.phase = .run) :
    step s = engineStep (afterTurn s) := by
  have : (afterTurn s).busy = true := busy_of_run hp
  simp [step, hn, takeTurn, hr, this]

/-- With nothing scheduled a running operation is stepped by the engine. -/
theorem step_run {s : State} (hr : s.rstAsserted = false) (hs : s.sched = []) (hp : s.phase = .run) :
    step s = engineStep s := by
  rw [step_engine hr (nextTurn_run hs hp) hp, afterTurn_of_nil hs]

/-- With nothing scheduled an idle block is stepped by the host. -/
theorem step_idle {s : State} (hr : s.rstAsserted = false) (hs : s.sched = []) (hp : s.phase = .idle) :
    step s = hostStep s := by
  rw [step_host hr (nextTurn_idle hs hp), afterTurn_of_nil hs]

@[simp] theorem runSteps_zero (s : State) : runSteps 0 s = .next s := rfl

theorem run_succ (m : Host.Core) {s t : m.State} (n : Nat) (h : m.step s = .next t) : m.run (n + 1) s = m.run n t := by
  simp only [Host.Core.run, h]

theorem runSteps_succ {s t : State} (n : Nat) (h : step s = .next t) : runSteps (n + 1) s = runSteps n t :=
  run_succ Sys2Proof.core n h

theorem runSteps_one {s t : State} (h : step s = .next t) : runSteps 1 s = .next t := by
  rw [runSteps_succ 0 h, runSteps_zero]

theorem offsetOf_base (c : Config) (a : Nat) (h : a < 0x40000) : offsetOf c (c.base + a) = some a := by
  unfold offsetOf apertureBytes
  rw [if_pos (by omega)]
  simp

theorem eq_base_of_offsetOf {c : Config} {addr a : Nat} (h : offsetOf c addr = some a) :
    addr = c.base + a ∧ a < 0x40000 := by
  unfold offsetOf apertureBytes at h
  split at h
  · cases h; omega
  · cases h

theorem offsetOf_outside (c : Config) (addr : Nat) (h : addr < c.base ∨ c.base + 0x40000 ≤ addr) :
    offsetOf c addr = none := by
  unfold offsetOf apertureBytes
  rw [if_neg (by omega)]

/-- A read does not look at the host's statements, the schedule or the last response. -/
theorem memRead_pending (s : State) (l : List HostStmt) (ts : List Turn) (r : Option BusResp) (a n : Nat) :
    memRead { s with host := l, sched := ts, resp := r } a n = memRead s a n := by
  have h : ∀ k, readBytes { s with host := l, sched := ts, resp := r } a k = readBytes s a k := by
    intro k
    induction k with
    | zero => rfl
    | succ k ih => rw [readBytes, readBytes, ih]; rfl
  unfold memRead
  rw [h]

/-- A host write inside the aperture is `memWrite` at its offset. -/
theorem hostStep_write {s : State} {a n : Nat} {v : Word} {rest : List HostStmt} (ha : a < 0x40000)
    (h : s.host = .write (s.cfg.base + a) n v :: rest) : hostStep s = memWrite { s with host := rest } a n v := by
  unfold hostStep
  rw [h]
  simp only [busWrite, offsetOf_base _ a ha]

/-- A host read inside the aperture records what `memRead` answers. -/
theorem hostStep_read {s : State} {a n : Nat} {rest : List HostStmt} (ha : a < 0x40000)
    (h : s.host = .read (s.cfg.base + a) n :: rest) :
    hostStep s = .next { s with host := rest, resp := some (memRead s a n) } := by
  unfold hostStep
  rw [h]
  simp only [busRead, offsetOf_base _ a ha]
  rw [← memRead_pending s rest s.sched s.resp a n]

/-- A poll inside the aperture reads once, and stays where its condition does not hold. -/
theorem hostStep_poll {s : State} {a : Nat} {mask v : Word} {rest : List HostStmt} (ha : a < 0x40000)
    (h : s.host = .poll (s.cfg.base + a) mask v :: rest) :
    hostStep s = .next
      { s with
        host := if (memRead s a 4).data &&& mask = v then rest else s.host
        resp := some (memRead s a 4) } := by
  unfold hostStep
  rw [h]
  simp only [busRead, offsetOf_base _ a ha, pollDone, decide_eq_true_eq]
  split <;> simp [h]

/-- An access outside the aperture is taken off the list and leaves no response (log entry 13). -/
theorem hostStep_outside {s : State} {addr n : Nat} {mask v : Word} {rest : List HostStmt}
    (ha : addr < s.cfg.base ∨ s.cfg.base + 0x40000 ≤ addr)
    (h : s.host = .write addr n v :: rest ∨ s.host = .read addr n :: rest ∨ s.host = .poll addr mask v :: rest) :
    hostStep s = .next { s with host := rest, resp := none } := by
  unfold hostStep
  rcases h with h | h | h <;> rw [h] <;> simp [busWrite, busRead, offsetOf_outside _ _ ha, pollDone]

/-- A host turn without a statement does nothing. -/
theorem hostStep_nil {s : State} (h : s.host = []) : hostStep s = .next s := by
  unfold hostStep
  rw [h]

/-- The register an offset names is at that offset. -/
theorem regAt_offset {r : Nat} {g : Reg} (h : regAt r = some g) :
    r = match g with
      | .id => 0x000 | .caps => 0x004 | .bufsz => 0x008 | .ctrl => 0x00C | .cmd => 0x010 | .status => 0x014
      | .keyLen => 0x018 | .ivLen => 0x01C | .inLen => 0x020 | .outLen => 0x024 | .blkCnt => 0x028 := by
  unfold regAt at h
  repeat' split at h
  all_goals first | (cases h; assumption) | cases h

/-- From 0x02C upward every register offset is reserved. -/
theorem regAt_reserved {r : Nat} (h : 0x02C ≤ r) : regAt r = none := by
  cases hg : regAt r with
  | none => rfl
  | some g => have e := regAt_offset hg; cases g <;> simp only at e <;> omega

theorem regionOf_register (c : Config) {o : Nat} (h : o < 0x100) : regionOf c o = .register := by
  unfold regionOf; rw [if_pos h]

theorem regionOf_key (c : Config) {o : Nat} (h : 0x100 ≤ o) (h' : o < 0x200) (hk : o - 0x100 < c.keyMaxBytes) :
    regionOf c o = .key (o - 0x100) := by
  unfold regionOf; rw [if_neg (by omega), if_pos h', if_pos hk]

theorem regionOf_iv (c : Config) {o : Nat} (h : 0x200 ≤ o) (h' : o < 0x208) : regionOf c o = .iv (o - 0x200) := by
  unfold regionOf; rw [if_neg (by omega), if_neg (by omega), if_pos h']

theorem regionOf_input (c : Config) {o : Nat} (h : 0x10000 ≤ o) (h' : o < 0x20000) (hb : o - 0x10000 < c.bufBytes) :
    regionOf c o = .input (o - 0x10000) := by
  unfold regionOf; rw [if_neg (by omega), if_neg (by omega), if_neg (by omega), if_neg (by omega), if_pos h', if_pos hb]

theorem regionOf_output (c : Config) {o : Nat} (h : 0x20000 ≤ o) (h' : o < 0x30000) (hb : o - 0x20000 < c.bufBytes) :
    regionOf c o = .output (o - 0x20000) := by
  unfold regionOf
  rw [if_neg (by omega), if_neg (by omega), if_neg (by omega), if_neg (by omega), if_neg (by omega), if_pos h', if_pos hb]

/-- The reserved regions and the unimplemented window bytes (R60). -/
theorem regionOf_reserved (c : Config) {o : Nat}
    (h : 0x100 ≤ o ∧ o < 0x200 ∧ c.keyMaxBytes ≤ o - 0x100 ∨ 0x208 ≤ o ∧ o < 0x10000 ∨
      0x10000 ≤ o ∧ o < 0x20000 ∧ c.bufBytes ≤ o - 0x10000 ∨ 0x20000 ≤ o ∧ o < 0x30000 ∧ c.bufBytes ≤ o - 0x20000 ∨
      0x30000 ≤ o) : regionOf c o = .reserved := by
  rcases h with h | h | h | h | h <;> unfold regionOf
  · rw [if_neg (by omega), if_pos (by omega), if_neg (by omega)]
  · rw [if_neg (by omega), if_neg (by omega), if_neg (by omega), if_pos (by omega)]
  · rw [if_neg (by omega), if_neg (by omega), if_neg (by omega), if_neg (by omega), if_pos (by omega), if_neg (by omega)]
  · rw [if_neg (by omega), if_neg (by omega), if_neg (by omega), if_neg (by omega), if_neg (by omega), if_pos (by omega),
      if_neg (by omega)]
  · rw [if_neg (by omega), if_neg (by omega), if_neg (by omega), if_neg (by omega), if_neg (by omega), if_neg (by omega)]

/-- A well-formed access, in plain arithmetic (R63, R64). -/
theorem malformed_eq_false_iff (a n : Nat) :
    malformed a n = false ↔ (n = 1 ∨ n = 2 ∨ n = 4) ∧ a % n = 0 ∧ (0x100 ≤ a ∨ n = 4) := by
  simp only [malformed, Bool.or_eq_false_iff, Bool.not_eq_false', Bool.or_eq_true, decide_eq_true_eq,
    decide_eq_false_iff_not, Bool.and_eq_false_iff, not_not]
  omega

/-- All bytes of a well-formed access outside the register region lie in one region of the map (R63). -/
theorem access_in_region {a n j : Nat} (h : malformed a n = false) (hj : j < n) :
    a / 0x100 = (a + j) / 0x100 ∧ a / 8 = (a + j) / 8 := by
  obtain ⟨hn, ha, -⟩ := (malformed_eq_false_iff a n).1 h
  rcases hn with rfl | rfl | rfl <;> omega

/-- The addresses R67 calls droppable. -/
theorem droppable_iff (c : Config) (a : Nat) :
    droppable c a = true ↔
      (0x100 ≤ a ∧ a < 0x200 ∧ a - 0x100 < c.keyMaxBytes) ∨ (0x200 ≤ a ∧ a < 0x208) ∨
      (0x10000 ≤ a ∧ a < 0x20000 ∧ a - 0x10000 < c.bufBytes) := by
  unfold droppable regionOf
  split_ifs <;> simp only [true_iff, false_iff] <;> omega

/-- A byte that is not droppable is not stored to. -/
theorem writeByte_of_not_droppable {s : State} {o : Nat} (b : Byte) (h : droppable s.cfg o = false) :
    writeByte s o b = s := by
  unfold droppable at h
  unfold writeByte
  split <;> simp_all

/-- A write that R67 neither drops nor lets reach a window byte changes nothing. -/
theorem writeBytes_of_not_droppable {s : State} {a n : Nat} (v : Word) (hd : droppable s.cfg a = false)
    (ha : 0x100 ≤ a) (hm : malformed a n = false) : writeBytes s a v n = s := by
  have key : ∀ k ≤ n, writeBytes s a v k = s := by
    intro k hk
    induction k with
    | zero => rfl
    | succ k ih =>
      rw [writeBytes, ih (by omega)]
      refine writeByte_of_not_droppable _ ?_
      obtain ⟨h1, h2⟩ := access_in_region hm (show k < n by omega)
      rw [← Bool.not_eq_true, droppable_iff] at hd ⊢
      omega
  exact key n (Nat.le_refl n)

/-- What `MemWrite` does, with the access that does it. -/
theorem memWrite_cases {s t : State} {a n : Nat} {v : Word} (h : memWrite s a n v = .next t) :
    ∃ r, t = { s with resp := r } ∨
      (a = 0x00C ∧ n = 4 ∧ t = ctrlWrite v { s with resp := r }) ∨
      (a = 0x010 ∧ n = 4 ∧ exec (decode v) { s with resp := r } = .next t) ∨
      (a = 0x014 ∧ n = 4 ∧ t = statusWrite v { s with resp := r }) ∨
      (s.phase = .run ∧ t = { s with resp := r, wbusy := true }) ∨
      (s.phase = .idle ∧ t =
        { s with
          resp := r, keyLen := t.keyLen, ivLen := t.ivLen, inLen := t.inLen
          key := t.key, iv := t.iv, inBuf := t.inBuf }) := by
  have hlen : ∀ (set : State → State) (u : State),
      (∀ u, set u = { u with keyLen := (set u).keyLen, ivLen := (set u).ivLen, inLen := (set u).inLen }) →
      lenWrite set u = t →
      (u.phase = .run ∧ t = { u with wbusy := true }) ∨
      (u.phase = .idle ∧ t =
        { u with
          keyLen := t.keyLen, ivLen := t.ivLen, inLen := t.inLen
          key := t.key, iv := t.iv, inBuf := t.inBuf }) := by
    intro set u hset e
    rcases lenWrite_cases set u with ⟨hp, e'⟩ | ⟨hp, e'⟩
    · exact .inl ⟨hp, e ▸ e'⟩
    · refine .inr ⟨hp, ?_⟩
      rw [← e, e', hset u]
  unfold memWrite at h
  split at h
  · exact ⟨_, .inl (Host.Outcome.next.inj h).symm⟩
  · rename_i hm
    refine ⟨some { error := false, data := 0 }, ?_⟩
    simp only at h
    split at h
    · rename_i ha
      have h4 : n = 4 := by
        obtain ⟨-, -, h⟩ := (malformed_eq_false_iff a n).1 (by simpa using hm)
        omega
      unfold registerWrite at h
      split at h
      · exact .inr (.inl ⟨regAt_offset ‹_›, h4, (Host.Outcome.next.inj h).symm⟩)
      · exact .inr (.inr (.inl ⟨regAt_offset ‹_›, h4, h⟩))
      · exact .inr (.inr (.inr (.inl ⟨regAt_offset ‹_›, h4, (Host.Outcome.next.inj h).symm⟩)))
      · exact .inr (.inr (.inr (.inr (hlen _ _ (fun _ => rfl) (Host.Outcome.next.inj h)))))
      · exact .inr (.inr (.inr (.inr (hlen _ _ (fun _ => rfl) (Host.Outcome.next.inj h)))))
      · exact .inr (.inr (.inr (.inr (hlen _ _ (fun _ => rfl) (Host.Outcome.next.inj h)))))
      all_goals exact .inl (Host.Outcome.next.inj h).symm
    · rename_i ha
      split at h
      · rename_i hd
        rw [Bool.and_eq_true] at hd
        exact .inr (.inr (.inr (.inr (.inl ⟨(busy_iff s).1 hd.2, (Host.Outcome.next.inj h).symm⟩))))
      · rename_i hd
        rcases Bool.eq_false_or_eq_true s.busy with hb | hb
        · refine .inl ?_
          rw [writeBytes_of_not_droppable v (by simpa [hb] using hd) (by omega) (by simpa using hm)] at h
          exact (Host.Outcome.next.inj h).symm
        · refine .inr (.inr (.inr (.inr (.inr ⟨(not_busy_iff s).1 hb, ?_⟩))))
          have e := writeBytes_frame { s with resp := some { error := false, data := 0 } } a v n
          rw [Host.Outcome.next.inj h] at e
          rw [e]

/-- What a host step does, with the statement that does it. -/
theorem hostStep_cases {s t : State} (h : hostStep s = .next t) :
    ∃ l r, t = { s with host := l, resp := r } ∨
      ∃ a n v, s.host = .write (s.cfg.base + a) n v :: l ∧ a < 0x40000 ∧
        memWrite { s with host := l } a n v = .next t := by
  have hread : ∀ (u : State) addr n, ∃ r, busRead u addr n = { u with resp := r } := by
    intro u addr n
    unfold busRead
    split <;> exact ⟨_, rfl⟩
  unfold hostStep at h
  split at h
  · exact ⟨s.host, s.resp, .inl (Host.Outcome.next.inj h).symm⟩
  · rename_i addr n rest _
    obtain ⟨r, hr⟩ := hread { s with host := rest } addr n
    exact ⟨rest, r, .inl (hr ▸ (Host.Outcome.next.inj h).symm)⟩
  · rename_i addr n v rest hh
    unfold busWrite at h
    split at h
    · rename_i a ha
      obtain ⟨e, hlt⟩ := eq_base_of_offsetOf ha
      exact ⟨rest, s.resp, .inr ⟨a, n, v, by rw [hh, e], hlt, h⟩⟩
    · exact ⟨rest, none, .inl (Host.Outcome.next.inj h).symm⟩
  · rename_i addr mask v rest _
    obtain ⟨r, hr⟩ := hread s addr 4
    simp only [hr] at h
    split at h
    · exact ⟨rest, r, .inl (Host.Outcome.next.inj h).symm⟩
    · exact ⟨s.host, r, .inl (Host.Outcome.next.inj h).symm⟩

end Sys2Proof.Machine
end

