-- ==== Sys2Proof/Laws/Window.lean ====
section
/-! SUPPORT. Bytes written to the aperture: where they land and what stays. -/

namespace Sys2Proof.Machine

theorem getD_set_byte (l : List Byte) (i k : Nat) (x : Byte) (h : i < l.length) : (l.set i x).getD k 0 = if k = i then x else l.getD k 0 := by
  by_cases hm : k = i
  · subst hm; simp [h]
  · simp [List.getD_eq_getElem?_getD, hm, Ne.symm hm]


/-- Two offsets that reach the same byte of the key, IV or input window are the same offset (R60). -/
theorem regionOf_inj {c : Config} {o p : Nat} (h : regionOf c o = regionOf c p) :
    (∀ i, regionOf c o = .key i → o = p) ∧ (∀ i, regionOf c o = .iv i → o = p) ∧ (∀ i, regionOf c o = .input i → o = p) := by
  refine ⟨fun i ho => ?_, fun i ho => ?_, fun i ho => ?_⟩
  · rw [((regionOf_bound c o).1 i ho).2, ((regionOf_bound c p).1 i (h ▸ ho)).2]
  · rw [((regionOf_bound c o).2.1 i ho).2, ((regionOf_bound c p).2.1 i (h ▸ ho)).2]
  · rw [((regionOf_bound c o).2.2.1 i ho).2, ((regionOf_bound c p).2.2.1 i (h ▸ ho)).2]

/-- Everything one byte written to the aperture does (R70 to R74): the byte it lands on, and that nothing else changes. -/
theorem writeByte_spec (s : State) (o : Nat) (b : Byte) (hk : s.key.length = s.cfg.keyMaxBytes) :
   (∀ p, p ≠ o → readByte (writeByte s o b) p = readByte s p) ∧
   (∀ i, regionOf s.cfg o = .key i → (writeByte s o b).key.getD i 0 = b) ∧
   (∀ i, regionOf s.cfg o = .iv i → (writeByte s o b).iv.get i = b) ∧
   (∀ i, regionOf s.cfg o = .input i → inByte (writeByte s o b) i = b) ∧
   (∀ i, regionOf s.cfg o ≠ .key i → (writeByte s o b).key.getD i 0 = s.key.getD i 0) ∧
   (∀ i, regionOf s.cfg o ≠ .iv i → i < 8 → (writeByte s o b).iv.get i = s.iv.get i) ∧
   (∀ i, regionOf s.cfg o ≠ .input i → inByte (writeByte s o b) i = inByte s i) := by
  have rb : ∀ (t : State) p, t.cfg = s.cfg → (∀ r, regValue t r = regValue s r) →
      (∀ i, regionOf s.cfg p = .iv i → t.iv.get i = s.iv.get i) →
      (∀ i, regionOf s.cfg p = .input i → inByte t i = inByte s i) → t.outValid = s.outValid → t.outLen = s.outLen →
      (∀ i, outByte t i = outByte s i) → readByte t p = readByte s p := by
    intro t p h1 h2 h3 h4 h5 h6 h7
    unfold readByte; rw [h1]
    cases hx : regionOf s.cfg p with
    | register => simp only [h2]
    | key i => rfl
    | iv i => exact h3 i hx
    | input i => exact h4 i hx
    | output i => simp only [h5, h6, h7]
    | reserved => rfl
  have rv : ∀ t : State, t = { s with key := t.key, iv := t.iv, inBuf := t.inBuf } → ∀ r, regValue t r = regValue s r := by
    intro t ht r
    rw [ht]; unfold regValue
    cases regAt r with
    | none => rfl
    | some g => cases g <;> rfl
  unfold writeByte
  cases hx : regionOf s.cfg o with
  | register => exact ⟨fun _ _ => rfl, by simp, by simp, by simp, by simp, by simp, by simp⟩
  | output i => exact ⟨fun _ _ => rfl, by simp, by simp, by simp, by simp, by simp, by simp⟩
  | reserved => exact ⟨fun _ _ => rfl, by simp, by simp, by simp, by simp, by simp, by simp⟩
  | key i =>
    have hb := ((regionOf_bound s.cfg o).1 i hx)
    refine ⟨fun p hp => rb _ p rfl (rv _ rfl) (fun _ _ => rfl) (fun _ _ => rfl) rfl rfl (fun _ => rfl), ?_, by simp, by simp, ?_, by simp, fun _ _ => rfl⟩
    · intro k hk'; simp only [Region.key.injEq] at hk'; subst hk'
      rw [getD_set_byte _ _ _ _ (by rw [hk]; exact hb.1), if_pos rfl]
    · intro k hk'; simp only [ne_eq, Region.key.injEq] at hk'
      change (s.key.set i b).getD k 0 = _
      rw [getD_set_byte _ _ _ _ (by rw [hk]; exact hb.1), if_neg (Ne.symm hk')]
  | iv i =>
    have hb := ((regionOf_bound s.cfg o).2.1 i hx)
    refine ⟨fun p hp => rb _ p rfl (rv _ rfl) (fun k hk' => ?_) (fun _ _ => rfl) rfl rfl (fun _ => rfl), by simp, ?_, by simp, by simp, ?_, fun _ _ => rfl⟩
    · have : k ≠ i := by
        rintro rfl
        exact hp ((regionOf_inj (hk'.trans hx.symm)).2.1 k hk')
      simp only [Block.get_set _ _ _ _ hb.1, if_neg this]
    · intro k hk'; simp only [Region.iv.injEq] at hk'; subst hk'
      simp only [Block.get_set _ _ _ _ hb.1, if_true]
    · intro k hk' _; simp only [ne_eq, Region.iv.injEq] at hk'
      simp only [Block.get_set _ _ _ _ hb.1, if_neg (Ne.symm hk')]
  | input i =>
    have hi : ∀ k, inByte { s with inBuf := Memory.store s.inBuf i [b] } k = if k = i then b else inByte s k := by
      intro k
      unfold inByte
      rcases Nat.lt_trichotomy k i with h | h | h
      · simp only [find_store_outside (m := s.inBuf) (a := i) (bs := [b]) (.inl h), if_neg (Nat.ne_of_lt h)]
      · subst h
        have := find_store_inside (m := s.inBuf) (a := k) (bs := [b]) (j := 0) (by simp)
        simp only [Nat.add_zero] at this
        simp only [this]; simp
      · simp only [find_store_outside (m := s.inBuf) (a := i) (bs := [b]) (.inr (by simp; omega)), if_neg (Nat.ne_of_gt h)]
    refine ⟨fun p hp => rb _ p rfl (rv _ rfl) (fun _ _ => rfl) (fun k hk' => ?_) rfl rfl (fun _ => rfl), by simp, by simp, ?_, by simp, by simp, ?_⟩
    · have : k ≠ i := by
        rintro rfl
        exact hp ((regionOf_inj (hk'.trans hx.symm)).2.2 k hk')
      simp only; rw [hi, if_neg this]
    · intro k hk'; simp only [Region.input.injEq] at hk'; subst hk'
      simp only; rw [hi, if_pos rfl]
    · intro k hk'; simp only [ne_eq, Region.input.injEq] at hk'
      simp only; rw [hi, if_neg (Ne.symm hk')]

end Sys2Proof.Machine
end

