-- ==== Sys2Proof/Tests/Slice0.lean ====
section
/-! SUPPORT. Tests of the model against the worked vectors of spec 95_test_vectors.md, checks of the well-formedness tests,
and a witness for the hypotheses of every statement of Certificates/Slice0/Obligations.lean. -/

namespace Sys2Proof.Machine

/-! ## The small states the tests use -/

/-- A small build with the spec's test primitive (95_test_vectors.md section 0). -/
def tCfg : Config :=
  { Config.default with primitive := .testVectors, keyMaxBytes := 16, bufBytes := 24, base := 0x40000, irqLine := 3 }

/-- K, IV of 95_test_vectors.md section 0. -/
def tKey : List Byte := [0x00, 0x01, 0x02, 0x03, 0x04, 0x05, 0x06, 0x07, 0x80, 0x90, 0xA0, 0xB0, 0xC0, 0xD0, 0xE0, 0xF0]
def tIv : Block := ⟨0xA0, 0xA1, 0xA2, 0xA3, 0xA4, 0xA5, 0xA6, 0xA7⟩

/-- An idle block with K, IV and an input loaded. -/
def tIdle (keyLen ivLen : Word) (input : List Byte) : State :=
  { State.resetOf tCfg with
    key := tKey, keyLen := keyLen, iv := tIv, ivLen := ivLen
    inBuf := Memory.cells 0 input, inLen := BitVec.ofNat 32 input.length }

/-- An idle block with IN_LEN set and no input byte written. -/
def tLen (keyLen ivLen inLen : Word) : State := { tIdle keyLen ivLen [] with inLen := inLen }

/-- The state a step answered. -/
def tNext (o : Host.Outcome State Fault Refusal) : State :=
  match o with
  | .next s => s
  | .fault _ | .refused _ => State.reset

/-- A state in which an operation runs: the command, accepted. -/
def tRun (i : Instr) (s : State) : State := tNext (exec i s)

/-- A command and `n` engine steps. -/
def tDone (i : Instr) (n : Nat) (s : State) : State := tNext (runSteps n (tRun i s))

def abc : List Byte := [0x41, 0x42, 0x43]
/-- Vector E2's ciphertext, E5's plaintext and ciphertext (95_test_vectors.md section 2.2). -/
def e2 : List Byte := [0x72, 0x43, 0x15, 0x65, 0x75, 0x45, 0x55, 0x61]
def p5 : List Byte := [0x30, 0x31, 0x32, 0x33, 0x34, 0x35, 0x36, 0x37, 0x38]
def e5 : List Byte := [0x01, 0x32, 0x23, 0x54, 0x45, 0x76, 0x67, 0x10, 0xA4, 0x86, 0xE0, 0x86, 0xA4, 0x86, 0xE0, 0xB9]

/-! ## Well-formedness: one ill-formed term for each check -/

theorem test_wf_bad_in_table : (Instr.bad 0).wf = false := by decide
theorem test_wf_bad_last_defined : (Instr.bad 5).wf = false := by decide
theorem test_wf_bad_op : (Instr.bad 6).wf = true := by decide
theorem test_wf_bad_rsvd : (Instr.bad 0x10).wf = true := by decide
theorem test_wf_cfg_key_multiple : ({ Config.default with keyMaxBytes := 20 } : Config).wf = false := by decide
theorem test_wf_cfg_key_low : ({ Config.default with keyMaxBytes := 8 } : Config).wf = false := by decide
theorem test_wf_cfg_key_high : ({ Config.default with keyMaxBytes := 264 } : Config).wf = false := by decide
theorem test_wf_cfg_buf_multiple : ({ Config.default with bufBytes := 12 } : Config).wf = false := by decide
theorem test_wf_cfg_buf_low : ({ Config.default with bufBytes := 0 } : Config).wf = false := by decide
theorem test_wf_cfg_buf_high : ({ Config.default with bufBytes := 65544 } : Config).wf = false := by decide
theorem test_wf_cfg_base : ({ Config.default with base := 0x20000 } : Config).wf = false := by decide
theorem test_wf_cfg_test : tCfg.wf = true := by decide

/-! ## Decoding: words written out from R91 and R92 (RSVD in bits 31..4, OP in bits 3..0) -/

theorem test_decode_nop : decode (0#28 ++ 0b0000#4) = .nop := by decide
theorem test_decode_encrypt : decode (0#28 ++ 0b0001#4) = .encrypt := by decide
theorem test_decode_decrypt : decode (0#28 ++ 0b0010#4) = .decrypt := by decide
theorem test_decode_clear : decode (0#28 ++ 0b0011#4) = .clear := by decide
theorem test_decode_pad : decode (0#28 ++ 0b0100#4) = .pad := by decide
theorem test_decode_unpad : decode (0#28 ++ 0b0101#4) = .unpad := by decide
theorem test_decode_bad_op : decode (0#28 ++ 0b0110#4) = .bad 6 := by decide
theorem test_decode_bad_rsvd : decode (1#28 ++ 0b0001#4) = .bad 0x11 := by decide
/-- The lowest byte stands at the lowest address (20_memory.md R62). -/
theorem test_decode_bytes : decodeBytes [0x04, 0x00, 0x00, 0x00] = .ok (.pad, []) := by rfl
theorem test_decode_bytes_order : decodeBytes [0x00, 0x00, 0x00, 0x04] = .ok (.bad 0x04000000, []) := by rfl
/-- A 2-byte write to CMD presents no command (30_encoding.md R96). -/
theorem test_decode_narrow : decodeBytes [0x01, 0x00] = .error .narrow := by rfl

/-! ## The primitive and one step of each command, from 95_test_vectors.md -/

theorem test_primitive_encrypt :
    testEncrypt tKey ⟨0xE1, 0xE3, 0xE1, 0xA6, 0xA1, 0xA0, 0xA3, 0xA2⟩ =
      ⟨0x72, 0x43, 0x15, 0x65, 0x75, 0x45, 0x55, 0x61⟩ := by decide
theorem test_primitive_decrypt : testDecrypt tKey Block.zero = ⟨0x80, 0x91, 0xA2, 0xB3, 0xC4, 0xD5, 0xE6, 0xF7⟩ := by
  decide

/-- Vector E2: the one block step of ENCRYPT. -/
theorem test_encrypt_e2 : outBytes (tDone .encrypt 1 (tIdle 16 8 abc)) 8 = e2 := by decide
theorem test_encrypt_status : statusWord (tDone .encrypt 1 (tIdle 16 8 abc)) = 0x06 := by decide
/-- Vectors D1 and D6. -/
theorem test_decrypt_d1 : outBytes (tDone .decrypt 1 (tIdle 16 8 e2)) 3 = abc := by decide
theorem test_decrypt_d6 : statusWord (tDone .decrypt 1 (tIdle 16 8 [0, 0, 0, 0, 0, 0, 0, 0])) = 0x42 := by decide
/-- Scenarios S1 and S2. -/
theorem test_pad_s1 : outBytes (tDone .pad 1 (tIdle 0 0 abc)) 8 = [0x41, 0x42, 0x43, 5, 5, 5, 5, 5] := by decide
theorem test_pad_range : statusWord (tRun .pad (tLen 0 0 24)) = 0x52 := by decide
theorem test_unpad_s2 : (tDone .unpad 1 (tIdle 0 0 [0x41, 0x42, 0x43, 5, 5, 5, 5, 5])).outLen = 3 := by decide
/-- Table U: trailing bytes that disagree are caught by the hardened check only. -/
theorem test_unpad_hardened : unpad true [0x41, 0x42, 0x43, 4, 5, 5, 5, 5] = none := by decide
theorem test_unpad_last_byte : unpad false [0x41, 0x42, 0x43, 4, 5, 5, 5, 5] = some abc := by decide
theorem test_clear_idle : statusWord (tRun .clear (tDone .encrypt 1 (tIdle 16 8 abc))) = 0 := by decide
theorem test_clear_busy : statusWord (tRun .clear (tRun .encrypt (tIdle 16 8 abc))) = 0x201 := by decide
theorem test_nop_busy : statusWord (tRun .nop (tRun .encrypt (tIdle 16 8 abc))) = 0x01 := by decide
theorem test_bad_idle : statusWord (tRun (.bad 0x11) (tIdle 16 8 abc)) = 0x62 := by decide
theorem test_bad_keeps_key : (tRun (.bad 0x11) (tIdle 16 8 abc)).keyLen = 16 := by decide
/-- Table G3: the order of the checks. -/
theorem test_gate_key_first : statusWord (tRun .decrypt (tLen 15 7 12)) = 0x12 := by decide
theorem test_gate_length_before_range : statusWord (tRun .decrypt (tLen 16 8 28)) = 0x32 := by decide

/-! ## The bus, from 95_test_vectors.md section 2.6 and 2.7 -/

theorem test_read_id : memRead State.reset 0 4 = { error := false, data := 0x43424331 } := by decide
theorem test_read_caps : memRead State.reset 4 4 = { error := false, data := 0x00200308 } := by decide
theorem test_read_narrow : memRead State.reset 0 1 = { error := true, data := 0 } := by decide
theorem test_key_window_reads_zero : memRead (tIdle 16 8 abc) 0x100 4 = { error := false, data := 0 } := by decide
theorem test_iv_byte : memRead (tIdle 16 8 abc) 0x201 1 = { error := false, data := 0xA1 } := by decide
theorem test_half_write : memRead (tNext (memWrite (tIdle 16 8 [0x11, 0x22]) 0x10002 2 0xBEEF)) 0x10000 4 =
    { error := false, data := 0xBEEF2211 } := by decide
theorem test_output_gate : memRead (tDone .unpad 1 (tIdle 0 0 [0x41, 0x42, 0x43, 5, 5, 5, 5, 5])) 0x20000 4 =
    { error := false, data := 0x00434241 } := by decide
theorem test_status_w1c :
    statusWord (statusWrite 0xFFFFFFFF { tDone .encrypt 1 (tIdle 16 8 abc) with wbusy := true, cmdovr := true }) = 0x04 := by
  decide
/-- A command placed with `withFetchWord` is the very next step (log entry 3). -/
theorem test_fetch_word : (step (State.reset.withFetchWord 32 4) matches .next _) = true := by decide
theorem test_fetch_word_runs_pad : (tNext (step (State.reset.withFetchWord 32 4))).opl = some .pad := by decide

/-! ## Witnesses: for every statement with hypotheses, a state and operands that meet all of them -/

/-- ENCRYPT and DECRYPT of two blocks, before the first and before the last block step; PAD and UNPAD before their step. -/
def wEnc0 : State := tRun .encrypt (tIdle 16 8 p5)
def wEnc1 : State := tDone .encrypt 1 (tIdle 16 8 p5)
def wDec0 : State := tRun .decrypt (tIdle 16 8 e5)
def wDec1 : State := tDone .decrypt 1 (tIdle 16 8 e5)
def wDecBad : State := tRun .decrypt (tIdle 16 8 [0, 0, 0, 0, 0, 0, 0, 0])
def wPad : State := tRun .pad (tIdle 0 0 abc)
def wUnpad : State := tRun .unpad (tIdle 0 0 [0x41, 0x42, 0x43, 5, 5, 5, 5, 5])
def wUnpadBad : State := tRun .unpad (tIdle 0 0 [0x41, 0])
def wIdle : State := tIdle 16 8 abc

/-- The next turn is the host's, and its next statement is given. -/
def wHost (s : State) (h : HostStmt) : State := { s with sched := [.host], host := [h] }

theorem witness_DecodeInvertsEncode : (Instr.encrypt).wf = true ∧ (Instr.bad 6).wf = true ∧
    (Instr.bad 0xFFFFFFFF).wf = true := by decide

theorem witness_DecodeFollowsOpcodeMap : 6 ≤ (6 : Word).toNat ∧ 6 ≤ (0xFFFFFFFF : Word).toNat := by decide

/-- One host turn for each clause: a write at either end of the aperture and at KEY_LEN, a write to CMD, a read, a poll that
holds and one that does not, an access below the aperture and one just past it, and no statement. -/
theorem witness_StepRunsDecodedCommand :
    let ready (h : HostStmt) : Prop :=
      (wHost wIdle h).rstAsserted = false ∧ nextTurn (wHost wIdle h) = .host ∧ (wHost wIdle h).host = h :: []
    ready (.write (wIdle.cfg.base + 0) 4 1) ∧ ready (.write (wIdle.cfg.base + 0x3FFFF) 1 1) ∧
    ready (.write (wIdle.cfg.base + 0x018) 4 8) ∧ ready (.write (wIdle.cfg.base + 0x010) 4 1) ∧
    ready (.read (wIdle.cfg.base + 0x3FFFC) 4) ∧
    (ready (.poll (wIdle.cfg.base + 0x014) 1 0) ∧ (memRead wIdle 0x014 4).data &&& 1 = 0) ∧
    (ready (.poll (wIdle.cfg.base + 0x014) 1 1) ∧ (memRead wIdle 0x014 4).data &&& 1 ≠ 1) ∧
    (ready (.write 0x3FFFC 4 1) ∧ 0x3FFFC < wIdle.cfg.base) ∧
    (ready (.read (wIdle.cfg.base + 0x40000) 4) ∧ ready (.poll (wIdle.cfg.base + 0x40000) 1 1)) ∧
    (wIdle.rstAsserted = false ∧ nextTurn wIdle = .host ∧ wIdle.host = []) := by decide

theorem witness_BusyCommandIsIgnored : Instr.clear ≠ .nop ∧ Instr.bad 6 ≠ .nop ∧ Instr.encrypt ≠ .nop ∧
    wEnc0.phase = .run := by decide

theorem witness_NopChangesNothing : opField 0x10 = 0 ∧ (0x10 : Word) ≠ 0 := by decide

theorem witness_ClearRestoresResetValues : wIdle.phase = .idle ∧ wEnc0.phase = .run := by decide

theorem witness_BadCompletesWithBadCommand :
    rsvdField 0x10 ≠ 0 ∧ 6 ≤ opField 6 ∧ wIdle.phase = .idle ∧ wIdle.wbusy = false ∧ wIdle.cmdovr = false ∧
    wEnc0.phase = .run := by decide

/-- Each clause at the boundary of its range: key lengths 7 and 24 of a build with KEY_MAX_BYTES = 16, IV length 7, IN_LEN =
BUF_BYTES. -/
theorem witness_EncryptGateErrors :
    (tLen 7 8 0).phase = .idle ∧ ¬ KeyLengthAccepted (tLen 7 8 0).cfg (tLen 7 8 0).keyLen.toNat ∧
    ¬ KeyLengthAccepted (tLen 24 8 0).cfg (tLen 24 8 0).keyLen.toNat ∧
    (tLen 8 7 0).phase = .idle ∧ KeyLengthAccepted (tLen 8 7 0).cfg (tLen 8 7 0).keyLen.toNat ∧
    (tLen 8 7 0).ivLen.toNat ≠ 8 ∧
    (tLen 16 8 24).phase = .idle ∧ KeyLengthAccepted (tLen 16 8 24).cfg (tLen 16 8 24).keyLen.toNat ∧
    (tLen 16 8 24).ivLen.toNat = 8 ∧ (tLen 16 8 24).cfg.bufBytes ≤ (tLen 16 8 24).inLen.toNat := by
  simp only [← keyOk_iff]; decide

theorem witness_DecryptGateErrors :
    (tLen 0 8 8).phase = .idle ∧ ¬ KeyLengthAccepted (tLen 0 8 8).cfg (tLen 0 8 8).keyLen.toNat ∧
    (tLen 16 9 8).phase = .idle ∧ KeyLengthAccepted (tLen 16 9 8).cfg (tLen 16 9 8).keyLen.toNat ∧
    (tLen 16 9 8).ivLen.toNat ≠ 8 ∧
    (tLen 16 8 0).phase = .idle ∧ KeyLengthAccepted (tLen 16 8 0).cfg (tLen 16 8 0).keyLen.toNat ∧
    (tLen 16 8 0).ivLen.toNat = 8 ∧ (tLen 16 8 0).inLen.toNat = 0 ∧ (tLen 16 8 28).inLen.toNat % 8 ≠ 0 ∧
    (tLen 16 8 32).phase = .idle ∧ KeyLengthAccepted (tLen 16 8 32).cfg (tLen 16 8 32).keyLen.toNat ∧
    (tLen 16 8 32).ivLen.toNat = 8 ∧ 0 < (tLen 16 8 32).inLen.toNat ∧ (tLen 16 8 32).inLen.toNat % 8 = 0 ∧
    (tLen 16 8 32).cfg.bufBytes < (tLen 16 8 32).inLen.toNat := by
  simp only [← keyOk_iff]; decide

theorem witness_PadUnpadGateErrors :
    (tLen 0 0 24).phase = .idle ∧ (tLen 0 0 24).cfg.bufBytes ≤ (tLen 0 0 24).inLen.toNat ∧
    (tLen 0 0 25).phase = .idle ∧ (tLen 0 0 25).cfg.bufBytes < (tLen 0 0 25).inLen.toNat := by decide

/-- The gate passes at the ends of the ranges: IN_LEN 0 and BUF_BYTES − 1, 8 and BUF_BYTES. -/
theorem witness_EncryptDecryptLaunch :
    (tLen 8 8 0).phase = .idle ∧ GatePasses .encrypt (tLen 8 8 0) ∧ GatePasses .encrypt (tLen 16 8 23) ∧
    GatePasses .decrypt (tLen 8 8 8) ∧ GatePasses .decrypt (tLen 16 8 24) := by
  simp only [← gatePasses_iff]; decide

theorem witness_PadUnpadLaunch :
    (tLen 0 0 23).phase = .idle ∧ GatePasses .pad (tLen 0 0 0) ∧ GatePasses .pad (tLen 0 0 23) ∧
    GatePasses .unpad (tLen 0 0 0) ∧ GatePasses .unpad (tLen 0 0 24) := by
  simp only [← gatePasses_iff]; decide

theorem witness_EncryptBlockStep :
    wEnc0.opl = some .encrypt ∧ wEnc0.blkCnt.toNat + 1 ≠ wEnc0.inLen.toNat / 8 + 1 ∧
    wEnc1.opl = some .encrypt ∧ wEnc1.blkCnt.toNat + 1 = wEnc1.inLen.toNat / 8 + 1 := by decide

theorem witness_DecryptBlockStep :
    wDec0.opl = some .decrypt ∧ wDec0.blkCnt.toNat + 1 ≠ wDec0.inLen.toNat / 8 ∧
    wDec1.opl = some .decrypt ∧ wDec1.blkCnt.toNat + 1 = wDec1.inLen.toNat / 8 ∧
    unpad wDec1.cfg.unpadCheckAll (outBytes (tNext (engineStep wDec1)) wDec1.inLen.toNat) = some p5 ∧
    wDecBad.opl = some .decrypt ∧ wDecBad.blkCnt.toNat + 1 = wDecBad.inLen.toNat / 8 ∧
    unpad wDecBad.cfg.unpadCheckAll (outBytes (tNext (engineStep wDecBad)) wDecBad.inLen.toNat) = none := by decide

theorem witness_PadStepEffect : wPad.opl = some .pad := by decide

/-- An UNPAD under way on an input, in a build with UNPAD_CHECK_ALL given. -/
def wUnpadOf (checkAll : Bool) (d : List Byte) : State :=
  tRun .unpad { tIdle 0 0 d with cfg := { tCfg with unpadCheckAll := checkAll } }

/-- R145's corner cases, one for each reason to reject: no input, a last byte of 0x00 and of 0x09, `07 03`, and trailing
bytes that disagree under the hardened check. -/
theorem witness_UnpadStepEffect :
    ((wUnpadOf true []).opl = some .unpad ∧ (wUnpadOf true []).inLen.toNat = 0) ∧
    ((wUnpadOf false [0x41, 0]).opl = some .unpad ∧ (inByte (wUnpadOf false [0x41, 0]) 1).toNat = 0) ∧
    ((wUnpadOf false [0x41, 9]).opl = some .unpad ∧ 8 < (inByte (wUnpadOf false [0x41, 9]) 1).toNat) ∧
    ((wUnpadOf false [7, 3]).opl = some .unpad ∧ (wUnpadOf false [7, 3]).inLen.toNat < (inByte (wUnpadOf false [7, 3]) 1).toNat) ∧
    ((wUnpadOf true [0x41, 7, 2]).opl = some .unpad ∧ (wUnpadOf true [0x41, 7, 2]).cfg.unpadCheckAll = true ∧
      ∃ m, 3 - 2 ≤ m ∧ m < 3 ∧ (inByte (wUnpadOf true [0x41, 7, 2]) m).toNat ≠ 2) :=
  ⟨by decide, by decide, by decide, by decide, by decide, by decide, 1, by decide⟩

/-- Inputs that are not rejected: the worked example, `02 02`, whose result is empty, and trailing bytes that disagree in a
build without the hardened check. -/
theorem witness_UnpadStepEffect_accepts :
    (wUnpad.opl = some .unpad ∧ wUnpad.inLen.toNat = 8 ∧ ∀ m < 8, 8 - 5 ≤ m → (inByte wUnpad m).toNat = 5) ∧
    ((wUnpadOf true [2, 2]).opl = some .unpad ∧ (wUnpadOf true [2, 2]).inLen.toNat = 2 ∧
      ∀ m < 2, 2 - 2 ≤ m → (inByte (wUnpadOf true [2, 2]) m).toNat = 2) ∧
    ((wUnpadOf false [0x41, 7, 2]).opl = some .unpad ∧ (wUnpadOf false [0x41, 7, 2]).cfg.unpadCheckAll = false ∧
      (wUnpadOf false [0x41, 7, 2]).inLen.toNat = 3 ∧ (inByte (wUnpadOf false [0x41, 7, 2]) 2).toNat = 2) := by
  decide

/-- The hardened check makes the difference (R145). -/
theorem test_unpad_check_all : unpad true [0x41, 7, 2] = none ∧ unpad false [0x41, 7, 2] = some [0x41] := by decide

/-- An idle block ready for a command. -/
theorem witness_EncryptCommandResult : wIdle.cfg.wf = true ∧ wIdle.phase = .idle ∧ wIdle.rstAsserted = false ∧
    wIdle.sched = [] ∧ GatePasses .encrypt wIdle := by
  simp only [← gatePasses_iff]; decide

theorem witness_DecryptCommandResult :
    (∃ s : State, (s.cfg.wf = true ∧ s.phase = .idle ∧ s.rstAsserted = false ∧ s.sched = [] ∧ GatePasses .decrypt s) ∧
      cbcDec s.cfg.unpadCheckAll s.cfg.primitive (s.key.take s.keyLen.toNat) s.iv (inBytes s s.inLen.toNat) = some p5) ∧
    (∃ s : State, (s.cfg.wf = true ∧ s.phase = .idle ∧ s.rstAsserted = false ∧ s.sched = [] ∧ GatePasses .decrypt s) ∧
      cbcDec s.cfg.unpadCheckAll s.cfg.primitive (s.key.take s.keyLen.toNat) s.iv (inBytes s s.inLen.toNat) = none) := by
  refine ⟨⟨tIdle 16 8 e5, ?_⟩, ⟨tIdle 16 8 [0, 0, 0, 0, 0, 0, 0, 0], ?_⟩⟩ <;> simp only [← gatePasses_iff] <;> decide

theorem witness_PadCommandResult : wIdle.cfg.wf = true ∧ wIdle.phase = .idle ∧ wIdle.rstAsserted = false ∧
    wIdle.sched = [] ∧ GatePasses .pad wIdle := by
  simp only [← gatePasses_iff]; decide

theorem witness_UnpadCommandResult :
    (∃ s : State, (s.cfg.wf = true ∧ s.phase = .idle ∧ s.rstAsserted = false ∧ s.sched = [] ∧ GatePasses .unpad s) ∧
      unpad s.cfg.unpadCheckAll (inBytes s s.inLen.toNat) = none) ∧
    (∃ s : State, (s.cfg.wf = true ∧ s.phase = .idle ∧ s.rstAsserted = false ∧ s.sched = [] ∧ GatePasses .unpad s) ∧
      unpad s.cfg.unpadCheckAll (inBytes s s.inLen.toNat) = some [0x41]) := by
  refine ⟨⟨tIdle 0 0 [0x41, 0], ?_⟩, ⟨tIdle 0 0 [0x41, 1], ?_⟩⟩ <;> simp only [← gatePasses_iff] <;> decide

/-- Legal states: idle, and before each kind of engine step. -/
theorem legal_wIdle : Inv { wIdle with sched := [.host] } :=
  ⟨by decide, by decide, by decide, by decide, by decide, by decide, by decide, by decide, by decide, by decide, by decide,
    by decide, by decide, by decide, trivial, by decide⟩

theorem legal_wEnc1 : Inv wEnc1 :=
  ⟨by decide, by decide, by decide, by decide, by decide, by decide, by decide, by decide, by decide, by decide, by decide,
    by decide, by decide, by decide, (⟨by decide, by decide, by decide, by decide, by decide, by decide⟩ : EncryptInv wEnc1),
    by decide⟩

theorem legal_wDec1 : Inv wDec1 :=
  ⟨by decide, by decide, by decide, by decide, by decide, by decide, by decide, by decide, by decide, by decide, by decide,
    by decide, by decide, by decide,
    (⟨by decide, by decide, by decide, by decide, by decide, by decide, by decide⟩ : DecryptInv wDec1), by decide⟩

theorem legal_wDecBad : Inv wDecBad :=
  ⟨by decide, by decide, by decide, by decide, by decide, by decide, by decide, by decide, by decide, by decide, by decide,
    by decide, by decide, by decide,
    (⟨by decide, by decide, by decide, by decide, by decide, by decide, by decide⟩ : DecryptInv wDecBad), by decide⟩

theorem legal_wPad : Inv wPad :=
  ⟨by decide, by decide, by decide, by decide, by decide, by decide, by decide, by decide, by decide, by decide, by decide,
    by decide, by decide, by decide, (⟨by decide, by decide⟩ : PadInv wPad), by decide⟩

theorem witness_ResultUnderAnyInterleaving :
    (Inv wEnc1 ∧ (∃ t, engineStep wEnc1 = .next t ∧ t.phase = .idle) ∧ wEnc1.opl = some .encrypt) ∧
    (Inv wDec1 ∧ (∃ t, engineStep wDec1 = .next t ∧ t.phase = .idle) ∧ wDec1.opl = some .decrypt) ∧
    (Inv wDecBad ∧ (∃ t, engineStep wDecBad = .next t ∧ t.phase = .idle) ∧ wDecBad.opl = some .decrypt) :=
  ⟨⟨legal_wEnc1, ⟨_, rfl, by decide⟩, by decide⟩, ⟨legal_wDec1, ⟨_, rfl, by decide⟩, by decide⟩,
    ⟨legal_wDecBad, ⟨_, rfl, by decide⟩, by decide⟩⟩

/-- Two states that agree on the operands and differ elsewhere (CTRL, STATUS, and an input byte past IN_LEN). -/
def wOther : State := { wIdle with ie := true, wbusy := true, outLen := 0, inBuf := Memory.cells 0 (abc ++ [0xFF]) }

theorem witness_OutcomeDependsOnInputsOnly :
    wIdle ≠ wOther ∧ wIdle.cfg.wf = true ∧ wIdle.cfg = wOther.cfg ∧
    (wIdle.phase = .idle ∧ wIdle.rstAsserted = false ∧ wIdle.sched = []) ∧
    (wOther.phase = .idle ∧ wOther.rstAsserted = false ∧ wOther.sched = []) ∧
    wIdle.keyLen = wOther.keyLen ∧ keyOperand wIdle = keyOperand wOther ∧ wIdle.ivLen = wOther.ivLen ∧
    wIdle.iv = wOther.iv ∧ wIdle.inLen = wOther.inLen ∧ (∀ i < wIdle.inLen.toNat, inByte wIdle i = inByte wOther i) := by
  decide

theorem witness_EncryptThenDecryptOnMachine : ∃ s₁ a₁ t₁ s₂ : State,
    (s₁.cfg.wf = true ∧ s₁.phase = .idle ∧ s₁.rstAsserted = false ∧ s₁.sched = [] ∧ GatePasses .encrypt s₁) ∧
    (exec .encrypt s₁ = .next a₁ ∧ runSteps (s₁.inLen.toNat / 8 + 1) a₁ = .next t₁) ∧
    (s₂.cfg = s₁.cfg ∧ s₂.phase = .idle ∧ s₂.rstAsserted = false ∧ s₂.sched = []) ∧
    (s₂.keyLen = s₁.keyLen ∧ keyOperand s₂ = keyOperand s₁ ∧ s₂.ivLen = s₁.ivLen ∧ s₂.iv = s₁.iv) ∧
    s₂.inLen = t₁.outLen ∧ ∀ i < t₁.outLen.toNat, inByte s₂ i = readByte t₁ (0x20000 + i) := by
  refine ⟨tIdle 16 8 p5, wEnc0, tDone .encrypt 2 (tIdle 16 8 p5), tIdle 16 8 e5, ?_, ⟨rfl, rfl⟩, ?_, ?_, ?_, ?_⟩
  · simp only [← gatePasses_iff]; decide
  · decide
  · decide
  · decide
  · decide

/-- Two blocks; the error in the first, so that a next block and no other block exist; and in the last. -/
theorem witness_CiphertextErrorLocality :
    0 < (blocksOf e5).length ∧ tIv ≠ Block.zero ∧ 0 + 1 < (blocksOf e5).length ∧ 1 < (blocksOf e5).length ∧
    ((0 : Nat) ≠ 1 ∧ (0 : Nat) ≠ 1 + 1) := by decide

theorem witness_RawBlockDependsOnTwoBlocks : 0 < (blocksOf e5).length ∧ 1 < (blocksOf e5).length := by decide

theorem witness_IvSensitivity : tIv ≠ Block.zero := by decide

theorem witness_StepKeepsInvariant : Inv wEnc1 ∧ ∃ t, step wEnc1 = .next t := ⟨legal_wEnc1, _, rfl⟩

theorem witness_ResetIsLegal : Config.default.wf = true ∧ tCfg.wf = true := by decide

theorem witness_LegalStatesNeverStop : Inv wDec1 := legal_wDec1

theorem witness_EveryOperationEnds :
    (Inv wEnc1 ∧ wEnc1.phase = .run ∧ ∃ t, engineStep wEnc1 = .next t) ∧
    (∃ s, Inv s ∧ s.phase = .run ∧ nextTurn s = .host ∧ ∃ t, step s = .next t) ∧
    (wIdle.phase = .idle ∧ GatePasses .encrypt wIdle ∧ GatePasses .pad wIdle ∧ GatePasses .unpad wIdle) ∧
    ((tIdle 16 8 e5).phase = .idle ∧ GatePasses .decrypt (tIdle 16 8 e5)) := by
  refine ⟨⟨legal_wEnc1, by decide, _, rfl⟩, ⟨{ wPad with sched := [.host] }, ?_, by decide, by decide, _, rfl⟩, ?_, ?_⟩
  · exact ⟨by decide, by decide, by decide, by decide, by decide, by decide, by decide, by decide, by decide, by decide,
      by decide, by decide, by decide, by decide, (⟨by decide, by decide⟩ : PadInv { wPad with sched := [.host] }),
      by decide⟩
  · simp only [← gatePasses_iff]; decide
  · simp only [← gatePasses_iff]; decide

theorem witness_WaitReturns : ∃ s, Inv s ∧ s.rstAsserted = false ∧ s.sched = [] ∧
    s.host = waitStmt s.cfg :: [] ∧ stepsLeft s = 1 :=
  ⟨{ wPad with host := [waitStmt wPad.cfg] },
    ⟨by decide, by decide, by decide, by decide, by decide, by decide, by decide, by decide, by decide, by decide,
      by decide, by decide, by decide, by decide,
      (⟨by decide, by decide⟩ : PadInv { wPad with host := [waitStmt wPad.cfg] }), by decide⟩,
    by decide, by decide, by decide, by decide⟩

/-- While ENCRYPT runs the host writes KEY_LEN. -/
theorem witness_HostCannotDisturbOperation :
    (wHost wEnc0 (.write (wEnc0.cfg.base + 0x018) 4 8)).phase = .run ∧
    nextTurn (wHost wEnc0 (.write (wEnc0.cfg.base + 0x018) 4 8)) = .host ∧
    ∃ t, step (wHost wEnc0 (.write (wEnc0.cfg.base + 0x018) 4 8)) = .next t := ⟨by decide, by decide, _, rfl⟩

theorem witness_EngineTurnFrame :
    (nextTurn wEnc1 = .engine ∧ ∃ t, step wEnc1 = .next t) ∧
    (wEnc1.rstAsserted = false ∧ wEnc1.phase = .run ∧ wEnc1.opl = some .encrypt) ∧
    (nextTurn wPad = .engine ∧ ∃ t, step wPad = .next t) ∧ wPad.opl = some .pad :=
  ⟨⟨by decide, _, rfl⟩, by decide, ⟨by decide, _, rfl⟩, by decide⟩

theorem witness_OnlyCompletionsSetDone : ∃ t, step wEnc1 = .next t ∧ wEnc1.done = false ∧ t.done = true ∧
    wEnc1.outValid = false ∧ t.outValid = true := ⟨_, rfl, by decide, by decide, by decide, by decide⟩

theorem witness_BusyLifecycle :
    (wIdle.phase = .idle ∧ GatePasses .encrypt wIdle ∧ (tLen 0 0 24).phase = .idle ∧ ¬ GatePasses .pad (tLen 0 0 24)) ∧
    (∃ t, wPad.phase = .run ∧ engineStep wPad = .next t ∧ wPad.done = false ∧ t.done = true) ∧
    (∃ s t, step s = .next t ∧ s.phase = .idle ∧ t.phase = .run) ∧
    (∃ s t, step s = .next t ∧ s.phase = .run ∧ t.phase = .idle ∧ nextTurn s = .engine) ∧
    (∃ s t, step s = .next t ∧ s.phase = .run ∧ t.phase = .idle ∧ nextTurn s = .assertReset) :=
  ⟨by simp only [← gatePasses_iff]; decide, ⟨_, by decide, rfl, by decide, by decide⟩,
    ⟨wHost wIdle (.write (wIdle.cfg.base + 0x010) 4 1), _, rfl, by decide, by decide⟩,
    ⟨wEnc1, _, rfl, by decide, by decide, by decide⟩,
    ⟨{ wEnc0 with sched := [.assertReset] }, _, rfl, by decide, by decide, by decide⟩⟩

/-- Both sticky flags set, and a STATUS write that clears both. -/
theorem witness_StickyFlagsFall :
    ∃ s t, step s = .next t ∧ s.wbusy = true ∧ t.wbusy = false ∧ s.cmdovr = true ∧ t.cmdovr = false :=
  ⟨wHost { wIdle with wbusy := true, cmdovr := true } (.write (wIdle.cfg.base + 0x014) 4 0x300), _, rfl,
    by decide, by decide, by decide, by decide⟩

theorem witness_ScrubAtEveryCompletion :
    (wEnc1.opl = some .encrypt ∧ wEnc1.phase = .run ∧ ∃ t, engineStep wEnc1 = .next t ∧ t.phase = .idle) ∧
    (wDec1.opl = some .decrypt ∧ wDec1.phase = .run ∧ ∃ t, engineStep wDec1 = .next t ∧ t.phase = .idle) ∧
    ((tLen 7 8 0).phase = .idle ∧ ∃ t, exec .encrypt (tLen 7 8 0) = .next t ∧ t.phase = .idle) ∧
    ((tLen 7 8 0).phase = .idle ∧ ∃ t, exec .decrypt (tLen 7 8 0) = .next t ∧ t.phase = .idle) ∧
    (wPad.opl = some .pad ∧ ∃ t, engineStep wPad = .next t) ∧ (wUnpad.opl = some .unpad ∧ ∃ t, engineStep wUnpad = .next t) ∧
    (∃ t, exec .pad wIdle = .next t) ∧ (∃ t, exec .unpad wIdle = .next t) ∧ ∃ t, exec (.bad 6) wIdle = .next t :=
  ⟨⟨by decide, by decide, _, rfl, by decide⟩, ⟨by decide, by decide, _, rfl, by decide⟩, ⟨by decide, _, rfl, by decide⟩,
    ⟨by decide, _, rfl, by decide⟩, ⟨by decide, _, rfl⟩, ⟨by decide, _, rfl⟩, ⟨_, rfl⟩, ⟨_, rfl⟩, ⟨_, rfl⟩⟩

/-- The first register, and the last byte of the output window. -/
theorem witness_HostReadStep :
    (∃ s : State, s.rstAsserted = false ∧ nextTurn s = .host ∧ s.host = .read (s.cfg.base + 0) 4 :: []) ∧
    ((0 : Nat) < 0x40000 ∧ ((4 : Nat) = 1 ∨ (4 : Nat) = 2 ∨ (4 : Nat) = 4) ∧ 0 % 4 = 0 ∧ (0x100 ≤ 0 ∨ (4 : Nat) = 4)) ∧
    (∃ s : State, s.rstAsserted = false ∧ nextTurn s = .host ∧ s.host = .read (s.cfg.base + 0x2FFFF) 1 :: []) ∧
    (0x2FFFF < 0x40000 ∧ 0x2FFFF % 1 = 0 ∧ 0x100 ≤ 0x2FFFF) :=
  ⟨⟨wHost wIdle (.read (wIdle.cfg.base + 0) 4), by decide, by decide, by decide⟩, by decide,
    ⟨wHost wIdle (.read (wIdle.cfg.base + 0x2FFFF) 1), by decide, by decide, by decide⟩, by decide⟩

/-- A size of 3, a misaligned word, and a byte in the register region. -/
theorem witness_MalformedAccessIsBusError :
    ¬ ((3 : Nat) = 1 ∨ (3 : Nat) = 2 ∨ (3 : Nat) = 4) ∧ 0x10002 % 4 ≠ 0 ∧ (0xFF < 0x100 ∧ (1 : Nat) ≠ 4) := by decide

/-- A word at the end of the implemented key window, the IV window's last byte, and half-words at both ends of the input. -/
theorem witness_WindowWriteStoresBytes :
    (wIdle.phase = .idle ∧ wIdle.key.length = wIdle.cfg.keyMaxBytes) ∧
    (0x100 ≤ 0x10C ∧ 0x10C % 4 = 0 ∧ regionOf wIdle.cfg (0x10C + 3) = .key 15) ∧
    (0x100 ≤ 0x207 ∧ 0x207 % 1 = 0 ∧ regionOf wIdle.cfg 0x207 = .iv 7) ∧
    (0x100 ≤ 0x10000 ∧ 0x10000 % 2 = 0 ∧ regionOf wIdle.cfg (0x10000 + 1) = .input 1) ∧
    (0x10016 % 2 = 0 ∧ regionOf wIdle.cfg (0x10016 + 1) = .input 23) := by decide

theorem witness_BusyWritesAreDropped :
    wEnc0.phase = .run ∧ wEnc0.cfg.wf = true ∧
    (0x100 ≤ 0x10C ∧ 0x10C < 0x100 + wEnc0.cfg.keyMaxBytes ∧ 0x10C % 4 = 0) ∧
    (0x200 ≤ 0x204 ∧ 0x204 < 0x208 ∧ 0x204 % 4 = 0) ∧
    (0x10000 ≤ 0x10017 ∧ 0x10017 < 0x10000 + wEnc0.cfg.bufBytes ∧ 0x10017 % 1 = 0) := by decide

/-- The clauses at the ends of their ranges. -/
theorem witness_IgnoredWrites :
    wIdle.cfg.wf = true ∧ (0x028 < 0x40000 ∧ 0x028 % 4 = 0) ∧
    (0x20000 ≤ 0x20000 ∧ 0x20000 % 4 = 0 ∧ 0x2FFFF < 0x30000 ∧ 0x2FFFF % 1 = 0) ∧
    (0x02C ≤ 0x02C ∧ 0x0FC < 0x100 ∧ 0x0FC % 4 = 0) ∧
    (0x100 + wIdle.cfg.keyMaxBytes ≤ 0x110 ∧ 0x1FF < 0x200) ∧ (0x208 ≤ 0x208 ∧ 0xFFFF < 0x10000) ∧
    (0x10000 + wIdle.cfg.bufBytes ≤ 0x10018 ∧ 0x1FFFF < 0x20000) ∧ (0x20000 + wIdle.cfg.bufBytes ≤ 0x3FFFF) := by decide

theorem witness_RegisterWriteMap : 0x02C ≤ 0x0FC ∧ 0x0FC < 0x100 ∧ 0x0FC % 4 = 0 := by decide

theorem witness_RegisterReadMap : 0x02C ≤ 0x02C ∧ 0x02C < 0x100 ∧ 0x02C % 4 = 0 := by decide

theorem witness_CapsReportsBuild :
    Config.default.wf = true ∧ ({ tCfg with keyPolicy := .strict16, unpadCheckAll := false, keyMaxBytes := 256 } : Config).wf =
      true := by decide

theorem witness_StatusWordFields : 10 ≤ 10 ∧ 10 ≤ 31 := by decide

/-- A completion with IE set, a CTRL write with DONE set, and the two ways down. -/
theorem witness_InterruptLine :
    (∃ s t, step s = .next t ∧ s.irq = false ∧ t.irq = true ∧ s.done = false) ∧
    (∃ s t, step s = .next t ∧ s.irq = false ∧ t.irq = true ∧ s.done = true) ∧
    (2 : Word).getLsbD 1 = true ∧ (0 : Word).getLsbD 0 = false :=
  ⟨⟨{ wPad with ie := true }, _, rfl, by decide, by decide, by decide⟩,
    ⟨wHost { wIdle with done := true } (.write (wIdle.cfg.base + 0x00C) 4 1), _, rfl, by decide, by decide, by decide⟩,
    by decide, by decide⟩

theorem witness_OutputGate :
    (wIdle.cfg.wf = true ∧ 0 < wIdle.cfg.bufBytes ∧ 23 < wIdle.cfg.bufBytes) ∧ (0x20000 ≤ 0x2FFFF ∧ 0x2FFFF < 0x30000) ∧
    (Inv wPad ∧ wPad.phase = .run ∧ 0xFFFF < 0x10000) := ⟨by decide, by decide, legal_wPad, by decide, by decide⟩

/-- A finished PAD with 8 readable bytes, and an OUT_BUF that differs past them. -/
theorem witness_HiddenStateIsInvisible :
    let s := tDone .pad 1 (tIdle 0 0 abc)
    s.outValid = true ∧ Memory.store s.outBuf 8 [0xEE] ≠ s.outBuf ∧
      ∀ i < s.outLen.toNat, outByte { s with outBuf := Memory.store s.outBuf 8 [0xEE] } i = outByte s i := by decide

theorem witness_LoadFillsInputWindow : ∃ s : State, s.cfg.wf = true ∧ s.phase = .idle ∧ s.rstAsserted = false ∧ s.sched = [] ∧
    e5.length ≤ s.cfg.bufBytes ∧ s.host = loadStmts s.cfg inWin e5 ++ [] :=
  ⟨{ wIdle with host := loadStmts tCfg inWin e5 }, by decide, by decide, by decide, by decide, by decide, by decide⟩

theorem witness_ResetStopsEverything :
    ({ wEnc0 with sched := [.assertReset] } : State).sched = .assertReset :: [] ∧
    (assertReset wEnc0).rstAsserted = true ∧ nextTurn (assertReset wEnc0) = .host ∧
    ({ wEnc0 with sched := [.releaseReset] } : State).sched = .releaseReset :: [] := by decide

theorem witness_PortCarriesTheCall : (wEnc0.key.length = wEnc0.cfg.keyMaxBytes ∧ wEnc0.opl = some .encrypt) ∧
    (wDec0.key.length = wDec0.cfg.keyMaxBytes ∧ wDec0.opl = some .decrypt) ∧ wPad.opl = some .pad ∧ wIdle.opl = none := by
  decide

/-- R165: KEY[0] = 0x00, KEY[1] = 0x01 at the top of the key wires, KEY[15] = 0xF0 at the bottom. -/
theorem test_port_key : (portCall wEnc0).map (fun p => p.key.toNat) = some 0x00010203040506078090A0B0C0D0E0F0 := by decide

end Sys2Proof.Machine
end

section
/-! PROOF. When PHASE, and with it STATUS.BUSY, changes (10_state.md R29): said once for a command, a host access, an engine
step and a whole step. -/

namespace Sys2Proof.Machine

theorem statusWord_bit_zero (s : State) : (statusWord s).getLsbD 0 = s.busy := by
  simp [statusWord, flagBit]

/-- The host's next statement is the CMD write of a command that passes the gate in `s`, and `t` runs its operation. -/
def HostLaunches (s t : State) : Prop :=
  ∃ (w : Word) (rest : List HostStmt) (c : Op),
    s.host = .write (s.cfg.base + 0x010) 4 w :: rest ∧ decode w = c.instr ∧ GatePasses c s ∧ t.opl = some c

/-- Of all commands only an operation that passes the gate of an idle block changes PHASE. -/
theorem exec_phase {i : Instr} {s t : State} (h : exec i s = .next t) :
    t.phase = s.phase ∨ ∃ c : Op, s.phase = .idle ∧ i = c.instr ∧ GatePasses c s ∧ t.opl = some c := by
  rcases exec_cases h with ⟨-, rfl⟩ | ⟨-, -, rfl⟩ | ⟨-, hp, rfl⟩ | ⟨-, hp, rfl⟩ | ⟨c, hc, hp, rfl⟩
  · exact .inl rfl
  · exact .inl rfl
  · exact .inl hp.symm
  · exact .inl (by simp [hp])
  · rcases acceptOp_cases c s with ⟨e, -, -, he⟩ | ⟨hg, hl⟩
    · exact .inl (by simp [he, hp])
    · have hi : i = c.instr := by rcases hc with ⟨rfl, rfl⟩ | ⟨rfl, rfl⟩ | ⟨rfl, rfl⟩ | ⟨rfl, rfl⟩ <;> rfl
      exact .inr ⟨c, hp, hi, (gatePasses_iff c s).1 hg, by simp [hl]⟩

theorem memWrite_phase {s t : State} {a n : Nat} {v : Word} (h : memWrite s a n v = .next t) :
    t.phase = s.phase ∨
      ∃ c : Op, s.phase = .idle ∧ a = 0x010 ∧ n = 4 ∧ decode v = c.instr ∧ GatePasses c s ∧ t.opl = some c := by
  obtain ⟨r, rfl | ⟨-, -, rfl⟩ | ⟨ha, hn, he⟩ | ⟨-, -, rfl⟩ | ⟨-, rfl⟩ | ⟨-, ht⟩⟩ := memWrite_cases h
  · exact .inl rfl
  · exact .inl rfl
  · exact (exec_phase he).imp_right fun ⟨c, hp, hi, hg, ho⟩ => ⟨c, hp, ha, hn, hi, hg, ho⟩
  · exact .inl rfl
  · exact .inl rfl
  · exact .inl (by rw [ht])

theorem hostStep_phase {s t : State} (h : hostStep s = .next t) :
    t.phase = s.phase ∨ s.phase = .idle ∧ HostLaunches s t := by
  obtain ⟨l, r, rfl | ⟨a, n, v, hh, -, hw⟩⟩ := hostStep_cases h
  · exact .inl rfl
  · rcases memWrite_phase hw with hp | ⟨c, hp, rfl, rfl, hi, hg, ho⟩
    · exact .inl hp
    · exact .inr ⟨hp, v, l, c, hh, hi, hg, ho⟩

/-- An engine step either goes on, with PHASE and DONE as they were, or completes the operation. -/
theorem engineStep_phase {s t : State} (h : engineStep s = .next t) :
    (t.phase = s.phase ∧ t.done = s.done) ∨ (t.phase = .idle ∧ t.done = true) := by
  rcases engineStep_cases h with ⟨-, rfl⟩ | ⟨-, rfl⟩ | ⟨-, rfl⟩ | ⟨-, rfl⟩
  · unfold encStep
    split
    · exact .inr (by simp)
    · exact .inl ⟨rfl, rfl⟩
  · unfold decStep
    split
    · rcases decFinish_cases (decAdvance s) with ⟨-, he⟩ | ⟨r, -, he⟩ <;> exact .inr (by simp [he])
    · exact .inl ⟨rfl, rfl⟩
  · exact .inr (by simp [padStep])
  · rcases unpadStep_cases s with ⟨-, he⟩ | ⟨r, -, he⟩ <;> exact .inr (by simp [he])

/-- Everything that can become of PHASE in one step, with the turn that does it. -/
theorem step_phase {s t : State} (h : step s = .next t) :
    t.phase = s.phase ∨
    (nextTurn s = .host ∧ s.phase = .idle ∧ HostLaunches s t) ∨
    (nextTurn s = .engine ∧ t.phase = .idle ∧ t.done = true) ∨
    (nextTurn s = .assertReset ∧ t.phase = .idle) := by
  rcases takeTurn_cases h with ⟨rfl, -⟩ | ⟨hk, -, hs⟩ | ⟨hk, -, -, hs⟩ | ⟨hk, rfl⟩ | ⟨-, rfl⟩
  · exact .inl rfl
  · exact (hostStep_phase hs).imp_right fun hl => .inl ⟨hk, hl⟩
  · rcases engineStep_phase hs with ⟨hp, -⟩ | hc
    · exact .inl hp
    · exact .inr (.inr (.inl ⟨hk, hc⟩))
  · exact .inr (.inr (.inr ⟨hk, rfl⟩))
  · exact .inl rfl

/-- BUSY rises only by the host's CMD write of a command that passes the gate. -/
theorem step_busy_rises {s t : State} (h : step s = .next t) (hs : s.phase = .idle) (ht : t.phase = .run) :
    nextTurn s = .host ∧ HostLaunches s t := by
  rcases step_phase h with hp | ⟨hk, -, hl⟩ | ⟨-, hp, -⟩ | ⟨-, hp⟩
  · simp [hs, ht] at hp
  · exact ⟨hk, hl⟩
  · simp [ht] at hp
  · simp [ht] at hp

/-- BUSY falls only by a completion of the engine or by reset. -/
theorem step_busy_falls {s t : State} (h : step s = .next t) (hs : s.phase = .run) (ht : t.phase = .idle) :
    (nextTurn s = .engine ∧ t.done = true) ∨ nextTurn s = .assertReset := by
  rcases step_phase h with hp | ⟨-, hp, -⟩ | ⟨hk, -, hd⟩ | ⟨hk, -⟩
  · simp [hs, ht] at hp
  · simp [hs] at hp
  · exact .inl ⟨hk, hd⟩
  · exact .inr hk

theorem acceptOp_phase_of_fails {c : Op} {s : State} (h : ¬ GatePasses c s) :
    (acceptOp c s).phase = .idle ∧ (acceptOp c s).done = true := by
  rcases acceptOp_cases c s with ⟨e, -, -, he⟩ | ⟨hg, -⟩
  · simp [he]
  · exact absurd ((gatePasses_iff c s).1 hg) h

/-- Settles O42: the rise and the fall are read off the four things a step can do to PHASE. -/
theorem busyLifecycle : Obligations.BusyLifecycle := by
  refine ⟨fun s => ?status, fun c s hs => ?accept, fun s t _ h hd hd' => ?complete, fun s t hk h => ?reset,
    fun s t h => ⟨step_busy_rises h, step_busy_falls h⟩⟩
  case status => rw [statusWord_bit_zero, busy_iff]
  case accept =>
    exact ⟨acceptOp c s, exec_op hs, fun hg => by rw [acceptOp_of_passes hg, launch_phase], acceptOp_phase_of_fails⟩
  case complete =>
    rcases engineStep_phase h with ⟨-, he⟩ | ⟨hp, -⟩
    · simp [hd, hd'] at he
    · exact hp
  case reset =>
    simp only [step, hk, takeTurn, Host.Outcome.next.injEq] at h
    rw [← h]
    rfl

end Sys2Proof.Machine
end

section
/-! PROOF. What a register access and a window write through the bus come to (20_memory.md R65 to R74): the checks and the
byte order said once, so that the map of registers and the output gate are read off the offset. -/

namespace Sys2Proof.Machine

/-- An access that fails a check of R63 or R64, in plain arithmetic. -/
theorem malformed_iff (a n : Nat) :
    malformed a n = true ↔ ¬ (n = 1 ∨ n = 2 ∨ n = 4) ∨ a % n ≠ 0 ∨ (a < 0x100 ∧ n ≠ 4) := by
  rw [← Bool.not_eq_false, malformed_eq_false_iff]
  omega

theorem memRead_of_malformed (s : State) {a n : Nat} (h : malformed a n = true) :
    memRead s a n = { error := true, data := 0 } := by
  rw [memRead, if_pos h]

theorem memWrite_of_malformed (s : State) {a n : Nat} (v : Word) (h : malformed a n = true) :
    memWrite s a n v = .next { s with resp := some { error := true, data := 0 } } := by
  rw [memWrite, if_pos h]

theorem malformed_register {r : Nat} (h : r % 4 = 0) : malformed r 4 = false :=
  (malformed_eq_false_iff r 4).2 ⟨.inr (.inr rfl), h, .inr rfl⟩

/-- A word with the four bytes of `w` is `w`. -/
theorem word_ext_byteOf {v w : Word} (h : ∀ j < 4, byteOf v j = byteOf w j) : v = w := by
  rw [← wordOfBytes_byteOf v, ← wordOfBytes_byteOf w, h 0 (by decide), h 1 (by decide), h 2 (by decide), h 3 (by decide)]

theorem readByte_register (s : State) {r j : Nat} (hr : r < 0x100) (h4 : r % 4 = 0) (hj : j < 4) :
    readByte s (r + j) = byteOf (regValue s r) j := by
  have hq : 4 * ((r + j) / 4) = r := by omega
  have hm : (r + j) % 4 = j := by omega
  simp only [readByte, regionOf_register s.cfg (show r + j < 0x100 by omega), hq, hm]

/-- A 4-byte read in the register region returns the register's value, its four bytes in order (R62, R68). -/
theorem memRead_register (s : State) {r : Nat} (hr : r < 0x100) (h4 : r % 4 = 0) :
    memRead s r 4 = { error := false, data := regValue s r } := by
  have hv : readBytes s r 4 = regValue s r := word_ext_byteOf fun j hj => by
    rw [byteOf_readBytes, if_pos ⟨hj, hj⟩, readByte_register s hr h4 hj]
  simp [memRead, malformed_register h4, hv]

/-- A 4-byte write in the register region is `RegisterWrite` (R67). -/
theorem memWrite_register (s : State) {r : Nat} (v : Word) (hr : r < 0x100) (h4 : r % 4 = 0) :
    memWrite s r 4 v = registerWrite { s with resp := some { error := false, data := 0 } } r v := by
  simp [memWrite, malformed_register h4, hr]

/-- A well-formed write past the register region that R67 does not call droppable is ignored, and sets no WBUSY (R74). -/
theorem memWrite_of_not_droppable (s : State) {a n : Nat} (v : Word) (hm : malformed a n = false) (ha : 0x100 ≤ a)
    (hd : droppable s.cfg a = false) : memWrite s a n v = .next { s with resp := some { error := false, data := 0 } } := by
  have hk := writeBytes_of_not_droppable (s := { s with resp := some { error := false, data := 0 } }) v hd ha hm
  rw [memWrite, if_neg (by simp [hm]), if_neg (by omega), if_neg (by simp [hd]), hk]

theorem regValue_reserved (s : State) {r : Nat} (h : 0x02C ≤ r) : regValue s r = 0 := by
  simp [regValue, regAt_reserved h]

theorem registerWrite_reserved (s : State) {r : Nat} (v : Word) (h : 0x02C ≤ r) : registerWrite s r v = .next s := by
  simp [registerWrite, regAt_reserved h]

theorem registerWrite_readOnly (s : State) {r : Nat} (v : Word)
    (h : r = 0x000 ∨ r = 0x004 ∨ r = 0x008 ∨ r = 0x024 ∨ r = 0x028) : registerWrite s r v = .next s := by
  rcases h with rfl | rfl | rfl | rfl | rfl <;> rfl

theorem ctrlWord_eq (s : State) : ctrlWord s = if s.ie then 1 else 0 := by
  unfold ctrlWord
  cases s.ie <;> rfl

theorem lenWrite_eq (set : State → State) (s : State) :
    lenWrite set s = if s.phase = .run then { s with wbusy := true } else set s := by
  simp only [lenWrite, busy_iff]

theorem output_not_droppable (c : Config) {a : Nat} (h : 0x20000 ≤ a) : droppable c a = false := by
  rw [← Bool.not_eq_true, droppable_iff]
  omega

theorem bufBytes_le_of_wf {c : Config} (h : c.wf = true) : c.bufBytes ≤ 65536 := by
  simp only [Config.wf, Bool.and_eq_true, decide_eq_true_eq] at h
  obtain ⟨⟨-, hle⟩, -⟩ := h
  exact hle

/-- Settles O51: every read is `regValue` at its offset, and the offset names the register. -/
theorem registerReadMap : Obligations.RegisterReadMap := by
  intro s reads
  have of_value : ∀ {r : Nat} {w : Word}, r < 0x100 → r % 4 = 0 → regValue s r = w → reads r w :=
    fun hr h4 e => e ▸ memRead_register s hr h4
  refine ⟨?id, ?caps, ?bufsz, ?ctrl, ?cmd, ?status, ?keyLen, ?ivLen, ?inLen, ?outLen, ?blkCnt, ?reserved⟩
  case ctrl => exact of_value (by decide) rfl (ctrlWord_eq s)
  case reserved => exact fun r hl hr h4 => of_value hr h4 (regValue_reserved s hl)
  all_goals exact of_value (by decide) rfl rfl

/-- Settles O55: reads go through the gate, no write to the window is droppable, and while an operation runs OUT_VALID = 0. -/
theorem outputGate : Obligations.OutputGate := by
  refine ⟨fun s i hw hi => ?gate, fun s a n v hn ha hl _ => ?ignored, fun s i hs hp hi => ?closed⟩
  case gate => exact readByte_output s hi (bufBytes_le_of_wf hw)
  case ignored =>
    have hm : malformed a n = false := (malformed_eq_false_iff a n).2 ⟨hn, ha, .inl (by omega)⟩
    exact memWrite_of_not_droppable s v hm (by omega) (output_not_droppable s.cfg hl)
  case closed =>
    obtain ⟨-, hv, -, -⟩ := hs.run_clean hp
    exact readByte_output_invalid s hv hi

/-- Settles O46: both accesses make the check of R63 and R64 before anything else. -/
theorem malformedAccessIsBusError : Obligations.MalformedAccessIsBusError := by
  intro s a n h
  have hm : malformed a n = true := (malformed_iff a n).2 h
  exact ⟨memRead_of_malformed s hm, fun v => memWrite_of_malformed s v hm⟩

/-- Settles O50: every write is `RegisterWrite` at its offset; the three length registers take the busy-write rule's split. -/
theorem registerWriteMap : Obligations.RegisterWriteMap := by
  intro s v s' unlessBusy
  have length : ∀ (r : Nat) (set : State → State), r < 0x100 → r % 4 = 0 →
      registerWrite s' r v = .next (lenWrite set s') → memWrite s r 4 v = .next (unlessBusy (set s')) := by
    intro r set hr h4 e
    rw [memWrite_register s v hr h4, e, lenWrite_eq]
  refine ⟨?ctrl, ?cmd, ?status, ?keyLen, ?ivLen, ?inLen, ?readOnly, ?reserved⟩
  case ctrl => exact memWrite_register s v (by decide) rfl
  case cmd => exact memWrite_register s v (by decide) rfl
  case status => exact memWrite_register s v (by decide) rfl
  case keyLen => exact length 0x018 (fun t => { t with keyLen := v }) (by decide) rfl rfl
  case ivLen => exact length 0x01C (fun t => { t with ivLen := v }) (by decide) rfl rfl
  case inLen => exact length 0x020 (fun t => { t with inLen := v }) (by decide) rfl rfl
  case readOnly =>
    intro r h
    rw [memWrite_register s v (by omega) (by omega), registerWrite_readOnly _ v h]
  case reserved =>
    intro r hl hr h4
    rw [memWrite_register s v hr h4, registerWrite_reserved _ v hl]

end Sys2Proof.Machine
end

section
/-! PROOF. The opcode map (30_encoding.md R93): the six words that encode a command, and the tail of BAD words. -/

namespace Sys2Proof

/-- Settles O3: words 0 to 5 encode the six defined commands and so decode to them; from 6 upward every word is BAD, since a
word with a zero RSVD field is its own OP. -/
theorem decodeFollowsOpcodeMap : Obligations.DecodeFollowsOpcodeMap :=
  ⟨Laws.WordRoundTrip.nop rfl, Laws.WordRoundTrip.encrypt rfl, Laws.WordRoundTrip.decrypt rfl,
    Laws.WordRoundTrip.clear rfl, Laws.WordRoundTrip.pad rfl, Laws.WordRoundTrip.unpad rfl, fun _ => decode_of_ge⟩

end Sys2Proof
end

section
/-! PROOF. What becomes of the key material at a completion (40_gate.md R122): said once for a completion, then for the
acceptance of an operation and for the engine's four steps. -/

namespace Sys2Proof.Machine

/-- KEY, KEY_LEN, IV, IV_LEN and CHAIN hold what `Scrub()` leaves. -/
def KeyScrubbed (t : State) : Prop :=
  t.key = List.replicate t.cfg.keyMaxBytes 0 ∧ t.keyLen = 0 ∧ t.iv = Block.zero ∧ t.ivLen = 0 ∧ t.chain = Block.zero

/-- KEY, KEY_LEN, IV and IV_LEN are in `t` what they were in `s`. -/
def KeyKept (s t : State) : Prop := t.key = s.key ∧ t.keyLen = s.keyLen ∧ t.iv = s.iv ∧ t.ivLen = s.ivLen

theorem completeOK_keyScrubbed (n : Nat) (s : State) : KeyScrubbed (completeOK n true s) := by simp [KeyScrubbed]

theorem completeError_keyScrubbed (e : Err) (s : State) : KeyScrubbed (completeError e true s) := by simp [KeyScrubbed]

theorem completeOK_keyKept (n : Nat) (s : State) : KeyKept s (completeOK n false s) := by simp [KeyKept]

theorem completeError_keyKept (e : Err) (s : State) : KeyKept s (completeError e false s) := by simp [KeyKept]

/-- An operation that scrubs and is over at its acceptance failed the gate, and the failure scrubs. -/
theorem acceptOp_keyScrubbed {c : Op} {s : State} (hc : c.scrubs = true) (ht : (acceptOp c s).phase = .idle) :
    KeyScrubbed (acceptOp c s) := by
  rcases acceptOp_cases c s with ⟨e, -, -, he⟩ | ⟨-, hl⟩
  · rw [he, hc]
    exact completeError_keyScrubbed e (start s)
  · simp [hl] at ht

/-- The gate and the launch of an operation that does not scrub both keep the key material. -/
theorem acceptOp_keyKept {c : Op} (hc : c.scrubs = false) (s : State) : KeyKept s (acceptOp c s) := by
  rcases acceptOp_cases c s with ⟨e, -, -, he⟩ | ⟨-, hl⟩
  · rw [he, hc]
    exact completeError_keyKept e (start s)
  · simp [hl, KeyKept]

/-- A command that is turned away while BUSY keeps the key material; so one that keeps it while idle always does. -/
theorem whenIdle_keyKept {act : State → State} {s : State} (h : KeyKept s (act s)) : KeyKept s (whenIdle act s) := by
  unfold whenIdle
  split
  · simp [KeyKept]
  · exact h

theorem encStep_keyScrubbed {s : State} (hs : s.phase = .run) (ht : (encStep s).phase = .idle) :
    KeyScrubbed (encStep s) := by
  unfold encStep at ht ⊢
  split_ifs at ht ⊢
  · exact completeOK_keyScrubbed _ _
  · simp [hs] at ht

theorem decFinish_keyScrubbed (s : State) : KeyScrubbed (decFinish s) := by
  rcases decFinish_cases s with ⟨-, he⟩ | ⟨r, -, he⟩
  · exact he ▸ completeError_keyScrubbed _ s
  · exact he ▸ completeOK_keyScrubbed _ s

theorem decStep_keyScrubbed {s : State} (hs : s.phase = .run) (ht : (decStep s).phase = .idle) :
    KeyScrubbed (decStep s) := by
  unfold decStep at ht ⊢
  split_ifs at ht ⊢
  · exact decFinish_keyScrubbed _
  · simp [hs] at ht

theorem padStep_keyKept (s : State) : KeyKept s (padStep s) := completeOK_keyKept _ _

theorem unpadStep_keyKept (s : State) : KeyKept s (unpadStep s) := by
  rcases unpadStep_cases s with ⟨-, he⟩ | ⟨r, -, he⟩
  · exact he ▸ completeError_keyKept _ s
  · exact he ▸ completeOK_keyKept _ _

/-- Settles O44: an ENCRYPT or DECRYPT ends in a scrubbing completion, at the gate or in its last block step; PAD, UNPAD and
BAD have only completions without scrub. -/
theorem scrubAtEveryCompletion : Obligations.ScrubAtEveryCompletion := by
  refine ⟨fun s t ho hs h ht => ?engine, fun s t hs h ht => ?gate, fun s t ho h => ?padding, fun w s t h => ?accept⟩
  case engine =>
    rcases engineStep_cases h with ⟨-, rfl⟩ | ⟨-, rfl⟩ | ⟨hp, -⟩ | ⟨hu, -⟩
    · exact encStep_keyScrubbed hs ht
    · exact decStep_keyScrubbed hs ht
    · simp [hp] at ho
    · simp [hu] at ho
  case gate =>
    rcases h with h | h
    · obtain rfl := Host.Outcome.next.inj ((exec_op (c := .encrypt) hs).symm.trans h)
      exact acceptOp_keyScrubbed rfl ht
    · obtain rfl := Host.Outcome.next.inj ((exec_op (c := .decrypt) hs).symm.trans h)
      exact acceptOp_keyScrubbed rfl ht
  case padding =>
    rcases engineStep_cases h with ⟨he, -⟩ | ⟨hd, -⟩ | ⟨-, rfl⟩ | ⟨-, rfl⟩
    · simp [he] at ho
    · simp [hd] at ho
    · exact padStep_keyKept s
    · exact unpadStep_keyKept s
  case accept =>
    rcases h with h | h | h
    · exact Host.Outcome.next.inj h ▸ whenIdle_keyKept (acceptOp_keyKept rfl s)
    · exact Host.Outcome.next.inj h ▸ whenIdle_keyKept (acceptOp_keyKept rfl s)
    · exact Host.Outcome.next.inj h ▸ whenIdle_keyKept (completeError_keyKept .badCommand (start s))

end Sys2Proof.Machine
end

section
/-! PROOF. The padding transform (41_padding.md R140 to R147): what `pad` makes, when `unpad` rejects, and what the
engine steps of PAD and UNPAD leave in OUT_BUF. -/

namespace Sys2Proof.Machine

/-! ## pad, and unpad after it -/

/-- `pad` adds `padLen` bytes (R140); `pad_length` gives the same length in blocks (R146). -/
theorem pad_length_eq_add (d : List Byte) : (pad d).length = d.length + padLen d.length := by
  rw [pad_length, add_padLen]

theorem pad_take (d : List Byte) : (pad d).take d.length = d := List.take_left

theorem pad_drop (d : List Byte) :
    (pad d).drop d.length = List.replicate (padLen d.length) (BitVec.ofNat 8 (padLen d.length)) := List.drop_left

/-- Settles O31: the length of `pad` in whole blocks is `pad_length`; it is more than the length it started from. -/
theorem padGrowsToBlocks : Obligations.PadGrowsToBlocks := by
  intro d
  have hl : (pad d).length = 8 * (d.length / 8 + 1) := pad_length d
  exact ⟨hl, by omega, by omega⟩

/-- The last byte of the padding is its own length, so `unpad` finds it. -/
theorem pad_last (d : List Byte) :
    (pad d).getD ((pad d).length - 1) 0 = BitVec.ofNat 8 (padLen d.length) := by
  have hp := padLen_pos d.length
  rw [pad_length_eq_add, pad_getD d _ (by omega), if_neg (by omega)]

/-- Settles O30: the last byte of pad(d) counts the appended bytes, and all of them are equal to it. -/
theorem unpadInvertsPad : Obligations.UnpadInvertsPad := by
  intro checkAll d
  have hl : (pad d).length - padLen d.length = d.length := by rw [pad_length_eq_add]; omega
  refine (unpad_eq_some_iff checkAll (pad d) d).2
    ⟨padLen d.length, padLen_pos _, padLen_le _, ?fits, ?last, fun _ x hx => ?all, ?data⟩
  case fits => rw [pad_length_eq_add]; omega
  case last => rw [pad_last, padLen_toNat]
  case all =>
    rw [hl, pad_drop] at hx
    rw [pad_last, List.eq_of_mem_replicate hx]
  case data => rw [hl, pad_take]

/-! ## When unpad rejects (R141) -/

/-- R141's test of `l` bytes, the byte at position `i` being `byte i`. -/
def PaddingRejected (checkAll : Bool) (l : Nat) (byte : Nat → Byte) : Prop :=
  let p := (byte (l - 1)).toNat
  l = 0 ∨ p = 0 ∨ 8 < p ∨ l < p ∨ (checkAll = true ∧ ∃ m, l - p ≤ m ∧ m < l ∧ (byte m).toNat ≠ p)

/-- The test passes exactly when a last byte from 1 to 8 fits in the length and, with UNPAD_CHECK_ALL, fills the tail. -/
theorem not_paddingRejected_iff (checkAll : Bool) (l : Nat) (byte : Nat → Byte) :
    ¬ PaddingRejected checkAll l byte ↔
      1 ≤ (byte (l - 1)).toNat ∧ (byte (l - 1)).toNat ≤ 8 ∧ (byte (l - 1)).toNat ≤ l ∧
      (checkAll = true → ∀ m, l - (byte (l - 1)).toNat ≤ m → m < l → byte m = byte (l - 1)) := by
  simp only [PaddingRejected, ne_eq, BitVec.toNat_inj, not_or, not_and, not_exists, not_not]
  constructor
  · rintro ⟨-, h0, h8, hl, hall⟩
    exact ⟨by omega, by omega, by omega, hall⟩
  · rintro ⟨h1, h8, hl, hall⟩
    exact ⟨by omega, by omega, by omega, by omega, hall⟩

/-- The test reads no byte at or past the length. -/
theorem paddingRejected_congr {checkAll : Bool} {l : Nat} {f g : Nat → Byte} (h : ∀ i < l, f i = g i) :
    PaddingRejected checkAll l f ↔ PaddingRejected checkAll l g := by
  rcases Nat.eq_zero_or_pos l with rfl | hl
  · simp [PaddingRejected]
  · have hlast : f (l - 1) = g (l - 1) := h _ (by omega)
    have htail : ∀ p, (∃ m, l - p ≤ m ∧ m < l ∧ (f m).toNat ≠ p) ↔ ∃ m, l - p ≤ m ∧ m < l ∧ (g m).toNat ≠ p :=
      fun p => exists_congr fun m => and_congr_right fun _ => and_congr_right fun hm => by rw [h m hm]
    simp only [PaddingRejected, hlast, htail]

/-- A property of every byte from position `k` on, by position. -/
theorem forall_mem_drop_iff (d : List Byte) (k : Nat) (P : Byte → Prop) :
    (∀ x ∈ d.drop k, P x) ↔ ∀ m, k ≤ m → m < d.length → P (d.getD m 0) := by
  constructor
  · intro h m hk hm
    refine h _ (List.mem_drop_iff_getElem.2 ⟨m - k, by omega, ?_⟩)
    simp [show k + (m - k) = m by omega, hm]
  · intro h x hx
    obtain ⟨j, hj, rfl⟩ := List.mem_drop_iff_getElem.1 hx
    simpa [show k + j < d.length by omega] using h (k + j) (by omega) (by omega)

/-- `unpad` answers exactly when the test passes, and then it drops as many bytes as the last one says. -/
theorem unpad_eq_some_iff_not_rejected (checkAll : Bool) (d r : List Byte) :
    unpad checkAll d = some r ↔
      ¬ PaddingRejected checkAll d.length (fun i => d.getD i 0) ∧
        r = d.take (d.length - (d.getD (d.length - 1) 0).toNat) := by
  rw [unpad_eq_some_iff, not_paddingRejected_iff]
  constructor
  · rintro ⟨p, h1, h8, hl, rfl, hall, hr⟩
    exact ⟨⟨h1, h8, hl, fun hc => (forall_mem_drop_iff d _ _).1 (hall hc)⟩, hr⟩
  · rintro ⟨⟨h1, h8, hl, hall⟩, hr⟩
    exact ⟨_, h1, h8, hl, rfl, fun hc => (forall_mem_drop_iff d _ _).2 (hall hc), hr⟩

theorem unpad_eq_none_of_rejected {checkAll : Bool} {d : List Byte}
    (h : PaddingRejected checkAll d.length (fun i => d.getD i 0)) : unpad checkAll d = none :=
  Option.eq_none_iff_forall_ne_some.2 fun r hr => ((unpad_eq_some_iff_not_rejected checkAll d r).1 hr).1 h

theorem unpad_eq_some_of_not_rejected {checkAll : Bool} {d : List Byte}
    (h : ¬ PaddingRejected checkAll d.length (fun i => d.getD i 0)) :
    unpad checkAll d = some (d.take (d.length - (d.getD (d.length - 1) 0).toNat)) :=
  (unpad_eq_some_iff_not_rejected checkAll d _).2 ⟨h, rfl⟩

/-! ## The engine steps (R142, R143) -/

/-- OUT_BUF after a step that stores `bs` from its start. -/
theorem outByte_store_zero {s t : State} {bs : List Byte} (h : t.outBuf = Memory.store s.outBuf 0 bs)
    (hr : t.resetCount = s.resetCount) (q : Nat) :
    outByte t q = if q < bs.length then bs.getD q 0 else outByte s q := by
  split
  · rename_i hq
    simpa [hq] using outByte_store_inside h hq
  · exact outByte_store_outside h hr (.inr (by omega))

theorem engineStep_pad {s : State} (h : s.opl = some .pad) : engineStep s = .next (padStep s) := by
  simp [engineStep, h]

theorem engineStep_unpad {s : State} (h : s.opl = some .unpad) : engineStep s = .next (unpadStep s) := by
  simp [engineStep, h]

/-- OUT_BUF after the PAD step holds the padded input, byte by byte (R140), and keeps the rest. -/
theorem outByte_padStep (s : State) (q : Nat) :
    outByte (padStep s) q =
      if q < s.inLen.toNat + padLen s.inLen.toNat then padByte s s.inLen.toNat q else outByte s q := by
  rw [outByte_store_zero (s := s) (t := padStep s) rfl rfl]
  simp only [List.length_map, List.length_range]
  split
  · rename_i hq
    simp [List.getD_eq_getElem?_getD, List.getElem?_range hq]
  · rfl

/-- Settles O17: the three ranges of positions are the branches of `outByte_padStep` and of `padByte`. -/
theorem padStepEffect : Obligations.PadStepEffect := by
  intro s hs l p
  have padded : ∀ q < l + p, outByte (padStep s) q = padByte s l q := fun q hq => (outByte_padStep s q).trans (if_pos hq)
  refine ⟨padStep s, engineStep_pad hs, fun q hq => ?copied, fun q hl hq => ?appended, fun q hq => ?kept, rfl⟩
  case copied => exact (padded q (by omega)).trans (if_pos hq)
  case appended => exact (padded q hq).trans (if_neg (Nat.not_lt.2 hl))
  case kept => exact (outByte_padStep s q).trans (if_neg (Nat.not_lt.2 hq))

theorem inBytes_take (s : State) {l k : Nat} (h : k ≤ l) : (inBytes s l).take k = inBytes s k := by
  simp [inBytes, ← List.map_take, List.take_range, h]

/-- The test of R141 on the list IN_BUF[0..L) is the test on the bytes of IN_BUF. -/
theorem paddingRejected_inBytes (checkAll : Bool) (s : State) (l : Nat) :
    PaddingRejected checkAll (inBytes s l).length (fun i => (inBytes s l).getD i 0) ↔
      PaddingRejected checkAll l (inByte s) := by
  rw [inBytes_length]
  exact paddingRejected_congr fun i hi => inBytes_getD s hi

theorem unpadStep_of_rejected {s : State} (h : PaddingRejected s.cfg.unpadCheckAll s.inLen.toNat (inByte s)) :
    unpadStep s = completeError .invalidPadding false s := by
  have hn := unpad_eq_none_of_rejected ((paddingRejected_inBytes s.cfg.unpadCheckAll s s.inLen.toNat).2 h)
  simp [unpadStep, hn]

/-- The UNPAD step on an accepted input stores IN_BUF[0..L-p). -/
theorem unpadStep_of_not_rejected {s : State}
    (h : ¬ PaddingRejected s.cfg.unpadCheckAll s.inLen.toNat (inByte s)) :
    unpadStep s =
      completeOK (s.inLen.toNat - (inByte s (s.inLen.toNat - 1)).toNat) false
        { s with
          outBuf := Memory.store s.outBuf 0
            (inBytes s (s.inLen.toNat - (inByte s (s.inLen.toNat - 1)).toNat)) } := by
  have hl : 0 < s.inLen.toNat := Nat.pos_of_ne_zero fun h0 => h (.inl h0)
  have hu := unpad_eq_some_of_not_rejected (mt (paddingRejected_inBytes s.cfg.unpadCheckAll s s.inLen.toNat).1 h)
  rw [inBytes_length, inBytes_getD s (by omega), inBytes_take s (Nat.sub_le _ _)] at hu
  simp [unpadStep, hu]

/-- OUT_BUF after the UNPAD step on an accepted input holds IN_BUF[0..L-p), and keeps the rest. -/
theorem outByte_unpadStep {s : State} (h : ¬ PaddingRejected s.cfg.unpadCheckAll s.inLen.toNat (inByte s)) (q : Nat) :
    outByte (unpadStep s) q =
      if q < s.inLen.toNat - (inByte s (s.inLen.toNat - 1)).toNat then inByte s q else outByte s q := by
  have he := unpadStep_of_not_rejected h
  rw [outByte_store_zero (by rw [he]; rfl) (by rw [he]; rfl), inBytes_length]
  exact ite_congr rfl (fun hq => inBytes_getD s hq) fun _ => rfl

/-- Settles O18: `unpad` and the UNPAD step split on the same test, `PaddingRejected`. -/
theorem unpadStepEffect : Obligations.UnpadStepEffect := by
  refine ⟨fun checkAll d => ⟨unpad_eq_none_of_rejected, unpad_eq_some_of_not_rejected⟩, ?step⟩
  intro s hs l p
  refine ⟨unpadStep s, engineStep_unpad hs, unpadStep_of_rejected,
    fun h => ⟨fun q hq => ?copied, fun q hq => ?kept, ?frame⟩⟩
  case copied => exact (outByte_unpadStep h q).trans (if_pos hq)
  case kept => exact (outByte_unpadStep h q).trans (if_neg (Nat.not_lt.2 hq))
  case frame => rw [unpadStep_of_not_rejected h]; rfl

end Sys2Proof.Machine
end

section
/-! PROOF. The block operations of CBC: the lanes of `xor8` (42_cbc.md R160), and the block steps of ENCRYPT and DECRYPT
(R163, R164), each as the one block it stores and as its two outcomes, in the last step and before it. -/

namespace Sys2Proof

/-- Settles O32: the algebra of `xor8` is that of the exclusive-or in each lane. -/
theorem xorLanes : Obligations.XorLanes :=
  fun a b c => ⟨xor8_get a b, xor8_self a, xor8_zero a, xor8_comm a b, xor8_assoc a b c⟩

end Sys2Proof

namespace Sys2Proof.Machine

/-- A stored block reads back from OUT_BUF byte by byte. -/
theorem outByte_store_block {s t : State} {a : Nat} {b : Block} (h : t.outBuf = Memory.store s.outBuf a b.toList) :
    ∀ j < 8, outByte t (a + j) = b.get j := fun j hj => by
  rw [outByte_store_inside h (by simpa using hj), Block.getElem_toList]

theorem outBytes_congr {s t : State} (n : Nat) (hr : t.resetCount = s.resetCount) (ho : t.outBuf = s.outBuf) :
    outBytes t n = outBytes s n :=
  List.map_congr_left fun _ _ => outByte_congr hr (by rw [ho])

/-! ## The ENCRYPT block step (R163) -/

theorem engineStep_encrypt {s : State} (h : s.opl = some .encrypt) : engineStep s = .next (encStep s) := by
  simp [engineStep, h]

theorem encStep_of_last {s : State} (h : s.blkCnt.toNat + 1 = encBlocks s.inLen.toNat) :
    encStep s = completeOK (8 * encBlocks s.inLen.toNat) true (encAdvance s) := if_pos h

theorem encStep_of_not_last {s : State} (h : s.blkCnt.toNat + 1 ≠ encBlocks s.inLen.toNat) :
    encStep s = encAdvance s := if_neg h

@[simp] theorem encStep_outBuf (s : State) :
    (encStep s).outBuf = Memory.store s.outBuf (8 * s.blkCnt.toNat) (encCipherBlock s).toList := by
  unfold encStep
  split <;> simp

@[simp] theorem encStep_resetCount (s : State) : (encStep s).resetCount = s.resetCount := by
  unfold encStep
  split <;> simp

/-- Settles O15: the step stores the one block `encCipherBlock`, and its frame is that of `encAdvance`, in the last step
under a completion with scrub. -/
theorem encryptBlockStep : Obligations.EncryptBlockStep := by
  intro s hs i l n p c
  have store : (encStep s).outBuf = Memory.store s.outBuf (8 * i) c.toList := encStep_outBuf s
  refine ⟨encStep s, engineStep_encrypt hs, outByte_store_block store,
    fun q hq => outByte_store_outside store (encStep_resetCount s) hq, fun hn => ?goesOn, fun hn => ?ends⟩
  case goesOn => rw [encStep_of_not_last hn]; rfl
  case ends => rw [encStep_of_last hn]; rfl

/-! ## The DECRYPT block step (R164) -/

theorem engineStep_decrypt {s : State} (h : s.opl = some .decrypt) : engineStep s = .next (decStep s) := by
  simp [engineStep, h]

theorem decStep_of_last {s : State} (h : s.blkCnt.toNat + 1 = s.inLen.toNat / 8) :
    decStep s = decFinish (decAdvance s) := if_pos h

theorem decStep_of_not_last {s : State} (h : s.blkCnt.toNat + 1 ≠ s.inLen.toNat / 8) :
    decStep s = decAdvance s := if_neg h

@[simp] theorem decFinish_outBuf (s : State) : (decFinish s).outBuf = s.outBuf := by
  rcases decFinish_cases s with ⟨-, he⟩ | ⟨r, -, he⟩ <;> simp [he]

@[simp] theorem decFinish_resetCount (s : State) : (decFinish s).resetCount = s.resetCount := by
  rcases decFinish_cases s with ⟨-, he⟩ | ⟨r, -, he⟩ <;> simp [he]

@[simp] theorem decStep_outBuf (s : State) :
    (decStep s).outBuf = Memory.store s.outBuf (8 * s.blkCnt.toNat) (decPlainBlock s).toList := by
  unfold decStep
  split <;> simp

@[simp] theorem decStep_resetCount (s : State) : (decStep s).resetCount = s.resetCount := by
  unfold decStep
  split <;> simp

/-- The last step unpads the very bytes of OUT_BUF that it leaves: the completion stores nothing. -/
theorem outBytes_decStep (s : State) (n : Nat) : outBytes (decStep s) n = outBytes (decAdvance s) n :=
  outBytes_congr n (by simp) (by simp)

theorem decFinish_of_none {s : State} (h : unpad s.cfg.unpadCheckAll (outBytes s s.inLen.toNat) = none) :
    decFinish s = completeError .invalidPadding true s := by
  simp [decFinish, h]

theorem decFinish_of_some {s : State} {r : List Byte}
    (h : unpad s.cfg.unpadCheckAll (outBytes s s.inLen.toNat) = some r) :
    decFinish s = completeOK r.length true s := by
  simp [decFinish, h]

/-- Settles O16: the step stores the one block `decPlainBlock`, and its frame is that of `decAdvance`, in the last step under
the completion that the unpad of OUT_BUF[0..L) chooses. -/
theorem decryptBlockStep : Obligations.DecryptBlockStep := by
  intro s hs i l n c p
  have store : (decStep s).outBuf = Memory.store s.outBuf (8 * i) p.toList := decStep_outBuf s
  refine ⟨decStep s, engineStep_decrypt hs, outByte_store_block store,
    fun q hq => outByte_store_outside store (decStep_resetCount s) hq, fun hn => ?goesOn,
    fun hn => ⟨fun hu => ?rejected, fun r hu => ?accepted⟩⟩
  case goesOn => rw [decStep_of_not_last hn]; rfl
  case rejected =>
    rw [outBytes_decStep] at hu
    have he : decStep s = completeError .invalidPadding true (decAdvance s) :=
      (decStep_of_last hn).trans (decFinish_of_none hu)
    rw [he]; rfl
  case accepted =>
    rw [outBytes_decStep] at hu
    have he : decStep s = completeOK r.length true (decAdvance s) :=
      (decStep_of_last hn).trans (decFinish_of_some hu)
    rw [he]; rfl

end Sys2Proof.Machine
end

section
/-! PROOF. The control commands (43_control.md R190 to R192): which words are BAD, and what a command other than NOP comes to
in a busy and in an idle block. -/

namespace Sys2Proof

/-- OP = 0 is NOP in the word 0 alone: any other such word has RSVD ≠ 0. -/
theorem decode_of_opField_zero {w : Word} (ho : opField w = 0) (hw : w ≠ 0) : decode w = .bad w := by
  have hn : w.toNat ≠ 0 := fun h => hw (BitVec.eq_of_toNat_eq h)
  rw [opField_eq] at ho
  exact decode_of_ge (by omega)

/-- R192's condition on the fields is that the word is 6 or more. -/
theorem decode_of_illegal_field {w : Word} (h : rsvdField w ≠ 0 ∨ 6 ≤ opField w) : decode w = .bad w := by
  rw [rsvdField_eq, opField_eq] at h
  exact decode_of_ge (by omega)

end Sys2Proof

namespace Sys2Proof.Machine

/-- R111 for every command but NOP. -/
theorem exec_of_run {i : Instr} {s : State} (hi : i ≠ .nop) (hs : s.phase = .run) : exec i s = .next (overrun s) := by
  obtain ⟨t, h⟩ := exec_goes i s
  rcases exec_cases h with ⟨hn, -⟩ | ⟨-, -, rfl⟩ | ⟨-, hp, -⟩ | ⟨-, hp, -⟩ | ⟨c, -, hp, -⟩
  · exact absurd hn hi
  · exact h
  all_goals simp [hs] at hp

theorem whenIdle_of_idle (act : State → State) {s : State} (hs : s.phase = .idle) : whenIdle act s = act s := by
  simp [whenIdle, busy_of_idle hs]

theorem exec_clear_of_idle {s : State} (hs : s.phase = .idle) : exec .clear s = .next (softClear s) :=
  congrArg Host.Outcome.next (whenIdle_of_idle softClear hs)

theorem exec_bad_of_idle (w : Word) {s : State} (hs : s.phase = .idle) :
    exec (.bad w) s = .next (completeError .badCommand false (start s)) :=
  congrArg Host.Outcome.next (whenIdle_of_idle _ hs)

/-- An error completion without scrub, right after `Start()` in an idle block, field by field: PHASE stays as it was. -/
theorem completeError_start_of_idle (e : Err) {s : State} (hs : s.phase = .idle) :
    completeError e false (start s) =
      { s with done := true, outValid := false, err := e, outLen := 0, blkCnt := 0, opl := none } := by
  simp [completeError, scrubIf, start, hs]

/-- What STATUS reads right after an error completion, when no sticky flag is set: DONE and ERR alone. -/
theorem statusWord_completeError (e : Err) (b : Bool) {s : State} (hw : s.wbusy = false) (hc : s.cmdovr = false) :
    statusWord (completeError e b s) = 2 ||| (e.code.zeroExtend 32 <<< 4) := by
  simp [statusWord, State.busy, flagBit, hw, hc]

/-- Settles O6: NOP's arm answers its argument, and the words are read off the decoder. -/
theorem nopChangesNothing : Obligations.NopChangesNothing :=
  ⟨Laws.WordRoundTrip.nop rfl, fun _ => decode_of_opField_zero, fun _ => rfl⟩

/-- Settles O8: `SoftClear()` writes every field of the reset state that is the block's, but for the buffers. -/
theorem clearRestoresResetValues : Obligations.ClearRestoresResetValues :=
  ⟨Laws.WordRoundTrip.clear rfl, fun _ => ⟨exec_clear_of_idle, exec_of_run (by simp)⟩⟩

/-- Settles O9: in an idle block BAD is `Start()` and an error completion without scrub, in a busy one an overrun. -/
theorem badCompletesWithBadCommand : Obligations.BadCompletesWithBadCommand := by
  refine ⟨fun w => decode_of_illegal_field, fun w s => ⟨fun hs => ?idle, exec_of_run (by simp)⟩⟩
  refine ⟨_, exec_bad_of_idle w hs, completeError_start_of_idle .badCommand hs, fun hw hc => ?status, ?irq⟩
  case status => exact statusWord_completeError .badCommand false (s := start s) hw hc
  case irq => simp [State.irq]

end Sys2Proof.Machine
end

section
/-! PROOF. The reset values (70_reset_and_hazards.md R240): what STATUS, irq and the two buffers read in the reset state. -/

namespace Sys2Proof.Machine

/-- STATUS reads 0 in an idle block with every flag clear and no error (R28). -/
theorem statusWord_of_clear {s : State} (hp : s.phase = .idle) (hd : s.done = false) (ho : s.outValid = false)
    (he : s.err = .none) (hw : s.wbusy = false) (hc : s.cmdovr = false) : statusWord s = 0 := by
  simp [statusWord, flagBit, Err.code, busy_of_idle hp, hd, ho, he, hw, hc]

theorem irq_of_not_done {s : State} (hd : s.done = false) : s.irq = false := by
  simp [State.irq, hd]

/-- A position of IN_BUF with nothing written since reset holds its draw (R13). -/
theorem inByte_of_unwritten {s : State} {i : Nat} (h : Memory.find s.inBuf i = none) :
    inByte s i = Config.inBufInit s.resetCount i := by
  simp [inByte, h]

/-- A position of OUT_BUF with nothing written since reset holds its draw (R13). -/
theorem outByte_of_unwritten {s : State} {i : Nat} (h : Memory.find s.outBuf i = none) :
    outByte s i = Config.outBufInit s.resetCount i := by
  simp [outByte, h]

/-- Settles O58: the elements are the fields of `State.resetOf`, whose buffers have nothing written. -/
theorem resetValues : Obligations.ResetValues := by
  intro c s
  have hstatus : statusWord s = 0 := statusWord_of_clear rfl rfl rfl rfl rfl rfl
  have hirq : s.irq = false := irq_of_not_done rfl
  have hin : ∀ i, inByte s i = Config.inBufInit s.resetCount i := fun i => inByte_of_unwritten (find_nil i)
  have hout : ∀ i, outByte s i = Config.outBufInit s.resetCount i := fun i => outByte_of_unwritten (find_nil i)
  exact ⟨rfl, rfl, rfl, rfl, rfl, rfl, rfl, rfl, rfl, rfl, rfl, rfl, rfl, rfl, rfl, rfl, hstatus, hirq, hin, hout⟩

end Sys2Proof.Machine
end

section
/-! PROOF. The decoder and the encoder undo each other (30_encoding.md R91 to R96). -/

namespace Sys2Proof

theorem decode_encode {i : Instr} (h : i.wf = true) : decode (encode i) = i := by
  cases i with
  | nop => exact Laws.WordRoundTrip.nop h
  | encrypt => exact Laws.WordRoundTrip.encrypt h
  | decrypt => exact Laws.WordRoundTrip.decrypt h
  | clear => exact Laws.WordRoundTrip.clear h
  | pad => exact Laws.WordRoundTrip.pad h
  | unpad => exact Laws.WordRoundTrip.unpad h
  | bad w => exact Laws.WordRoundTrip.bad w h

/-- The first four bytes presented are the command word (R96). -/
theorem decodeBytes_wordBytes (w : Word) (rest : List Byte) :
    decodeBytes (wordBytes w ++ rest) = .ok (decode w, rest) := by
  simp only [wordBytes, List.cons_append, List.nil_append, decodeBytes, wordOfBytes_byteOf]

/-- Settles O1: the four bytes of a word give the word back, and the word of a well-formed command the command. -/
theorem decodeInvertsEncode : Obligations.DecodeInvertsEncode := by
  intro i rest h
  rw [encodeBytes, decodeBytes_wordBytes, decode_encode h]

/-- Settles O2: words 0 to 5 are the six defined commands' own words, and from 6 upward BAD carries the word. -/
theorem encodeInvertsDecode : Obligations.EncodeInvertsDecode := by
  intro w
  rcases Nat.lt_or_ge w.toNat 6 with h | h
  · rcases decode_of_lt h with ⟨hw, hd⟩ | ⟨hw, hd⟩ | ⟨hw, hd⟩ | ⟨hw, hd⟩ | ⟨hw, hd⟩ | ⟨hw, hd⟩ <;>
      exact hd ▸ ⟨rfl, hw.symm⟩
  · rw [decode_of_ge h]
    exact ⟨(bad_wf_iff w).2 h, rfl⟩

/-- Settles O4: twelve closed evaluations of the decoder. -/
theorem sampleWordsDecode : Obligations.SampleWordsDecode := by
  unfold Obligations.SampleWordsDecode
  decide

end Sys2Proof
end

section
/-! PROOF. CBC as a function on blocks (42_cbc.md R160 to R174), over the laws of the primitive (00_scope.md R12). -/

namespace Sys2Proof

@[simp] theorem cipherD_cipherE (p : Primitive) (k : List Byte) (b : Block) : cipherD p k (cipherE p k b) = b := by
  cases p with
  | external => exact (Config.blockCipher k).symm_apply_apply b
  | testVectors => exact testDecrypt_testEncrypt k b

@[simp] theorem cipherE_cipherD (p : Primitive) (k : List Byte) (b : Block) : cipherE p k (cipherD p k b) = b := by
  cases p with
  | external => exact (Config.blockCipher k).apply_symm_apply b
  | testVectors => exact testEncrypt_testDecrypt k b

theorem cipherE_injective (p : Primitive) (k : List Byte) : Function.Injective (cipherE p k) :=
  Function.LeftInverse.injective (cipherD_cipherE p k)

theorem cipherD_injective (p : Primitive) (k : List Byte) : Function.Injective (cipherD p k) :=
  Function.LeftInverse.injective (cipherE_cipherD p k)

/-- Settles O33: D is a two-sided inverse of E, so E is a bijection. -/
theorem primitiveLaws : Obligations.PrimitiveLaws := fun p k =>
  ⟨cipherD_cipherE p k, cipherE_cipherD p k, cipherE_injective p k,
    Function.RightInverse.surjective (cipherE_cipherD p k)⟩

theorem xor8_eq_left_iff {a b : Block} : xor8 a b = a ↔ b = Block.zero := by
  have h := xor8_right_inj (a := b) (b := Block.zero) (c := a)
  rwa [xor8_zero] at h

end Sys2Proof

namespace Sys2Proof.Machine

/-- Decrypting block by block undoes encrypting block by block, under any chain value. -/
theorem cbcDecBlocks_cbcEncBlocks {enc dec : Block → Block} (h : ∀ b, dec (enc b) = b) (ch : Block)
    (ps : List Block) : cbcDecBlocks dec ch (cbcEncBlocks enc ch ps) = ps := by
  induction ps generalizing ch with
  | nil => rfl
  | cons p ps ih => rw [cbcEncBlocks, cbcDecBlocks, h, xor8_cancel, ih]

@[simp] theorem cbcEnc_length (p : Primitive) (k : List Byte) (iv : Block) (d : List Byte) :
    (cbcEnc p k iv d).length = 8 * (d.length / 8 + 1) := by
  simp [cbcEnc]

theorem cbcDecRaw_cbcEnc (p : Primitive) (k : List Byte) (iv : Block) (d : List Byte) :
    cbcDecRaw p k iv (cbcEnc p k iv d) = pad d := by
  have hpad : (pad d).length % 8 = 0 := by rw [pad_length]; omega
  rw [cbcDecRaw, cbcEnc, blocksOf_bytesOf, cbcDecBlocks_cbcEncBlocks (cipherD_cipherE p k), bytesOf_blocksOf hpad]

/-- Settles O26: the raw bytes of the decryption are the padded plaintext, and unpad inverts pad. -/
theorem cbcRoundTrip : Obligations.CbcRoundTrip := by
  intro checkAll p k iv d
  rw [cbcDec, cbcDecRaw_cbcEnc, unpadInvertsPad checkAll d]

/-- Raw plaintext block `i` by itself (R164): D of ciphertext block `i`, XOR the block before it or, for the first one, the
chain value. -/
theorem cbcDecBlocks_getD (dec : Block → Block) (ch : Block) {cs : List Block} {i : Nat} (h : i < cs.length) :
    (cbcDecBlocks dec ch cs).getD i Block.zero =
      xor8 (dec (cs.getD i Block.zero)) (if i = 0 then ch else cs.getD (i - 1) Block.zero) := by
  induction cs generalizing ch i with
  | nil => exact absurd h (Nat.not_lt_zero i)
  | cons c cs ih =>
    cases i with
    | zero => rfl
    | succ i =>
      have hi : i < cs.length := by simpa using h
      rw [cbcDecBlocks, List.getD_cons_succ, List.getD_cons_succ, ih c hi]
      cases i <;> simp

/-- Settles O28: the recurrence of R164, unrolled at one block. -/
theorem rawBlockDependsOnTwoBlocks : Obligations.RawBlockDependsOnTwoBlocks :=
  fun p k iv _ _ h => cbcDecBlocks_getD (cipherD p k) iv h

theorem getD_set_self {cs : List Block} {i : Nat} (h : i < cs.length) (x : Block) :
    (cs.set i x).getD i Block.zero = x := by
  simp [h]

theorem getD_set_ne (cs : List Block) {i m : Nat} (h : m ≠ i) (x : Block) :
    (cs.set i x).getD m Block.zero = cs.getD m Block.zero := by
  simp [List.getD_eq_getElem?_getD, List.getElem?_set_ne (Ne.symm h)]

/-- Settles O27: by the formula of one raw block, where the changed block stands only at its own index. -/
theorem ciphertextErrorLocality : Obligations.CiphertextErrorLocality := by
  intro p k iv δ cs i hi hδ raw raw'
  have block : ∀ {m}, m < cs.length → raw.getD m Block.zero =
      xor8 (cipherD p k (cs.getD m Block.zero)) (if m = 0 then iv else cs.getD (m - 1) Block.zero) :=
    cbcDecBlocks_getD (cipherD p k) iv
  have block' : ∀ {m}, m < cs.length → raw'.getD m Block.zero =
      xor8 (cipherD p k ((cs.set i (xor8 (cs.getD i Block.zero) δ)).getD m Block.zero))
        (if m = 0 then iv else (cs.set i (xor8 (cs.getD i Block.zero) δ)).getD (m - 1) Block.zero) :=
    fun {m} hm => cbcDecBlocks_getD (cipherD p k) iv (by rwa [List.length_set])
  have own : raw'.getD i Block.zero =
      xor8 (cipherD p k (xor8 (cs.getD i Block.zero) δ)) (if i = 0 then iv else cs.getD (i - 1) Block.zero) := by
    rw [block' hi, getD_set_self hi]
    split
    · rfl
    · rw [getD_set_ne cs (by omega)]
  refine ⟨by simp [raw, raw'], own, fun heq => ?differs, fun hn => ?next, fun m hm hm1 => ?other⟩
  case differs =>
    rw [own, block hi, xor8_left_inj] at heq
    exact hδ (xor8_eq_left_iff.1 (cipherD_injective p k heq))
  case next =>
    rw [block hn, block' hn, getD_set_ne cs (Nat.succ_ne_self i), if_neg (Nat.succ_ne_zero i),
      if_neg (Nat.succ_ne_zero i), Nat.add_sub_cancel, getD_set_self hi, xor8_assoc]
  case other =>
    rcases Nat.lt_or_ge m cs.length with hlt | hge
    · rw [block hlt, block' hlt, getD_set_ne cs hm]
      split
      · rfl
      · rw [getD_set_ne cs (by omega)]
    · rw [List.getD_eq_default _ _ (by simp [raw', hge]), List.getD_eq_default _ _ (by simp [raw, hge])]

/-- The first ciphertext block, of every plaintext (the padded one is never empty). -/
theorem blockAt_cbcEnc_zero (p : Primitive) (k : List Byte) (iv : Block) (d : List Byte) :
    blockAt (cbcEnc p k iv d) 0 = cipherE p k (xor8 (blockAt (pad d) 0) iv) := by
  have hp : 0 < (pad d).length / 8 := by rw [pad_length]; omega
  have hc : 0 < (cbcEnc p k iv d).length / 8 := by rw [cbcEnc_length]; omega
  rw [← blocksOf_getD hc, cbcEnc, blocksOf_bytesOf, cbcEncBlocks_getD _ _ _ _ (by simp), blocksOf_getD hp,
    if_pos rfl]

/-- Settles O29: E is injective, and so is the XOR with the one plaintext block. -/
theorem ivSensitivity : Obligations.IvSensitivity := by
  intro p k iv₁ iv₂ d hne heq
  rw [blockAt_cbcEnc_zero, blockAt_cbcEnc_zero] at heq
  exact hne (xor8_right_inj.1 (cipherE_injective p k heq))

end Sys2Proof.Machine
end

section
/-! PROOF. The acceptance of a command (40_gate.md R110 to R119): turned away while BUSY, completed by its first failing
check, or launched. -/

namespace Sys2Proof.Machine

/-- Settles O7: R111 is the busy branch of every arm but NOP's. -/
theorem busyCommandIsIgnored : Obligations.BusyCommandIsIgnored := fun _ _ hi hp => exec_of_run hi hp

/-- An operation on an idle block that fails a check completes with the first failing check's error. -/
theorem exec_gate_error {c : Op} {s : State} {e : Err} (hp : s.phase = .idle)
    (h : firstFailure (gateChecks c s) = some e) : exec c.instr s = .next (completeError e c.scrubs (start s)) := by
  rw [exec_op hp, acceptOp_of_fails h]

/-- An operation on an idle block that passes the gate is launched. -/
theorem exec_launch {c : Op} {s : State} (hp : s.phase = .idle) (h : GatePasses c s) :
    exec c.instr s = .next (launch c (start s)) := by
  rw [exec_op hp, acceptOp_of_passes h]

/-- The same for an operation that scrubs, field by field. -/
theorem exec_gate_error_scrub {c : Op} (hc : c.scrubs = true) {s : State} {e : Err} (hp : s.phase = .idle)
    (h : firstFailure (gateChecks c s) = some e) :
    exec c.instr s = .next
      { s with
        done := true, outValid := false, err := e, outLen := 0, blkCnt := 0, opl := none
        key := List.replicate s.cfg.keyMaxBytes 0, keyLen := 0, iv := Block.zero, ivLen := 0, chain := Block.zero } := by
  rw [exec_gate_error hp h, hc, hp]
  rfl

/-! ## The first failing check (R113) -/

theorem keyOk_eq_false_iff (c : Config) (l : Word) : keyOk c l = false ↔ ¬ KeyLengthAccepted c l.toNat := by
  rw [← keyOk_iff, Bool.not_eq_true]

theorem ivOk_eq_false_iff (l : Word) : ivOk l = false ↔ l.toNat ≠ 8 := by rw [ne_eq, ← ivOk_iff, Bool.not_eq_true]

theorem ctLenOk_eq_false_iff (l : Word) : ctLenOk l = false ↔ l.toNat = 0 ∨ l.toNat % 8 ≠ 0 := by
  rw [← Bool.not_eq_true, ctLenOk_iff]
  omega

theorem encRangeOk_eq_false_iff (c : Config) (l : Word) : encRangeOk c l = false ↔ c.bufBytes ≤ l.toNat := by
  simp [encRangeOk]

theorem decRangeOk_eq_false_iff (c : Config) (l : Word) : decRangeOk c l = false ↔ c.bufBytes < l.toNat := by
  simp [decRangeOk]

/-- Settles O10: each clause is the list of checks up to the one that fails. -/
theorem encryptGateErrors : Obligations.EncryptGateErrors := by
  intro s hp failed
  have error : ∀ {e}, firstFailure (gateChecks .encrypt s) = some e → exec .encrypt s = .next (failed e) :=
    exec_gate_error_scrub (c := .encrypt) rfl hp
  refine ⟨fun hk => error ?key, fun hk hi => error ?iv, fun hk hi hl => error ?range⟩
  case key =>
    rw [← keyOk_eq_false_iff] at hk
    simp [gateChecks, firstFailure, hk]
  case iv =>
    rw [← keyOk_iff] at hk
    rw [← ivOk_eq_false_iff] at hi
    simp [gateChecks, firstFailure, hk, hi]
  case range =>
    rw [← keyOk_iff] at hk
    rw [← ivOk_iff] at hi
    rw [← encRangeOk_eq_false_iff] at hl
    simp [gateChecks, firstFailure, hk, hi, hl]

/-- Settles O11: each clause is the list of checks up to the one that fails. -/
theorem decryptGateErrors : Obligations.DecryptGateErrors := by
  intro s hp failed
  have error : ∀ {e}, firstFailure (gateChecks .decrypt s) = some e → exec .decrypt s = .next (failed e) :=
    exec_gate_error_scrub (c := .decrypt) rfl hp
  refine ⟨fun hk => error ?key, fun hk hi => error ?iv, fun hk hi hc => error ?length,
    fun hk hi hpos hmod hl => error ?range⟩
  case key =>
    rw [← keyOk_eq_false_iff] at hk
    simp [gateChecks, firstFailure, hk]
  case iv =>
    rw [← keyOk_iff] at hk
    rw [← ivOk_eq_false_iff] at hi
    simp [gateChecks, firstFailure, hk, hi]
  case length =>
    rw [← keyOk_iff] at hk
    rw [← ivOk_iff] at hi
    rw [← ctLenOk_eq_false_iff] at hc
    simp [gateChecks, firstFailure, hk, hi, hc]
  case range =>
    rw [← keyOk_iff] at hk
    rw [← ivOk_iff] at hi
    rw [← decRangeOk_eq_false_iff] at hl
    simp [gateChecks, firstFailure, hk, hi, (ctLenOk_iff _).2 ⟨hpos, hmod⟩, hl]

/-- Settles O12: the capacity is the only check, and its completion does not scrub. -/
theorem padUnpadGateErrors : Obligations.PadUnpadGateErrors := by
  intro s hp failed
  have hfailed : completeError .lengthRange false (start s) = failed := completeError_start_of_idle .lengthRange hp
  refine ⟨fun hl => ?pad, fun hl => ?unpad⟩
  case pad =>
    rw [← encRangeOk_eq_false_iff] at hl
    exact (exec_gate_error (c := .pad) hp (by simp [gateChecks, firstFailure, hl])).trans (congrArg _ hfailed)
  case unpad =>
    rw [← decRangeOk_eq_false_iff] at hl
    exact (exec_gate_error (c := .unpad) hp (by simp [gateChecks, firstFailure, hl])).trans (congrArg _ hfailed)

/-- Settles O13: both scrub, so both load CHAIN at the launch. -/
theorem encryptDecryptLaunch : Obligations.EncryptDecryptLaunch := fun _ hp =>
  ⟨exec_launch (c := .encrypt) hp, exec_launch (c := .decrypt) hp⟩

/-- Settles O14: neither scrubs, so neither loads CHAIN at the launch. -/
theorem padUnpadLaunch : Obligations.PadUnpadLaunch := fun _ hp =>
  ⟨exec_launch (c := .pad) hp, exec_launch (c := .unpad) hp⟩

end Sys2Proof.Machine
end

section
/-! PROOF. The legal states (Safety.lean): every turn keeps them, reset makes one, and none of them stops the machine. -/

namespace Sys2Proof.Machine

/-! ## What a host turn does while an operation runs (20_memory.md R76, 40_gate.md R111) -/

/-- `t` differs from `s` at most in IE, DONE, WBUSY, CMDOVR, the agents' lists and the response, and DONE is not set. -/
def KeepsOperation (s t : State) : Prop :=
  t = { s with
        ie := t.ie, done := t.done, wbusy := t.wbusy, cmdovr := t.cmdovr
        host := t.host, sched := t.sched, resp := t.resp } ∧
  (s.done = false → t.done = false)

theorem exec_keepsOperation {i : Instr} {s t : State} (hp : s.phase = .run) (h : exec i s = .next t) :
    KeepsOperation s t := by
  rcases exec_cases h with ⟨-, rfl⟩ | ⟨-, -, rfl⟩ | ⟨-, hi, -⟩ | ⟨-, hi, -⟩ | ⟨c, -, hi, -⟩
  · exact ⟨rfl, id⟩
  · exact ⟨rfl, id⟩
  all_goals simp [hp] at hi

theorem memWrite_keepsOperation {s t : State} {a n : Nat} {v : Word} (hp : s.phase = .run)
    (h : memWrite s a n v = .next t) : KeepsOperation s t := by
  obtain ⟨r, rfl | ⟨-, -, rfl⟩ | ⟨-, -, he⟩ | ⟨-, -, rfl⟩ | ⟨-, rfl⟩ | ⟨hi, -⟩⟩ := memWrite_cases h
  · exact ⟨rfl, id⟩
  · exact ⟨rfl, id⟩
  · exact exec_keepsOperation (s := { s with resp := r }) hp he
  · exact ⟨rfl, fun hd => by simp [hd]⟩
  · exact ⟨rfl, id⟩
  · simp [hp] at hi

theorem hostStep_keepsOperation {s t : State} (hp : s.phase = .run) (h : hostStep s = .next t) :
    KeepsOperation s t := by
  obtain ⟨l, r, rfl | ⟨a, n, v, -, -, hw⟩⟩ := hostStep_cases h
  · exact ⟨rfl, id⟩
  · exact memWrite_keepsOperation (s := { s with host := l }) hp hw

/-- Settles O39: while PHASE = RUN a host turn is a host step or, under reset, nothing. -/
theorem hostCannotDisturbOperation : Obligations.HostCannotDisturbOperation := by
  intro s t hp hn h
  rcases takeTurn_cases h with ⟨rfl, -⟩ | ⟨-, -, hs⟩ | ⟨he, -⟩ | ⟨he, -⟩ | ⟨he, -⟩
  · exact ⟨rfl, id⟩
  · exact hostStep_keepsOperation (s := afterTurn s) hp hs
  all_goals simp [hn] at he

/-! ## Parts of the invariant -/

/-- The constraints on a build, in plain arithmetic (00_scope.md R7, R9, R10). -/
theorem config_wf_iff (c : Config) :
    c.wf = true ↔ c.keyMaxBytes % 8 = 0 ∧ 16 ≤ c.keyMaxBytes ∧ c.keyMaxBytes ≤ 256 ∧ c.bufBytes % 8 = 0 ∧
      8 ≤ c.bufBytes ∧ c.bufBytes ≤ 65536 ∧ c.base % 0x40000 = 0 := by
  simp only [Config.wf, Bool.and_eq_true, decide_eq_true_eq, and_assoc]

/-- The part of `Inv` that is about the build and the arrays. -/
structure StorageInv (s : State) : Prop where
  cfg_wf     : s.cfg.wf = true
  key_length : s.key.length = s.cfg.keyMaxBytes
  in_wf      : Memory.wf s.inBuf
  in_below   : Memory.below s.inBuf s.cfg.bufBytes
  out_wf     : Memory.wf s.outBuf
  out_below  : Memory.below s.outBuf s.cfg.bufBytes

theorem Inv.storage {s : State} (h : Inv s) : StorageInv s :=
  ⟨h.cfg_wf, h.key_length, h.in_wf, h.in_below, h.out_wf, h.out_below⟩

theorem Inv.opl_of_idle {s : State} (h : Inv s) (hp : s.phase = .idle) : s.opl = none := by
  have hn : ¬ s.opl.isSome = true := fun ho => by simpa [hp] using h.phase_opl.2 ho
  simpa using hn

theorem outWritten_idle {s : State} (hp : s.phase = .idle) : outWritten s = s.outLen.toNat := by
  simp [outWritten, busy_of_idle hp]

theorem outWritten_run {s : State} (hp : s.phase = .run) : outWritten s = 8 * s.blkCnt.toNat := by
  simp [outWritten, busy_of_run hp]

/-- What is left of `Inv` in a released, idle block. -/
theorem StorageInv.inv_of_idle {s : State} (h : StorageInv s) (hr : s.rstAsserted = false) (hp : s.phase = .idle)
    (ho : s.opl = none) (hv : s.outValid = true → s.err = .none) (hl : s.outValid = false → s.outLen = 0)
    (hlen : s.outLen.toNat ≤ s.cfg.bufBytes) (hb : 8 * s.blkCnt.toNat ≤ s.cfg.bufBytes)
    (hw : ∀ i < s.outLen.toNat, (Memory.find s.outBuf i).isSome = true) (hc : s.chain = Block.zero) : Inv s where
  cfg_wf := h.cfg_wf
  key_length := h.key_length
  in_wf := h.in_wf
  in_below := h.in_below
  out_wf := h.out_wf
  out_below := h.out_below
  phase_opl := by simp [hp, ho]
  run_clean := by simp [hp]
  valid_ok := hv
  len_valid := hl
  out_len := hlen
  blk_cnt := hb
  written := by rwa [outWritten_idle hp]
  chain_zero := fun _ _ => hc
  op := by simp [OpInv, ho]
  held := by simp [hr]

/-- What is left of `Inv` in a released block that runs an operation. -/
theorem StorageInv.inv_of_run {s : State} {c : Op} (h : StorageInv s) (hr : s.rstAsserted = false)
    (hp : s.phase = .run) (ho : s.opl = some c)
    (hclean : s.done = false ∧ s.outValid = false ∧ s.err = .none ∧ s.outLen = 0)
    (hb : 8 * s.blkCnt.toNat ≤ s.cfg.bufBytes)
    (hw : ∀ i < 8 * s.blkCnt.toNat, (Memory.find s.outBuf i).isSome = true)
    (hc : c.scrubs = false → s.chain = Block.zero) (hop : OpInv s) : Inv s where
  cfg_wf := h.cfg_wf
  key_length := h.key_length
  in_wf := h.in_wf
  in_below := h.in_below
  out_wf := h.out_wf
  out_below := h.out_below
  phase_opl := by simp [hp, ho]
  run_clean := fun _ => hclean
  valid_ok := by simp [hclean]
  len_valid := by simp [hclean]
  out_len := by simp [hclean]
  blk_cnt := hb
  written := by rwa [outWritten_run hp]
  chain_zero := by
    rw [ho]
    intro he hd
    cases c <;> simp_all [Op.scrubs]
  op := hop
  held := by simp [hr]

/-- The running operation's part of `Inv` looks at no flag, nor at the reset input, the agents' lists or the response. -/
theorem OpInv.frame {s : State} (h : OpInv s) (ie d w c r : Bool) (l : List HostStmt) (ts : List Turn)
    (b : Option BusResp) :
    OpInv { s with
      ie := ie, done := d, wbusy := w, cmdovr := c, rstAsserted := r, host := l, sched := ts, resp := b } := by
  unfold OpInv at h ⊢
  cases ho : s.opl with
  | none => simp only
  | some op =>
    rw [ho] at h
    cases op with
    | encrypt => exact ⟨h.key_ok, h.iv_ok, h.range, h.count, h.chain, h.blocks⟩
    | decrypt => exact ⟨h.key_ok, h.iv_ok, h.length, h.range, h.count, h.chain, h.blocks⟩
    | pad => exact ⟨h.range, h.count⟩
    | unpad => exact ⟨h.range, h.count⟩

/-- A released block stays legal whatever happens to IE, WBUSY, CMDOVR and the agents, and when DONE is cleared. -/
theorem Inv.frame {s : State} (h : Inv s) (ie d w c : Bool) (l : List HostStmt) (ts : List Turn)
    (b : Option BusResp) (hd : s.done = false → d = false) :
    Inv { s with
      ie := ie, done := d, wbusy := w, cmdovr := c, rstAsserted := false, host := l, sched := ts, resp := b } :=
  { h with
    run_clean := fun hp => ⟨hd (h.run_clean hp).1, (h.run_clean hp).2⟩
    op := h.op.frame ie d w c false l ts b
    held := fun hr => by simp at hr }

/-- The agents' lists and the response are not the block's. -/
theorem Inv.pending {s : State} (h : Inv s) (l : List HostStmt) (ts : List Turn) (b : Option BusResp) :
    Inv { s with host := l, sched := ts, resp := b } :=
  { h with op := h.op.frame s.ie s.done s.wbusy s.cmdovr s.rstAsserted l ts b }

theorem Inv.of_keepsOperation {s t : State} (h : Inv s) (hr : s.rstAsserted = false) (hk : KeepsOperation s t) :
    Inv t := by
  obtain ⟨he, hd⟩ := hk
  have hi := h.frame t.ie t.done t.wbusy t.cmdovr t.host t.sched t.resp hd
  rw [he]
  rwa [← hr] at hi

/-! ## Reset -/

/-- The reset values are legal, with `rst_n` at either level and whatever the agents have pending. -/
theorem inv_resetOf {c : Config} (hc : c.wf = true) (b : Bool) (n : Nat) (l : List HostStmt) (ts : List Turn)
    (r : Option BusResp) :
    Inv { State.resetOf c with rstAsserted := b, resetCount := n, host := l, sched := ts, resp := r } where
  cfg_wf := hc
  key_length := by simp [State.resetOf]
  in_wf := (wf_reset c).1
  in_below := fun _ hm => by simp [State.resetOf] at hm
  out_wf := (wf_reset c).2
  out_below := fun _ hm => by simp [State.resetOf] at hm
  phase_opl := by simp [State.resetOf]
  run_clean := by simp [State.resetOf]
  valid_ok := fun _ => rfl
  len_valid := fun _ => rfl
  out_len := by simp [State.resetOf]
  blk_cnt := by simp [State.resetOf]
  written := fun i hi => by simp [outWritten, State.busy, State.resetOf] at hi
  chain_zero := fun _ _ => rfl
  op := trivial
  held := fun _ => rfl

theorem inv_assertReset {s : State} (h : Inv s) : Inv (assertReset s) :=
  inv_resetOf h.cfg_wf true (s.resetCount + 1) s.host s.sched s.resp

theorem inv_releaseReset {s : State} (h : Inv s) : Inv (releaseReset s) :=
  h.frame s.ie s.done s.wbusy s.cmdovr s.host s.sched s.resp id

/-- Settles O35: both are the reset state of a build, released. -/
theorem resetIsLegal : Obligations.ResetIsLegal :=
  ⟨fun _ hc => inv_resetOf hc false 0 [] [] none, inv_resetOf (c := Config.default) (by decide) false 0 [] [] none⟩

/-! ## Completions and the launch -/

theorem storageInv_completeOK {s : State} (h : StorageInv s) (n : Nat) (b : Bool) :
    StorageInv (completeOK n b s) := by
  refine ⟨by simpa using h.cfg_wf, ?_, by simpa using h.in_wf, by simpa using h.in_below, by simpa using h.out_wf,
    by simpa using h.out_below⟩
  cases b <;> simp [h.key_length]

theorem storageInv_completeError {s : State} (h : StorageInv s) (e : Err) (b : Bool) :
    StorageInv (completeError e b s) := by
  refine ⟨by simpa using h.cfg_wf, ?_, by simpa using h.in_wf, by simpa using h.in_below, by simpa using h.out_wf,
    by simpa using h.out_below⟩
  cases b <;> simp [h.key_length]

/-- A successful completion is legal when its `n` output bytes are written. -/
theorem inv_completeOK {s : State} (h : StorageInv s) (hr : s.rstAsserted = false) {n : Nat} {b : Bool}
    (hn : n ≤ s.cfg.bufBytes) (hb : 8 * s.blkCnt.toNat ≤ s.cfg.bufBytes)
    (hw : ∀ i < n, (Memory.find s.outBuf i).isSome = true) (hc : b = false → s.chain = Block.zero) :
    Inv (completeOK n b s) := by
  have hbuf := bufBytes_le_of_wf h.cfg_wf
  have hlen : (completeOK n b s).outLen.toNat = n := by simp; omega
  refine (storageInv_completeOK h n b).inv_of_idle (by simpa using hr) (by simp) (by simp) (by simp) (by simp) ?_
    (by simpa using hb) ?_ ?_
  · rwa [hlen, completeOK_cfg]
  · rwa [hlen, completeOK_outBuf]
  · cases b <;> simp [hc]

theorem inv_completeError {s : State} (h : StorageInv s) (hr : s.rstAsserted = false) {e : Err} {b : Bool}
    (hb : 8 * s.blkCnt.toNat ≤ s.cfg.bufBytes) (hc : b = false → s.chain = Block.zero) :
    Inv (completeError e b s) := by
  refine (storageInv_completeError h e b).inv_of_idle (by simpa using hr) (by simp) (by simp) (by simp) (by simp)
    (by simp) (by simpa using hb) (by simp) ?_
  cases b <;> simp [hc]

theorem storageInv_start {s : State} (h : StorageInv s) : StorageInv (start s) :=
  ⟨h.cfg_wf, h.key_length, h.in_wf, h.in_below, h.out_wf, h.out_below⟩

/-- The operation's part of `Inv` at the launch: no block is done, and CHAIN holds IV where the operation chains. -/
theorem opInv_launch {c : Op} {s : State} (h : GatePasses c s) : OpInv (launch c (start s)) := by
  cases c with
  | encrypt =>
    obtain ⟨hk, hi, hl⟩ := h
    exact ⟨(keyOk_iff _ _).2 hk, (ivOk_iff _).2 hi, hl, Nat.succ_pos _, rfl, fun j hj => absurd hj (Nat.not_lt_zero j)⟩
  | decrypt =>
    obtain ⟨hk, hi, hc, hl⟩ := h
    refine ⟨(keyOk_iff _ _).2 hk, (ivOk_iff _).2 hi, (ctLenOk_iff _).2 hc, hl, ?_, rfl,
      fun j hj => absurd hj (Nat.not_lt_zero j)⟩
    simp
    omega
  | pad => exact ⟨h, rfl⟩
  | unpad => exact ⟨h, rfl⟩

theorem Inv.chain_of_idle {s : State} (h : Inv s) (hp : s.phase = .idle) : s.chain = Block.zero :=
  h.chain_zero (by simp [h.opl_of_idle hp]) (by simp [h.opl_of_idle hp])

theorem inv_acceptOp {s : State} (h : Inv s) (hr : s.rstAsserted = false) (hp : s.phase = .idle) (c : Op) :
    Inv (acceptOp c s) := by
  have hc := h.chain_of_idle hp
  rcases acceptOp_cases c s with ⟨e, -, -, he⟩ | ⟨hg, hl⟩
  · rw [he]
    exact inv_completeError (storageInv_start h.storage) hr (by simp) fun _ => hc
  · rw [hl]
    exact StorageInv.inv_of_run (c := c) ⟨h.cfg_wf, h.key_length, h.in_wf, h.in_below, h.out_wf, h.out_below⟩ hr rfl rfl ⟨rfl, rfl, rfl, rfl⟩ (by simp) (by simp) (fun hs => by simp [hs, hc])
      (opInv_launch ((gatePasses_iff c s).1 hg))

/-! ## Host turns -/

theorem inv_softClear {s : State} (h : Inv s) (hr : s.rstAsserted = false) : Inv (softClear s) := by
  refine StorageInv.inv_of_idle ⟨h.cfg_wf, by simp, h.in_wf, h.in_below, h.out_wf, h.out_below⟩ hr rfl rfl
    (by simp) (by simp) (by simp) (by simp) (by simp) rfl

theorem inv_exec {i : Instr} {s t : State} (h : Inv s) (hr : s.rstAsserted = false) (he : exec i s = .next t) :
    Inv t := by
  rcases exec_cases he with ⟨-, rfl⟩ | ⟨-, -, rfl⟩ | ⟨-, -, rfl⟩ | ⟨-, hp, rfl⟩ | ⟨c, -, hp, rfl⟩
  · exact h
  · exact h.of_keepsOperation hr ⟨rfl, id⟩
  · exact inv_softClear h hr
  · exact inv_completeError (storageInv_start h.storage) hr (by simp) fun _ => h.chain_of_idle hp
  · exact inv_acceptOp h hr hp c

/-- An idle block stays legal under any change of the operands that keeps the arrays in order. -/
theorem Inv.operands {s : State} (h : Inv s) (hr : s.rstAsserted = false) (hp : s.phase = .idle) (kl il nl : Word)
    (k : List Byte) (v : Block) (m : Memory) (hk : k.length = s.cfg.keyMaxBytes) (hw : Memory.wf m)
    (hb : Memory.below m s.cfg.bufBytes) :
    Inv { s with keyLen := kl, ivLen := il, inLen := nl, key := k, iv := v, inBuf := m } :=
  StorageInv.inv_of_idle ⟨h.cfg_wf, hk, hw, hb, h.out_wf, h.out_below⟩ hr hp (h.opl_of_idle hp) h.valid_ok h.len_valid
    h.out_len h.blk_cnt (outWritten_idle hp ▸ h.written) (h.chain_of_idle hp)

theorem inv_writeBytes {s : State} (h : Inv s) (hr : s.rstAsserted = false) (hp : s.phase = .idle) (a n : Nat)
    (v : Word) : Inv (writeBytes s a v n) := by
  obtain ⟨hw, hb⟩ := writeBytes_inBuf s a v n h.in_wf h.in_below
  rw [writeBytes_frame]
  exact h.operands hr hp s.keyLen s.ivLen s.inLen _ _ _ ((writeBytes_key_length s a v n).trans h.key_length) hw hb

theorem inv_hostEffect {s t : State} (h : Inv s) (hr : s.rstAsserted = false) (he : HostEffect s t) : Inv t := by
  cases he with
  | nothing => exact h
  | ctrl v => exact h.of_keepsOperation hr ⟨rfl, id⟩
  | status v => exact h.of_keepsOperation hr ⟨rfl, fun hd => by simp [hd]⟩
  | command w _ hx => exact inv_exec h hr hx
  | dropped _ => exact h.of_keepsOperation hr ⟨rfl, id⟩
  | keyLen v hp => exact h.operands hr hp v s.ivLen s.inLen s.key s.iv s.inBuf h.key_length h.in_wf h.in_below
  | ivLen v hp => exact h.operands hr hp s.keyLen v s.inLen s.key s.iv s.inBuf h.key_length h.in_wf h.in_below
  | inLen v hp => exact h.operands hr hp s.keyLen s.ivLen v s.key s.iv s.inBuf h.key_length h.in_wf h.in_below
  | window a n v hp => exact inv_writeBytes h hr hp a n v
  | ignored a n v hd ha hm => rwa [writeBytes_of_not_droppable v hd ha hm]

theorem inv_hostStep {s t : State} (h : Inv s) (hr : s.rstAsserted = false) (hs : hostStep s = .next t) : Inv t := by
  obtain ⟨l, r, he⟩ := hostStep_effect hs
  exact inv_hostEffect (h.pending l s.sched r) hr he

/-! ## Engine turns -/

/-- A store at the end of what is written extends it. -/
theorem written_store {m : Memory} {a : Nat} {bs : List Byte} (h : ∀ i < a, (Memory.find m i).isSome = true) :
    ∀ i < a + bs.length, (Memory.find (Memory.store m a bs) i).isSome = true := by
  intro i hi
  rcases Nat.lt_or_ge i a with hlt | hge
  · rw [find_store_outside (.inl hlt)]
    exact h i hlt
  · obtain ⟨j, rfl⟩ := Nat.exists_eq_add_of_le hge
    rw [find_store_inside (show j < bs.length by omega)]
    rfl

/-- A store to OUT_BUF inside its capacity keeps the arrays in order, and CHAIN and BLK_CNT are no arrays. -/
theorem storageInv_store {s : State} (h : StorageInv s) (a : Nat) (bs : List Byte) (ch : Block) (k : Word)
    (hle : a + bs.length ≤ s.cfg.bufBytes) :
    StorageInv { s with outBuf := Memory.store s.outBuf a bs, chain := ch, blkCnt := k } :=
  ⟨h.cfg_wf, h.key_length, h.in_wf, h.in_below, wf_store h.out_wf a bs, below_store h.out_below hle⟩

theorem Inv.encryptInv {s : State} (h : Inv s) (ho : s.opl = some .encrypt) : EncryptInv s := by
  simpa [OpInv, ho] using h.op

theorem Inv.decryptInv {s : State} (h : Inv s) (ho : s.opl = some .decrypt) : DecryptInv s := by
  simpa [OpInv, ho] using h.op

theorem Inv.padInv {s : State} (h : Inv s) (ho : s.opl = some .pad) : PadInv s := by
  simpa [OpInv, ho] using h.op

theorem Inv.unpadInv {s : State} (h : Inv s) (ho : s.opl = some .unpad) : UnpadInv s := by
  simpa [OpInv, ho] using h.op

theorem encAdvance_blkCnt_toNat {s : State} (h : EncryptInv s) :
    (encAdvance s).blkCnt.toNat = s.blkCnt.toNat + 1 :=
  blkCnt_succ_toNat h.count (encBlocks_le _)

theorem decAdvance_blkCnt_toNat {s : State} (h : DecryptInv s) :
    (decAdvance s).blkCnt.toNat = s.blkCnt.toNat + 1 :=
  blkCnt_succ_toNat h.count (by have := s.inLen.isLt; omega)

/-- A padded input of admissible length fits the buffer, whose capacity is a whole number of blocks (R119). -/
theorem encBlocks_fit {c : Config} (hc : c.wf = true) {l : Nat} (h : l < c.bufBytes) :
    8 * encBlocks l ≤ c.bufBytes := by
  obtain ⟨-, -, -, hm, -, -, -⟩ := (config_wf_iff c).1 hc
  unfold encBlocks
  omega

theorem inv_encStep {s : State} (h : Inv s) (hr : s.rstAsserted = false) (hp : s.phase = .run)
    (ho : s.opl = some .encrypt) : Inv (encStep s) := by
  have he := h.encryptInv ho
  have hk := encAdvance_blkCnt_toNat he
  have hfit := encBlocks_fit h.cfg_wf he.range
  have hcount := he.count
  have hst : StorageInv (encAdvance s) := storageInv_store h.storage _ _ _ _ (by simp; omega)
  have hw : ∀ i < 8 * (encAdvance s).blkCnt.toNat, (Memory.find (encAdvance s).outBuf i).isSome = true := by
    rw [hk, Nat.mul_succ]
    exact written_store (bs := (encCipherBlock s).toList) (outWritten_run hp ▸ h.written)
  by_cases hl : s.blkCnt.toNat + 1 = encBlocks s.inLen.toNat
  · rw [encStep_of_last hl]
    exact inv_completeOK hst hr hfit (by rw [hk, hl]; exact hfit) (by rwa [hk, hl] at hw) (by simp)
  · rw [encStep_of_not_last hl]
    exact hst.inv_of_run hr hp ho (h.run_clean hp) (by rw [hk, encAdvance_cfg]; omega) hw (by simp [Op.scrubs])
      (by simpa [OpInv, ho] using he.advance hl)

theorem inv_decStep {s : State} (h : Inv s) (hr : s.rstAsserted = false) (hp : s.phase = .run)
    (ho : s.opl = some .decrypt) : Inv (decStep s) := by
  have hd := h.decryptInv ho
  have hk := decAdvance_blkCnt_toNat hd
  have hcount := hd.count
  have hrange := hd.range
  have hst : StorageInv (decAdvance s) := storageInv_store h.storage _ _ _ _ (by simp; omega)
  have hb : 8 * (decAdvance s).blkCnt.toNat ≤ (decAdvance s).cfg.bufBytes := by rw [hk, decAdvance_cfg]; omega
  have hw : ∀ i < 8 * (decAdvance s).blkCnt.toNat, (Memory.find (decAdvance s).outBuf i).isSome = true := by
    rw [hk, Nat.mul_succ]
    exact written_store (bs := (decPlainBlock s).toList) (outWritten_run hp ▸ h.written)
  by_cases hl : s.blkCnt.toNat + 1 = s.inLen.toNat / 8
  · rw [decStep_of_last hl]
    rcases decFinish_cases (decAdvance s) with ⟨-, he⟩ | ⟨r, hu, he⟩
    · rw [he]
      exact inv_completeError hst hr hb (by simp)
    · have hlen : r.length < s.inLen.toNat := by simpa using (unpad_length hu).1
      have hm := ((ctLenOk_iff _).1 hd.length).2
      rw [he]
      exact inv_completeOK hst hr (by rw [decAdvance_cfg]; omega) hb (fun i hi => hw i (by omega)) (by simp)
  · rw [decStep_of_not_last hl]
    exact hst.inv_of_run hr hp ho (h.run_clean hp) hb hw (by simp [Op.scrubs])
      (by simpa [OpInv, ho] using hd.advance hl)

/-- PAD and UNPAD complete in one step that stores `bs` from the start of OUT_BUF. -/
theorem inv_completeOK_store {s : State} (h : Inv s) (hr : s.rstAsserted = false) (hc : s.chain = Block.zero)
    {bs : List Byte} (hle : bs.length ≤ s.cfg.bufBytes) :
    Inv (completeOK bs.length false { s with outBuf := Memory.store s.outBuf 0 bs }) := by
  refine inv_completeOK (storageInv_store h.storage 0 bs s.chain s.blkCnt (by omega)) hr hle h.blk_cnt ?_ fun _ => hc
  have hw := written_store (m := s.outBuf) (a := 0) (bs := bs) fun i hi => absurd hi (Nat.not_lt_zero i)
  rwa [Nat.zero_add] at hw

theorem inv_padStep {s : State} (h : Inv s) (hr : s.rstAsserted = false) (ho : s.opl = some .pad) :
    Inv (padStep s) := by
  have hfit := encBlocks_fit h.cfg_wf (h.padInv ho).range
  have hi := inv_completeOK_store h hr (h.chain_zero (by simp [ho]) (by simp [ho]))
    (bs := (List.range (s.inLen.toNat + padLen s.inLen.toNat)).map (padByte s s.inLen.toNat))
    (by rw [List.length_map, List.length_range, add_padLen]; exact hfit)
  rwa [List.length_map, List.length_range] at hi

theorem inv_unpadStep {s : State} (h : Inv s) (hr : s.rstAsserted = false) (ho : s.opl = some .unpad) :
    Inv (unpadStep s) := by
  have hc := h.chain_zero (by simp [ho]) (by simp [ho])
  have hrange := (h.unpadInv ho).range
  rcases unpadStep_cases s with ⟨-, he⟩ | ⟨r, hu, he⟩
  · rw [he]
    exact inv_completeError h.storage hr h.blk_cnt fun _ => hc
  · have hlen : r.length < s.inLen.toNat := by simpa using (unpad_length hu).1
    rw [he]
    exact inv_completeOK_store h hr hc (by omega)

theorem inv_engineStep {s t : State} (h : Inv s) (hr : s.rstAsserted = false) (hp : s.phase = .run)
    (he : engineStep s = .next t) : Inv t := by
  rcases engineStep_cases he with ⟨ho, rfl⟩ | ⟨ho, rfl⟩ | ⟨ho, rfl⟩ | ⟨ho, rfl⟩
  · exact inv_encStep h hr hp ho
  · exact inv_decStep h hr hp ho
  · exact inv_padStep h hr ho
  · exact inv_unpadStep h hr ho

/-- Settles O34: every turn keeps the legal states, and taking it off the schedule does. -/
theorem stepKeepsInvariant : Obligations.StepKeepsInvariant := by
  intro s t h hs
  have ha : Inv (afterTurn s) := h.pending s.host s.sched.tail s.resp
  rcases takeTurn_cases hs with ⟨rfl, -⟩ | ⟨-, hr, hh⟩ | ⟨-, hr, hp, he⟩ | ⟨-, rfl⟩ | ⟨-, rfl⟩
  · exact ha
  · exact inv_hostStep ha hr hh
  · exact inv_engineStep ha hr hp he
  · exact inv_assertReset ha
  · exact inv_releaseReset ha

/-- The one fault needs PHASE = RUN with OPL = NONE, which no legal state has. -/
theorem engineStep_goes {s : State} (h : Inv s) (hp : s.phase = .run) : ∃ t, engineStep s = .next t := by
  obtain ⟨c, ho⟩ := Option.isSome_iff_exists.1 (h.phase_opl.1 hp)
  cases c with
  | encrypt => exact ⟨_, engineStep_encrypt ho⟩
  | decrypt => exact ⟨_, engineStep_decrypt ho⟩
  | pad => exact ⟨_, engineStep_pad ho⟩
  | unpad => exact ⟨_, engineStep_unpad ho⟩

/-- Settles O36: a host step always goes on, an engine step does where an operation is latched, and reset does. -/
theorem legalStatesNeverStop : Obligations.LegalStatesNeverStop := by
  intro s h
  have ha : Inv (afterTurn s) := h.pending s.host s.sched.tail s.resp
  unfold step takeTurn
  cases nextTurn s with
  | host =>
    simp only
    split
    · exact ⟨_, rfl⟩
    · exact hostStep_goes _
  | engine =>
    simp only
    split
    · exact ⟨_, rfl⟩
    · rename_i hn
      simp only [Bool.or_eq_true, not_or, Bool.not_eq_true', Bool.not_eq_false] at hn
      exact engineStep_goes ha ((busy_iff _).1 hn.2)
  | assertReset => exact ⟨_, rfl⟩
  | releaseReset => exact ⟨_, rfl⟩

end Sys2Proof.Machine
end

section
/-! PROOF. The step counts of the operations (40_gate.md R126, R127), what an engine turn leaves alone, and the host's wait
loop (30_encoding.md R98). -/

namespace Sys2Proof.Machine

/-! ## BLK_CNT and the steps left -/

@[simp] theorem encStep_blkCnt (s : State) : (encStep s).blkCnt = s.blkCnt + 1 := by
  unfold encStep
  split <;> simp

@[simp] theorem decFinish_blkCnt (s : State) : (decFinish s).blkCnt = s.blkCnt := by
  rcases decFinish_cases s with ⟨-, he⟩ | ⟨r, -, he⟩ <;> simp [he]

@[simp] theorem decStep_blkCnt (s : State) : (decStep s).blkCnt = s.blkCnt + 1 := by
  unfold decStep
  split <;> simp

@[simp] theorem padStep_blkCnt (s : State) : (padStep s).blkCnt = s.blkCnt := by simp [padStep]

@[simp] theorem unpadStep_blkCnt (s : State) : (unpadStep s).blkCnt = s.blkCnt := by
  rcases unpadStep_cases s with ⟨-, he⟩ | ⟨r, -, he⟩ <;> simp [he]

@[simp] theorem decFinish_phase (s : State) : (decFinish s).phase = .idle := by
  rcases decFinish_cases s with ⟨-, he⟩ | ⟨r, -, he⟩ <;> simp [he]

@[simp] theorem padStep_phase (s : State) : (padStep s).phase = .idle := by simp [padStep]

@[simp] theorem unpadStep_phase (s : State) : (unpadStep s).phase = .idle := by
  rcases unpadStep_cases s with ⟨-, he⟩ | ⟨r, -, he⟩ <;> simp [he]

theorem stepsLeft_idle {s : State} (hp : s.phase = .idle) : stepsLeft s = 0 := by
  simp [stepsLeft, busy_of_idle hp]

theorem stepsLeft_encrypt {s : State} (hp : s.phase = .run) (ho : s.opl = some .encrypt) :
    stepsLeft s = encBlocks s.inLen.toNat - s.blkCnt.toNat := by
  simp [stepsLeft, busy_of_run hp, ho, encBlocks]

theorem stepsLeft_decrypt {s : State} (hp : s.phase = .run) (ho : s.opl = some .decrypt) :
    stepsLeft s = s.inLen.toNat / 8 - s.blkCnt.toNat := by
  simp [stepsLeft, busy_of_run hp, ho]

theorem stepsLeft_pad {s : State} (hp : s.phase = .run) (ho : s.opl = some .pad) : stepsLeft s = 1 := by
  simp [stepsLeft, busy_of_run hp, ho]

theorem stepsLeft_unpad {s : State} (hp : s.phase = .run) (ho : s.opl = some .unpad) : stepsLeft s = 1 := by
  simp [stepsLeft, busy_of_run hp, ho]

/-- An engine step takes one off the steps left, and completes exactly when one was left. -/
theorem engineStep_stepsLeft {s t : State} (h : Inv s) (hp : s.phase = .run) (he : engineStep s = .next t) :
    stepsLeft t + 1 = stepsLeft s ∧ (t.phase = .idle ↔ stepsLeft s = 1) := by
  rcases engineStep_cases he with ⟨ho, rfl⟩ | ⟨ho, rfl⟩ | ⟨ho, rfl⟩ | ⟨ho, rfl⟩
  · have hcount := (h.encryptInv ho).count
    rw [stepsLeft_encrypt hp ho]
    by_cases hl : s.blkCnt.toNat + 1 = encBlocks s.inLen.toNat
    · have hi : (encStep s).phase = .idle := by simp [encStep_of_last hl]
      rw [stepsLeft_idle hi]
      exact ⟨by omega, iff_of_true hi (by omega)⟩
    · rw [encStep_of_not_last hl, stepsLeft_encrypt (s := encAdvance s) hp ho,
        encAdvance_blkCnt_toNat (h.encryptInv ho), encAdvance_inLen, encAdvance_phase, hp]
      simp only [reduceCtorEq, false_iff]
      omega
  · have hcount := (h.decryptInv ho).count
    rw [stepsLeft_decrypt hp ho]
    by_cases hl : s.blkCnt.toNat + 1 = s.inLen.toNat / 8
    · have hi : (decStep s).phase = .idle := by simp [decStep_of_last hl]
      rw [stepsLeft_idle hi]
      exact ⟨by omega, iff_of_true hi (by omega)⟩
    · rw [decStep_of_not_last hl, stepsLeft_decrypt (s := decAdvance s) hp ho,
        decAdvance_blkCnt_toNat (h.decryptInv ho), decAdvance_inLen, decAdvance_phase, hp]
      simp only [reduceCtorEq, false_iff]
      omega
  · simp [stepsLeft_pad hp ho, stepsLeft_idle]
  · simp [stepsLeft_unpad hp ho, stepsLeft_idle]

theorem stepsLeft_keepsOperation {s t : State} (h : KeepsOperation s t) :
    t.phase = s.phase ∧ stepsLeft t = stepsLeft s := by
  rw [h.1]
  exact ⟨rfl, rfl⟩

/-- Settles O37: the counts of the engine steps, the frame of a host turn, and the launches. -/
theorem everyOperationEnds : Obligations.EveryOperationEnds := by
  refine ⟨fun s t h hp he => ?engine, fun s t _ hp hn h => ?host, fun s hp => ?accept⟩
  case engine =>
    obtain ⟨hleft, hiff⟩ := engineStep_stepsLeft h hp he
    refine ⟨hleft, hiff, fun hi => ?_⟩
    rcases engineStep_phase he with ⟨hs, -⟩ | ⟨-, hd⟩
    · simp [hi, hp] at hs
    · exact hd
  case host =>
    obtain ⟨ht, hleft⟩ := stepsLeft_keepsOperation (hostCannotDisturbOperation s t hp hn h)
    exact ⟨ht.trans hp, hleft⟩
  case accept =>
    have launched : ∀ {c : Op} {n : Nat}, stepsLeft (launch c (start s)) = n →
        GatePasses c s → ∃ t, exec c.instr s = .next t ∧ stepsLeft t = n :=
      fun hn hg => ⟨_, exec_launch hp hg, hn⟩
    exact ⟨launched (c := .encrypt) rfl, launched (c := .decrypt) rfl, launched (c := .pad) rfl,
      launched (c := .unpad) rfl⟩

/-! ## What an engine turn leaves alone -/

theorem engineStep_blkCnt {s t : State} (h : engineStep s = .next t) :
    (s.opl = some .encrypt ∨ s.opl = some .decrypt → t.blkCnt = s.blkCnt + 1) ∧
    (s.opl = some .pad ∨ s.opl = some .unpad → t.blkCnt = s.blkCnt) := by
  rcases engineStep_cases h with ⟨ho, rfl⟩ | ⟨ho, rfl⟩ | ⟨ho, rfl⟩ | ⟨ho, rfl⟩ <;> simp [ho]

theorem inByte_congr {s t : State} (h : t.inBuf = s.inBuf) (hr : t.resetCount = s.resetCount) (i : Nat) :
    inByte t i = inByte s i := by
  simp [inByte, h, hr]

/-- Settles O40: an engine turn is an engine step or nothing. -/
theorem engineTurnFrame : Obligations.EngineTurnFrame := by
  intro s t hn h
  rcases takeTurn_cases h with ⟨rfl, hk⟩ | ⟨hk, -⟩ | ⟨-, hr, hp, he⟩ | ⟨hk, -⟩ | ⟨hk, -⟩
  · refine ⟨rfl, rfl, rfl, rfl, fun _ => rfl, rfl, rfl, rfl, rfl, rfl, rfl, fun hr hp => ?_, fun _ => rfl⟩
    simp [hn, hr, hp] at hk
  · simp [hn] at hk
  · obtain ⟨hcfg, hin, hlen, hie, hwb, hov, hrst, hrc, hhost, hsched, hresp⟩ := engineStep_frame he
    obtain ⟨hblock, hwhole⟩ := engineStep_blkCnt he
    refine ⟨hie, hwb, hov, hlen, inByte_congr hin hrc, hcfg, hrst, hrc, hhost, hsched, hresp,
      fun _ _ ho => hblock ho, fun ho => ?_⟩
    rcases ho with ho | ho | ho
    · exact absurd (hr.symm.trans ho) (by decide)
    · exact absurd (hp.symm.trans ho) (by decide)
    · exact hwhole ho
  · simp [hn] at hk
  · simp [hn] at hk

/-! ## Running to the end -/

theorem Inv.released_of_run {s : State} (h : Inv s) (hp : s.phase = .run) : s.rstAsserted = false := by
  rw [← Bool.not_eq_true]
  intro hr
  have hi : s.phase = .idle := congrArg State.phase (h.held hr)
  simp [hp] at hi

theorem stepsLeft_pos {s : State} (h : Inv s) (hp : s.phase = .run) : 0 < stepsLeft s := by
  obtain ⟨t, he⟩ := engineStep_goes h hp
  have := (engineStep_stepsLeft h hp he).1
  omega

/-- With nothing scheduled the engine brings a legal state to rest in exactly the steps left, and leaves the host's
statements alone. -/
theorem runSteps_stepsLeft {s : State} (h : Inv s) (hs : s.sched = []) :
    ∃ t, runSteps (stepsLeft s) s = .next t ∧ t.phase = .idle ∧ t.rstAsserted = s.rstAsserted ∧ t.sched = [] ∧
      t.host = s.host ∧ t.cfg = s.cfg := by
  generalize hn : stepsLeft s = n
  induction n generalizing s with
  | zero =>
    refine ⟨s, rfl, ?_, rfl, hs, rfl, rfl⟩
    cases hp : s.phase with
    | idle => rfl
    | run =>
      have := stepsLeft_pos h hp
      omega
  | succ n ih =>
    have hp : s.phase = .run := by
      cases hp : s.phase with
      | run => rfl
      | idle => simp [stepsLeft_idle hp] at hn
    have hr := h.released_of_run hp
    obtain ⟨t, he⟩ := engineStep_goes h hp
    obtain ⟨hcfg, -, -, -, -, -, hrst, -, hhost, hsched, -⟩ := engineStep_frame he
    have hleft := (engineStep_stepsLeft h hp he).1
    obtain ⟨u, hu, hui, hur, hus, huh, huc⟩ := ih (inv_engineStep h hr hp he) (hsched.trans hs) (by omega)
    refine ⟨u, ?_, hui, hur.trans hrst, hus, huh.trans hhost, huc.trans hcfg⟩
    rw [runSteps_succ n ((step_run hr hs hp).trans he), hu]

theorem runSteps_add {s t : State} {m : Nat} (k : Nat) (h : runSteps m s = .next t) :
    runSteps (m + k) s = runSteps k t := by
  induction m generalizing s with
  | zero =>
    rw [Nat.zero_add, Host.Outcome.next.inj h]
  | succ m ih =>
    cases hs : step s with
    | next u =>
      rw [runSteps_succ m hs] at h
      rw [Nat.add_right_comm, runSteps_succ _ hs, ih h]
    | fault r => simp [runSteps, Host.Core.run, core, hs] at h
    | refused r => simp [runSteps, Host.Core.run, core, hs] at h

/-- A `wait` on an idle block is satisfied by its first read. -/
theorem step_wait_of_idle {s : State} {rest : List HostStmt} (hr : s.rstAsserted = false) (hs : s.sched = [])
    (hp : s.phase = .idle) (hh : s.host = waitStmt s.cfg :: rest) :
    step s = .next { s with host := rest, resp := some (memRead s Reg.status.offset 4) } := by
  have hread : (memRead s Reg.status.offset 4).data &&& 0x00000001 = 0x00000000 := by
    have hbusy : (statusWord s).getLsbD 0 = false := (statusWord_bit_zero s).trans (busy_of_idle hp)
    have hv : regValue s Reg.status.offset = statusWord s := rfl
    rw [memRead_register s (by decide) rfl, hv]
    exact (BitVec.and_one_eq_setWidth_ofBool_getLsbD).trans (by rw [hbusy]; rfl)
  rw [step_idle hr hs hp, hostStep_poll (by decide) hh, if_pos hread]

/-- Settles O38: the engine finishes first, then the poll reads BUSY = 0. -/
theorem waitReturns : Obligations.WaitReturns := by
  intro s rest h hr hs hh
  obtain ⟨t, ht, hp, htr, hts, hth, htc⟩ := runSteps_stepsLeft h hs
  have hw := step_wait_of_idle (htr.trans hr) hts hp (rest := rest) (by rw [hth, hh, htc])
  exact ⟨_, (runSteps_add 1 ht).trans (runSteps_one hw), rfl, hp, (statusWord_bit_zero _).trans (busy_of_idle hp)⟩

end Sys2Proof.Machine
end

section
/-! PROOF. Whole commands (40_gate.md section 4, 41_padding.md section 3, 42_cbc.md sections 3 and 4): from the acceptance
through every engine step to what the host reads. -/

namespace Sys2Proof.Machine

/-! ## Reading a result -/

theorem outBytes_take (s : State) {l k : Nat} (h : k ≤ l) : (outBytes s l).take k = outBytes s k := by
  simp [outBytes, ← List.map_take, List.take_range, h]

theorem outByte_completeOK {s : State} {r : List Byte} (n : Nat) (b : Bool) (hr : outBytes s r.length = r) :
    ∀ i < r.length, outByte (completeOK n b s) i = r.getD i 0 := fun i hi => by
  rw [outByte_congr (s := s) (by simp) (by simp), ← outBytes_getD s hi, hr]

theorem completeOK_outLen_toNat (s : State) (b : Bool) {n : Nat} (h : n ≤ 65536) :
    (completeOK n b s).outLen.toNat = n := by
  rw [completeOK_outLen, BitVec.toNat_ofNat]
  omega

/-- After a completion the output window reads the result that stands at the start of OUT_BUF (R72). -/
theorem readByte_completeOK {s : State} {r : List Byte} (b : Bool) (hc : s.cfg.wf = true)
    (hle : r.length ≤ s.cfg.bufBytes) (hr : outBytes s r.length = r) :
    ∀ i < r.length, readByte (completeOK r.length b s) (0x20000 + i) = r.getD i 0 := by
  intro i hi
  have hbuf := bufBytes_le_of_wf hc
  rw [readByte_output _ (by rw [completeOK_cfg]; omega) (by rwa [completeOK_cfg]),
    completeOK_outLen_toNat s b (by omega), if_pos ⟨by simp, hi⟩, outByte_completeOK _ b hr i hi]

/-! ## Block steps before the last -/

/-- `b` comes from `a` by stores to the first `n` blocks of OUT_BUF and changes of CHAIN and BLK_CNT. -/
def BlocksFrom (n : Nat) (a b : State) : Prop :=
  (∃ m ch k, b = { a with outBuf := m, chain := ch, blkCnt := k }) ∧ ∀ i, 8 * n ≤ i → outByte b i = outByte a i

theorem BlocksFrom.refl (n : Nat) (a : State) : BlocksFrom n a a := ⟨⟨_, _, _, rfl⟩, fun _ _ => rfl⟩

theorem BlocksFrom.trans {n : Nat} {a b c : State} (hab : BlocksFrom n a b) (hbc : BlocksFrom n b c) :
    BlocksFrom n a c := by
  obtain ⟨⟨m, ch, k, rfl⟩, hb⟩ := hab
  obtain ⟨⟨m', ch', k', rfl⟩, hc⟩ := hbc
  exact ⟨⟨m', ch', k', rfl⟩, fun i hi => (hc i hi).trans (hb i hi)⟩

theorem blocksFrom_encAdvance {n : Nat} {s : State} (h : s.blkCnt.toNat < n) : BlocksFrom n s (encAdvance s) :=
  ⟨⟨_, _, _, rfl⟩, fun _ hi => outByte_store_outside (bs := (encCipherBlock s).toList) rfl rfl (.inr (by simp; omega))⟩

theorem blocksFrom_decAdvance {n : Nat} {s : State} (h : s.blkCnt.toNat < n) : BlocksFrom n s (decAdvance s) :=
  ⟨⟨_, _, _, rfl⟩, fun _ hi => outByte_store_outside (bs := (decPlainBlock s).toList) rfl rfl (.inr (by simp; omega))⟩

theorem BlocksFrom.cfg {n : Nat} {a b : State} (h : BlocksFrom n a b) : b.cfg = a.cfg := by
  obtain ⟨⟨m, ch, k, rfl⟩, -⟩ := h
  rfl

/-- `c` is under way with `rst_n` released and nothing scheduled, so that the engine has the next turn. -/
structure EngineNext (c : Op) (s : State) : Prop where
  opl         : s.opl = some c
  run         : s.phase = .run
  released    : s.rstAsserted = false
  unscheduled : s.sched = []

theorem EngineNext.step {c : Op} {s : State} (h : EngineNext c s) : step s = engineStep s :=
  step_run h.released h.unscheduled h.run

theorem EngineNext.of_blocksFrom {c : Op} {n : Nat} {a b : State} (h : EngineNext c a) (hb : BlocksFrom n a b) :
    EngineNext c b := by
  obtain ⟨⟨m, ch, k, rfl⟩, -⟩ := hb
  exact ⟨h.opl, h.run, h.released, h.unscheduled⟩

theorem engineNext_launch (c : Op) {s : State} (hr : s.rstAsserted = false) (hs : s.sched = []) :
    EngineNext c (launch c (start s)) := ⟨rfl, rfl, hr, hs⟩

/-- The steps of a block operation before its last one, where `adv` is a step that is not the last and keeps `I`. -/
theorem runSteps_blocks {I : State → Prop} {adv : State → State} {n : Nat}
    (hadv : ∀ s, I s → s.blkCnt.toNat + 1 ≠ n →
      step s = .next (adv s) ∧ I (adv s) ∧ (adv s).blkCnt.toNat = s.blkCnt.toNat + 1 ∧ BlocksFrom n s (adv s))
    (m : Nat) {a : State} (ha : I a) (hm : a.blkCnt.toNat + m + 1 = n) :
    ∃ b, runSteps m a = .next b ∧ I b ∧ b.blkCnt.toNat + 1 = n ∧ BlocksFrom n a b := by
  induction m generalizing a with
  | zero => exact ⟨a, rfl, ha, hm, .refl n a⟩
  | succ m ih =>
    obtain ⟨hstep, hi, hk, hf⟩ := hadv a ha (by omega)
    obtain ⟨b, hb, hib, hlast, hfb⟩ := ih hi (by omega)
    exact ⟨b, (runSteps_succ m hstep).trans hb, hib, hlast, hf.trans hfb⟩

/-- A completion with scrub after block steps of an operation accepted in `s`, field by field. -/
theorem completeOK_of_blocksFrom {c : Op} {n : Nat} {s e : State} (hp : s.phase = .idle)
    (h : BlocksFrom n (launch c (start s)) e) (len : Nat) :
    completeOK len true e =
      { s with
        outBuf := e.outBuf, outLen := BitVec.ofNat 32 len, blkCnt := e.blkCnt
        outValid := true, err := .none, done := true, opl := none
        key := List.replicate s.cfg.keyMaxBytes 0, keyLen := 0, iv := Block.zero, ivLen := 0, chain := Block.zero } := by
  obtain ⟨⟨m, ch, k, rfl⟩, -⟩ := h
  rw [hp]
  rfl

theorem completeError_of_blocksFrom {c : Op} {n : Nat} {s e : State} (hp : s.phase = .idle)
    (h : BlocksFrom n (launch c (start s)) e) (x : Err) :
    completeError x true e =
      { s with
        outBuf := e.outBuf, outLen := 0, blkCnt := e.blkCnt
        outValid := false, err := x, done := true, opl := none
        key := List.replicate s.cfg.keyMaxBytes 0, keyLen := 0, iv := Block.zero, ivLen := 0, chain := Block.zero } := by
  obtain ⟨⟨m, ch, k, rfl⟩, -⟩ := h
  rw [hp]
  rfl

/-! ## ENCRYPT -/

/-- All block steps of an accepted ENCRYPT: the last one completes with CBC_ENC of the operands in OUT_BUF. -/
theorem runSteps_launch_encrypt {s : State} (hr : s.rstAsserted = false) (hs : s.sched = [])
    (hg : GatePasses .encrypt s) :
    ∃ e, runSteps (encBlocks s.inLen.toNat) (launch .encrypt (start s)) =
        .next (completeOK (8 * encBlocks s.inLen.toNat) true e) ∧
      outBytes e (8 * encBlocks s.inLen.toNat) =
        cbcEnc s.cfg.primitive (keyOperand s) s.iv (inBytes s s.inLen.toNat) ∧
      e.blkCnt.toNat = encBlocks s.inLen.toNat ∧
      BlocksFrom (encBlocks s.inLen.toNat) (launch .encrypt (start s)) e := by
  have hadv : ∀ a, (EncryptInv a ∧ EngineNext .encrypt a ∧ a.inLen = s.inLen) →
      a.blkCnt.toNat + 1 ≠ encBlocks s.inLen.toNat →
      step a = .next (encAdvance a) ∧
      (EncryptInv (encAdvance a) ∧ EngineNext .encrypt (encAdvance a) ∧ (encAdvance a).inLen = s.inLen) ∧
      (encAdvance a).blkCnt.toNat = a.blkCnt.toNat + 1 ∧ BlocksFrom (encBlocks s.inLen.toNat) a (encAdvance a) := by
    rintro a ⟨hi, he, hl⟩ hn
    have hf : BlocksFrom (encBlocks s.inLen.toNat) a (encAdvance a) := blocksFrom_encAdvance (hl ▸ hi.count)
    rw [← hl] at hn
    refine ⟨?_, ⟨hi.advance hn, he.of_blocksFrom hf, hl⟩, encAdvance_blkCnt_toNat hi, hf⟩
    rw [he.step, engineStep_encrypt he.opl, encStep_of_not_last hn]
  obtain ⟨b, hb, ⟨hi, he, hl⟩, hlast, hf⟩ := runSteps_blocks hadv (s.inLen.toNat / 8)
    ⟨opInv_launch hg, engineNext_launch .encrypt hr hs, rfl⟩ (by simp [encBlocks])
  have hend : step b = .next (completeOK (8 * encBlocks s.inLen.toNat) true (encAdvance b)) := by
    rw [he.step, engineStep_encrypt he.opl, encStep_of_last (by rw [hl, hlast]), hl]
  have hresult := hi.result (by rw [hl, hlast])
  refine ⟨encAdvance b, (runSteps_add 1 hb).trans (runSteps_one hend), ?_, (encAdvance_blkCnt_toNat hi).trans hlast,
    hf.trans (blocksFrom_encAdvance (by omega))⟩
  obtain ⟨⟨m, ch, k, rfl⟩, -⟩ := hf
  exact hresult

theorem word_eq_ofNat {w : Word} {n : Nat} (h : w.toNat = n) : w = BitVec.ofNat 32 n := by
  rw [← h, BitVec.ofNat_toNat, BitVec.setWidth_eq]

/-- Settles O19: the last block step completes a chain of blocks that is CBC_ENC of the operands. -/
theorem encryptCommandResult : Obligations.EncryptCommandResult := by
  intro s hc hp hr hs hg l n ct
  have hlen : ct.length = 8 * n := by simp [ct, n, l]
  have hacc := exec_launch (c := .encrypt) hp hg
  obtain ⟨e, hrun, hresult, hk, hf⟩ := runSteps_launch_encrypt hr hs hg
  obtain ⟨-, -, hrange⟩ := hg
  have hfit : 8 * n ≤ s.cfg.bufBytes := encBlocks_fit hc hrange
  refine ⟨_, _, hacc, hrun, hlen, ?reads, hf.2, ?frame⟩
  case reads =>
    have hread := readByte_completeOK (s := e) (r := ct) true (by rwa [hf.cfg]) (by rwa [hf.cfg, hlen])
      (by rw [hlen]; exact hresult)
    rwa [hlen] at hread
  case frame => rw [completeOK_of_blocksFrom hp hf, word_eq_ofNat hk]; rfl

/-! ## DECRYPT -/

/-- All block steps of an accepted DECRYPT: the last one unpads the raw decrypted bytes at the start of OUT_BUF. -/
theorem runSteps_launch_decrypt {s : State} (hr : s.rstAsserted = false) (hs : s.sched = [])
    (hg : GatePasses .decrypt s) :
    ∃ e, runSteps (s.inLen.toNat / 8) (launch .decrypt (start s)) = .next (decFinish e) ∧
      outBytes e s.inLen.toNat = cbcDecRaw s.cfg.primitive (keyOperand s) s.iv (inBytes s s.inLen.toNat) ∧
      e.blkCnt.toNat = s.inLen.toNat / 8 ∧ e.inLen = s.inLen ∧
      BlocksFrom (s.inLen.toNat / 8) (launch .decrypt (start s)) e := by
  have hadv : ∀ a, (DecryptInv a ∧ EngineNext .decrypt a ∧ a.inLen = s.inLen) →
      a.blkCnt.toNat + 1 ≠ s.inLen.toNat / 8 →
      step a = .next (decAdvance a) ∧
      (DecryptInv (decAdvance a) ∧ EngineNext .decrypt (decAdvance a) ∧ (decAdvance a).inLen = s.inLen) ∧
      (decAdvance a).blkCnt.toNat = a.blkCnt.toNat + 1 ∧ BlocksFrom (s.inLen.toNat / 8) a (decAdvance a) := by
    rintro a ⟨hi, he, hl⟩ hn
    have hf : BlocksFrom (s.inLen.toNat / 8) a (decAdvance a) := blocksFrom_decAdvance (hl ▸ hi.count)
    rw [← hl] at hn
    refine ⟨?_, ⟨hi.advance hn, he.of_blocksFrom hf, hl⟩, decAdvance_blkCnt_toNat hi, hf⟩
    rw [he.step, engineStep_decrypt he.opl, decStep_of_not_last hn]
  have hpos : 0 < s.inLen.toNat / 8 := by
    obtain ⟨-, -, hlen, -⟩ := hg
    omega
  obtain ⟨b, hb, ⟨hi, he, hl⟩, hlast, hf⟩ := runSteps_blocks hadv (s.inLen.toNat / 8 - 1)
    ⟨opInv_launch hg, engineNext_launch .decrypt hr hs, rfl⟩ (by simp; omega)
  have hend : step b = .next (decFinish (decAdvance b)) := by
    rw [he.step, engineStep_decrypt he.opl, decStep_of_last (by rw [hl, hlast])]
  have hrun := (runSteps_add 1 hb).trans (runSteps_one hend)
  rw [Nat.sub_add_cancel hpos] at hrun
  have hresult := hi.result (by rw [hl, hlast])
  refine ⟨decAdvance b, hrun, ?_, (decAdvance_blkCnt_toNat hi).trans hlast, hl,
    hf.trans (blocksFrom_decAdvance (by omega))⟩
  obtain ⟨⟨m, ch, k, rfl⟩, -⟩ := hf
  exact hresult

/-- Settles O20: the last block step unpads what the chain of blocks left, which is CBC_DEC's raw bytes. -/
theorem decryptCommandResult : Obligations.DecryptCommandResult := by
  intro s hc hp hr hs hg l n pt
  have hacc := exec_launch (c := .decrypt) hp hg
  obtain ⟨e, hrun, hraw, hk, hl, hf⟩ := runSteps_launch_decrypt hr hs hg
  obtain ⟨-, -, ⟨-, hmod⟩, hrange⟩ := hg
  have hpt : unpad e.cfg.unpadCheckAll (outBytes e e.inLen.toNat) = pt := by rw [hl, hraw, hf.cfg]; rfl
  refine ⟨_, _, hacc, hrun, fun i hi => ?kept,
    fun hn => ?rejected, fun r hr => ?accepted⟩
  case kept =>
    rw [outByte_congr (s := e) (by simp) (by simp)]
    exact hf.2 i (by omega)
  case rejected =>
    rw [decFinish_of_none (hpt.trans hn)]
    refine ⟨?_, fun i hi => readByte_output_invalid _ (by simp) hi⟩
    rw [completeError_of_blocksFrom hp hf, word_eq_ofNat hk]
  case accepted =>
    have hu := hpt.trans hr
    obtain ⟨hlt, hge, htake⟩ := unpad_length hu
    rw [outBytes_length, hl] at hlt hge
    rw [decFinish_of_some hu]
    refine ⟨?_, hge, hlt, readByte_completeOK true (by rwa [hf.cfg]) ?_ ?_⟩
    · rw [completeOK_of_blocksFrom hp hf, word_eq_ofNat hk]
    · rw [hf.cfg]
      exact Nat.le_trans (Nat.le_of_lt hlt) hrange
    · rw [← outBytes_take e (Nat.le_of_lt (hl ▸ hlt)), ← htake]

end Sys2Proof.Machine
end

section
/-! PROOF. PAD and UNPAD as whole commands, and what holds of every operation's result: it depends neither on the
interleaving nor on anything but the operands (40_gate.md R128, R129; 42_cbc.md section 4). -/

namespace Sys2Proof.Machine

/-! ## PAD and UNPAD -/

theorem outBytes_store_zero {s t : State} {bs : List Byte} (h : t.outBuf = Memory.store s.outBuf 0 bs) :
    outBytes t bs.length = bs := by
  refine list_ext_getD (d := 0) (by simp) fun i hi => ?_
  rw [outBytes_length] at hi
  rw [outBytes_getD t hi]
  simpa [hi] using outByte_store_inside h hi

/-- The one engine step of an accepted PAD or UNPAD that succeeds with `r`: what the host reads, and the frame. -/
theorem completeOK_launch_store {c : Op} (hs : c.scrubs = false) {s : State} (hc : s.cfg.wf = true)
    (hp : s.phase = .idle) {r : List Byte} (hle : r.length ≤ s.cfg.bufBytes) {t : State}
    (ht : t = completeOK r.length false { launch c (start s) with outBuf := Memory.store s.outBuf 0 r }) :
    (∀ i < r.length, readByte t (0x20000 + i) = r.getD i 0) ∧ (∀ i, r.length ≤ i → outByte t i = outByte s i) ∧
      t = { s with
            outBuf := t.outBuf, outLen := BitVec.ofNat 32 r.length, blkCnt := 0
            outValid := true, err := .none, done := true, opl := none } := by
  subst ht
  refine ⟨readByte_completeOK false hc hle (outBytes_store_zero (s := s) rfl),
    fun i hi => outByte_store_outside (bs := r) rfl rfl (.inr (by omega)), ?_⟩
  simp [completeOK, scrubIf, launch, start, hp, hs]

theorem padStep_eq (s : State) :
    padStep s = completeOK (pad (inBytes s s.inLen.toNat)).length false
      { s with outBuf := Memory.store s.outBuf 0 (pad (inBytes s s.inLen.toNat)) } := by
  rw [← padBytes_eq]
  simp [padStep]

/-- Settles O21: the one step stores `pad` of the input. -/
theorem padCommandResult : Obligations.PadCommandResult := by
  intro s hc hp hr hs hg l r
  have hlen : r.length = l + padLen l := by rw [pad_length_eq_add, inBytes_length]
  have hfit : r.length ≤ s.cfg.bufBytes := by
    rw [hlen, add_padLen]
    exact encBlocks_fit hc hg
  have he := engineNext_launch .pad hr hs
  exact ⟨_, _, exec_launch (c := .pad) hp hg, runSteps_one (he.step.trans (engineStep_pad he.opl)), hlen,
    completeOK_launch_store (c := .pad) rfl hc hp hfit (padStep_eq _)⟩

theorem unpadStep_of_none {s : State} (h : unpad s.cfg.unpadCheckAll (inBytes s s.inLen.toNat) = none) :
    unpadStep s = completeError .invalidPadding false s := by
  simp [unpadStep, h]

theorem unpadStep_of_some {s : State} {r : List Byte}
    (h : unpad s.cfg.unpadCheckAll (inBytes s s.inLen.toNat) = some r) :
    unpadStep s = completeOK r.length false { s with outBuf := Memory.store s.outBuf 0 r } := by
  simp [unpadStep, h]

/-- Settles O22: the one step stores `unpad` of the input, or completes with INVALID_PADDING and stores nothing. -/
theorem unpadCommandResult : Obligations.UnpadCommandResult := by
  intro s hc hp hr hs hg
  have he := engineNext_launch .unpad hr hs
  refine ⟨_, _, exec_launch (c := .unpad) hp hg, runSteps_one (he.step.trans (engineStep_unpad he.opl)),
    fun hn => ?rejected, fun r hu => ?accepted⟩
  case rejected =>
    rw [unpadStep_of_none (s := launch .unpad (start s)) hn]
    refine ⟨?_, fun i hi => readByte_output_invalid _ rfl hi⟩
    rw [hp]
    rfl
  case accepted =>
    have hlt : r.length < s.inLen.toNat := by simpa using (unpad_length hu).1
    have hfit : r.length ≤ s.cfg.bufBytes := Nat.le_trans (Nat.le_of_lt hlt) hg
    exact completeOK_launch_store (c := .unpad) rfl hc hp hfit (unpadStep_of_some (s := launch .unpad (start s)) hu)

/-! ## The step that ends an ENCRYPT or a DECRYPT -/

/-- An ENCRYPT step ends the operation only with the last block. -/
theorem encStep_last_of_idle {s : State} (hp : s.phase = .run) (ht : (encStep s).phase = .idle) :
    s.blkCnt.toNat + 1 = encBlocks s.inLen.toNat := by
  by_contra hl
  rw [encStep_of_not_last hl, encAdvance_phase, hp] at ht
  cases ht

theorem decStep_last_of_idle {s : State} (hp : s.phase = .run) (ht : (decStep s).phase = .idle) :
    s.blkCnt.toNat + 1 = s.inLen.toNat / 8 := by
  by_contra hl
  rw [decStep_of_not_last hl, decAdvance_phase, hp] at ht
  cases ht

/-- Settles O23: the chain invariant of a legal state says what the blocks before the last one are. -/
theorem resultUnderAnyInterleaving : Obligations.ResultUnderAnyInterleaving := by
  intro s t h he ht l
  have hbuf := bufBytes_le_of_wf h.cfg_wf
  have run : ∀ {c}, s.opl = some c → s.phase = .run := fun ho => h.phase_opl.2 (by rw [ho]; rfl)
  refine ⟨fun ho => ?encrypt, fun ho => ?decrypt⟩
  case encrypt =>
    intro ct
    have hi := h.encryptInv ho
    have hfit := encBlocks_fit h.cfg_wf hi.range
    obtain rfl := Host.Outcome.next.inj ((engineStep_encrypt ho).symm.trans he)
    have hl := encStep_last_of_idle (run ho) ht
    have hlen : ct.length = 8 * encBlocks l := by simp [ct, encBlocks, l]
    have hout : outBytes (encAdvance s) ct.length = ct := by rw [hlen]; exact hi.result hl
    rw [encStep_of_last hl]
    refine ⟨by simp, by simp, ?_, ?_, outByte_completeOK _ true hout⟩
    · rw [completeOK_outLen_toNat _ true (by omega), hlen]
    · rw [completeOK_blkCnt, encAdvance_blkCnt_toNat hi, hl]
      rfl
  case decrypt =>
    have hi := h.decryptInv ho
    have hrange := hi.range
    obtain rfl := Host.Outcome.next.inj ((engineStep_decrypt ho).symm.trans he)
    have hl := decStep_last_of_idle (run ho) ht
    have hk : (decAdvance s).blkCnt.toNat = l / 8 := (decAdvance_blkCnt_toNat hi).trans hl
    have hraw := hi.result hl
    rw [decStep_of_last hl, cbcDec, ← hraw]
    rcases decFinish_cases (decAdvance s) with ⟨hu, hf⟩ | ⟨r, hu, hf⟩ <;>
      rw [decAdvance_cfg, decAdvance_inLen] at hu <;> rw [hf, hu]
    · refine ⟨by rw [completeError_blkCnt, hk], by simp, by simp, by simp⟩
    · obtain ⟨hlt, -, htake⟩ := unpad_length hu
      rw [outBytes_length] at hlt
      have hout : outBytes (decAdvance s) r.length = r := by
        rw [← outBytes_take (decAdvance s) (Nat.le_of_lt hlt), ← htake]
      exact ⟨by rw [completeOK_blkCnt, hk], by simp, by simp, completeOK_outLen_toNat _ true (by omega),
        outByte_completeOK _ true hout⟩

end Sys2Proof.Machine
end

section
/-! PROOF. The result of an operation as a function of its operands (40_gate.md R128, R129), and the round trip on the
machine (42_cbc.md R169). -/

namespace Sys2Proof.Machine

/-- What an operation accepted in `s` makes of its operands; `none` is INVALID_PADDING. -/
def opResult (c : Op) (s : State) : Option (List Byte) :=
  match c with
  | .encrypt => some (cbcEnc s.cfg.primitive (keyOperand s) s.iv (inBytes s s.inLen.toNat))
  | .decrypt => cbcDec s.cfg.unpadCheckAll s.cfg.primitive (keyOperand s) s.iv (inBytes s s.inLen.toNat)
  | .pad     => some (pad (inBytes s s.inLen.toNat))
  | .unpad   => unpad s.cfg.unpadCheckAll (inBytes s s.inLen.toNat)

/-- The engine steps of an operation on `l` input bytes (R127). -/
def opSteps (c : Op) (l : Nat) : Nat :=
  match c with
  | .encrypt     => l / 8 + 1
  | .decrypt     => l / 8
  | .pad | .unpad => 1

/-- BLK_CNT at the end of an operation on `l` input bytes. -/
def opBlocks (c : Op) (l : Nat) : Nat :=
  match c with
  | .encrypt     => l / 8 + 1
  | .decrypt     => l / 8
  | .pad | .unpad => 0

/-- STATUS, OUT_LEN and the whole output window show the result `r`. -/
def Shows (t : State) (r : Option (List Byte)) : Prop :=
  t.outValid = r.isSome ∧ t.err = (if r = none then .invalidPadding else .none) ∧
    t.outLen = BitVec.ofNat 32 (r.getD []).length ∧
    ∀ i < 0x10000, readByte t (0x20000 + i) = (r.getD []).getD i 0

theorem shows_none {t : State} (hv : t.outValid = false) (he : t.err = .invalidPadding) (hl : t.outLen = 0)
    (hread : ∀ i < 0x10000, readByte t (0x20000 + i) = 0) : Shows t none :=
  ⟨hv, he, hl, hread⟩

/-- Past OUT_LEN the output window reads 0 (R72). -/
theorem readByte_output_past (t : State) {i : Nat} (hl : t.outLen.toNat ≤ i) (hi : i < 0x10000) :
    readByte t (0x20000 + i) = 0 := by
  rcases Nat.lt_or_ge i t.cfg.bufBytes with hb | hb
  · have hr : regionOf t.cfg (0x20000 + i) = .output i := by
      rw [regionOf_output t.cfg (by omega) (by omega) (by omega), Nat.add_sub_cancel_left]
    simp [readByte, hr, Nat.not_lt.2 hl]
  · have hr : regionOf t.cfg (0x20000 + i) = .reserved := regionOf_reserved t.cfg (by omega)
    simp [readByte, hr]

theorem shows_some {t : State} {r : List Byte} (hv : t.outValid = true) (he : t.err = .none)
    (hl : t.outLen = BitVec.ofNat 32 r.length) (hle : r.length ≤ 65536)
    (hread : ∀ i < r.length, readByte t (0x20000 + i) = r.getD i 0) : Shows t (some r) := by
  refine ⟨hv, he, hl, fun i hi => ?_⟩
  rcases Nat.lt_or_ge i r.length with h | h
  · exact hread i h
  · have hlen : t.outLen.toNat = r.length := by rw [hl, BitVec.toNat_ofNat]; omega
    rw [readByte_output_past t (hlen ▸ h) hi, Option.getD_some, List.getD_eq_default _ _ h]

/-- An operation that passes the gate runs to its completion and shows its result. -/
theorem operation_shows_result {c : Op} {s : State} (hc : s.cfg.wf = true) (hp : s.phase = .idle)
    (hr : s.rstAsserted = false) (hs : s.sched = []) (hg : GatePasses c s) :
    ∃ a t, exec c.instr s = .next a ∧ runSteps (opSteps c s.inLen.toNat) a = .next t ∧ t.phase = .idle ∧ t.done = true ∧
      t.blkCnt = BitVec.ofNat 32 (opBlocks c s.inLen.toNat) ∧ Shows t (opResult c s) := by
  have hbuf := bufBytes_le_of_wf hc
  cases c with
  | encrypt =>
    obtain ⟨a, t, ha, ht, hlen, hread, -, hframe⟩ := encryptCommandResult s hc hp hr hs hg
    obtain ⟨-, -, hrange⟩ := hg
    have hfit := encBlocks_fit hc hrange
    rw [← hlen] at hread hframe
    refine ⟨a, t, ha, ht, (congrArg State.phase hframe).trans hp, congrArg State.done hframe,
      congrArg State.blkCnt hframe, shows_some (congrArg State.outValid hframe) (congrArg State.err hframe)
          (congrArg State.outLen hframe) ?_ hread⟩
    exact hlen.le.trans (hfit.trans hbuf)
  | decrypt =>
    obtain ⟨a, t, ha, ht, -, hnone, hsome⟩ := decryptCommandResult s hc hp hr hs hg
    refine ⟨a, t, ha, ht, ?_⟩
    cases hres : opResult .decrypt s with
    | none =>
      obtain ⟨hframe, hread⟩ := hnone hres
      exact ⟨(congrArg State.phase hframe).trans hp, congrArg State.done hframe, congrArg State.blkCnt hframe,
        shows_none (congrArg State.outValid hframe) (congrArg State.err hframe)
          (congrArg State.outLen hframe) hread⟩
    | some r =>
      obtain ⟨hframe, -, hlt, hread⟩ := hsome r hres
      obtain ⟨-, -, -, hrange⟩ := hg
      exact ⟨(congrArg State.phase hframe).trans hp, congrArg State.done hframe, congrArg State.blkCnt hframe,
        shows_some (congrArg State.outValid hframe) (congrArg State.err hframe)
          (congrArg State.outLen hframe) (by omega) hread⟩
  | pad =>
    obtain ⟨a, t, ha, ht, hlen, hread, -, hframe⟩ := padCommandResult s hc hp hr hs hg
    have hfit := encBlocks_fit hc hg
    refine ⟨a, t, ha, ht, (congrArg State.phase hframe).trans hp, congrArg State.done hframe,
      congrArg State.blkCnt hframe, shows_some (congrArg State.outValid hframe) (congrArg State.err hframe)
          (congrArg State.outLen hframe) ?_ hread⟩
    exact hlen.le.trans ((add_padLen s.inLen.toNat).le.trans (hfit.trans hbuf))
  | unpad =>
    obtain ⟨a, t, ha, ht, hnone, hsome⟩ := unpadCommandResult s hc hp hr hs hg
    refine ⟨a, t, ha, ht, ?_⟩
    cases hres : opResult .unpad s with
    | none =>
      obtain ⟨hframe, hread⟩ := hnone hres
      exact ⟨(congrArg State.phase hframe).trans hp, congrArg State.done hframe, congrArg State.blkCnt hframe,
        shows_none (congrArg State.outValid hframe) (congrArg State.err hframe)
          (congrArg State.outLen hframe) hread⟩
    | some r =>
      obtain ⟨hread, -, hframe⟩ := hsome r hres
      have hlt : r.length < s.inLen.toNat := by simpa using (unpad_length hres).1
      have hrange : s.inLen.toNat ≤ s.cfg.bufBytes := hg
      exact ⟨(congrArg State.phase hframe).trans hp, congrArg State.done hframe, congrArg State.blkCnt hframe,
        shows_some (congrArg State.outValid hframe) (congrArg State.err hframe)
          (congrArg State.outLen hframe) (by omega) hread⟩

/-- Settles O24: the gate, the number of steps and the result are functions of the operands. -/
theorem outcomeDependsOnInputsOnly : Obligations.OutcomeDependsOnInputsOnly := by
  rintro c s₁ s₂ hc hcfg ⟨hp₁, hr₁, hs₁⟩ ⟨hp₂, hr₂, hs₂⟩ hkl hk hil hi hnl hin
  have hbytes : inBytes s₁ s₁.inLen.toNat = inBytes s₂ s₁.inLen.toNat :=
    List.map_congr_left fun i hmem => hin i (List.mem_range.1 hmem)
  have hchecks : gateChecks c s₁ = gateChecks c s₂ := by cases c <;> simp only [gateChecks, hcfg, hkl, hil, hnl]
  have hresult : opResult c s₁ = opResult c s₂ := by
    cases c <;> simp only [opResult, hbytes] <;> simp only [hcfg, hk, hi, hnl]
  cases hf : firstFailure (gateChecks c s₁) with
  | some e =>
    refine ⟨0, _, _, _, _, exec_gate_error hp₁ hf, exec_gate_error hp₂ (hchecks ▸ hf), rfl, rfl, ?_⟩
    simp only [completeError_phase, completeError_done, completeError_err, completeError_outLen, completeError_blkCnt,
      start_blkCnt, true_and]
    intro i hlt
    rw [readByte_output_invalid _ (by simp) hlt, readByte_output_invalid _ (by simp) hlt]
  | none =>
    obtain ⟨a₁, t₁, ha₁, ht₁, hi₁, hd₁, hb₁, -, he₁, hl₁, hread₁⟩ :=
      operation_shows_result hc hp₁ hr₁ hs₁ ((gatePasses_iff c s₁).1 hf)
    obtain ⟨a₂, t₂, ha₂, ht₂, hi₂, hd₂, hb₂, -, he₂, hl₂, hread₂⟩ :=
      operation_shows_result (hcfg ▸ hc) hp₂ hr₂ hs₂ ((gatePasses_iff c s₂).1 (hchecks ▸ hf))
    rw [← hresult] at he₂ hl₂ hread₂
    rw [← hnl] at ht₂ hb₂
    exact ⟨_, a₁, a₂, t₁, t₂, ha₁, ha₂, ht₁, ht₂, hi₁, hi₂, hd₁, hd₂, he₁.trans he₂.symm, hl₁.trans hl₂.symm,
      hb₁.trans hb₂.symm, fun i hlt => (hread₁ i hlt).trans (hread₂ i hlt).symm⟩

/-- Settles O25: the second run's input is CBC_ENC of the first one's, which CBC_DEC undoes. -/
theorem encryptThenDecryptOnMachine : Obligations.EncryptThenDecryptOnMachine := by
  intro s₁ a₁ t₁ s₂ hc hp₁ hr₁ hs₁ hg ha ht hcfg hp₂ hr₂ hs₂ hkl hk hil hi hnl hin
  obtain ⟨a, t, ha', ht', hlen, hread, -, hframe⟩ := encryptCommandResult s₁ hc hp₁ hr₁ hs₁ hg
  obtain rfl : a = a₁ := Host.Outcome.next.inj (ha'.symm.trans ha)
  obtain rfl : t = t₁ := Host.Outcome.next.inj (ht'.symm.trans ht)
  obtain ⟨hkey, hiv, hrange⟩ := hg
  have hbuf := bufBytes_le_of_wf hc
  have hfit : 8 * (s₁.inLen.toNat / 8 + 1) ≤ s₁.cfg.bufBytes := encBlocks_fit hc hrange
  have hl₂ : s₂.inLen.toNat = 8 * (s₁.inLen.toNat / 8 + 1) := by
    rw [hnl, congrArg State.outLen hframe, BitVec.toNat_ofNat]
    omega
  have hinput : inBytes s₂ s₂.inLen.toNat =
      cbcEnc s₁.cfg.primitive (keyOperand s₁) s₁.iv (inBytes s₁ s₁.inLen.toNat) := by
    refine list_ext_getD (d := 0) (by rw [inBytes_length, hl₂]; exact hlen.symm) fun i hlt => ?_
    rw [inBytes_length] at hlt
    rw [inBytes_getD s₂ hlt, hin i (hnl ▸ hlt)]
    exact hread i (hl₂ ▸ hlt)
  have hg₂ : GatePasses .decrypt s₂ := by
    refine ⟨?_, by rw [hil, hiv], by omega, by rw [hcfg]; omega⟩
    rwa [hcfg, hkl]
  have hresult : opResult .decrypt s₂ = some (inBytes s₁ s₁.inLen.toNat) := by
    rw [opResult, hinput, hcfg, hk, hi, cbcRoundTrip]
  obtain ⟨a₂, t₂, ha₂, ht₂, -, hd₂, -, hshow⟩ := operation_shows_result (hcfg ▸ hc) hp₂ hr₂ hs₂ hg₂
  rw [hresult] at hshow
  obtain ⟨hv₂, he₂, hlen₂, hread₂⟩ := hshow
  have hsteps : opSteps .decrypt s₂.inLen.toNat = s₁.inLen.toNat / 8 + 1 := by
    rw [hl₂, opSteps, Nat.mul_div_cancel_left _ (by decide)]
  refine ⟨a₂, t₂, ha₂, hsteps ▸ ht₂, hd₂, he₂, hv₂, ?_, fun i hlt => ?_⟩
  · rw [hlen₂, Option.getD_some, inBytes_length]
    exact (word_eq_ofNat rfl).symm
  · rw [hread₂ i (by omega), Option.getD_some, inBytes_getD s₁ hlt]

end Sys2Proof.Machine
end

section
/-! PROOF. What one step does: the host's next access and the reset edges (20_memory.md sections 2 and 3,
70_reset_and_hazards.md section 1), and which steps set and clear the flags (10_state.md section 2, 60_exceptions.md
section 2). -/

namespace Sys2Proof.Machine

/-! ## The turn and the access -/

theorem memWrite_cmd (s : State) (w : Word) :
    memWrite s 0x010 4 w = exec (decode w) { s with resp := some { error := false, data := 0 } } :=
  memWrite_register s w (by decide) rfl

theorem memRead_afterTurn (s : State) (a n : Nat) : memRead (afterTurn s) a n = memRead s a n :=
  memRead_pending s s.host s.sched.tail s.resp a n

/-- A host turn whose statement writes `w` to CMD executes the decoded command (R110). -/
theorem step_write_cmd {s : State} {w : Word} {rest : List HostStmt} (hr : s.rstAsserted = false)
    (hn : nextTurn s = .host) (hh : s.host = .write (s.cfg.base + 0x010) 4 w :: rest) :
    step s = exec (decode w)
      { s with host := rest, sched := s.sched.tail, resp := some { error := false, data := 0 } } := by
  rw [step_host hr hn, hostStep_write (s := afterTurn s) (by decide) hh, memWrite_cmd]
  rfl

/-- Settles O5: a host turn is the host's step on the state with the turn taken, one clause per kind of statement. -/
theorem stepRunsDecodedCommand : Obligations.StepRunsDecodedCommand := by
  refine ⟨fun s hr hn => ⟨fun a n v rest ha hh => ?write, fun w rest hh => step_write_cmd hr hn hh,
    fun a n rest ha hh => ?read, fun a mask v rest ha hh => ?poll, fun addr n mask v rest ha hh => ?outside,
    fun hh => ?none⟩, fun s w => ?fetch⟩
  case write => exact (step_host hr hn).trans (hostStep_write (s := afterTurn s) ha hh)
  case read =>
    rw [step_host hr hn, hostStep_read (s := afterTurn s) ha hh, memRead_afterTurn]
    rfl
  case poll =>
    rw [step_host hr hn, hostStep_poll (s := afterTurn s) ha hh, memRead_afterTurn]
    rfl
  case outside => exact (step_host hr hn).trans (hostStep_outside (s := afterTurn s) ha hh)
  case none => exact (step_host hr hn).trans (hostStep_nil (s := afterTurn s) hh)
  case fetch =>
    have hw : BitVec.ofNat 32 (w % 2 ^ 32) = BitVec.ofNat 32 w := BitVec.eq_of_toNat_eq (by simp)
    rw [step_write_cmd (s := s.withFetchWord 32 w) rfl rfl rfl, hw]
    rfl

/-- While OUT_VALID = 0 every offset from the output window upward reads 0 (R72, R74). -/
theorem readByte_output_invalid_all (s : State) (hv : s.outValid = false) (i : Nat) : readByte s (0x20000 + i) = 0 := by
  rcases Nat.lt_or_ge i 0x10000 with hi | hi
  · exact readByte_output_invalid s hv hi
  · simp [readByte, regionOf_reserved s.cfg (o := 0x20000 + i) (by omega)]

/-- Settles O59: the assertion and the release are turns, and every other turn between them is lost. -/
theorem resetStopsEverything : Obligations.ResetStopsEverything := by
  intro s ts
  refine ⟨fun hs => ?assert, fun hr hn => ?held, fun hs => ?release⟩
  case assert =>
    have hstep : step s = .next (assertReset (afterTurn s)) := by simp [step, nextTurn_cons hs, takeTurn]
    refine ⟨_, hstep, ?_, rfl, rfl, fun i => inByte_of_unwritten (find_nil i), readByte_output_invalid_all _ rfl⟩
    rw [← show s.sched.tail = ts by rw [hs]; rfl]
    rfl
  case held =>
    rcases hn with hn | hn <;> simp [step, hn, takeTurn, hr, afterTurn]
  case release => simp [step, nextTurn_cons hs, takeTurn, releaseReset, afterTurn, hs]

/-! ## What a host step does to the flags, with the statement that does it -/

/-- The effects of a host step on the block, `l` being the statements left and `r` the response. -/
theorem hostStep_effects {s t : State} (h : hostStep s = .next t) :
    ∃ l r, t = { s with host := l, resp := r } ∨
      (∃ v, s.host = .write (s.cfg.base + 0x00C) 4 v :: l ∧ t = ctrlWrite v { s with host := l, resp := r }) ∨
      (∃ w, s.host = .write (s.cfg.base + 0x010) 4 w :: l ∧
        exec (decode w) { s with host := l, resp := r } = .next t) ∨
      (∃ v, s.host = .write (s.cfg.base + 0x014) 4 v :: l ∧ t = statusWrite v { s with host := l, resp := r }) ∨
      (s.phase = .run ∧ t = { s with host := l, resp := r, wbusy := true }) ∨
      (s.phase = .idle ∧ t =
        { s with
          host := l, resp := r, keyLen := t.keyLen, ivLen := t.ivLen, inLen := t.inLen
          key := t.key, iv := t.iv, inBuf := t.inBuf }) := by
  obtain ⟨l, r, ht | ⟨a, n, v, hh, -, hw⟩⟩ := hostStep_cases h
  · exact ⟨l, r, .inl ht⟩
  · obtain ⟨r', ht | ⟨rfl, rfl, ht⟩ | ⟨rfl, rfl, he⟩ | ⟨rfl, rfl, ht⟩ | ⟨hp, ht⟩ | ⟨hp, ht⟩⟩ := memWrite_cases hw
    · exact ⟨l, r', .inl ht⟩
    · exact ⟨l, r', .inr (.inl ⟨v, hh, ht⟩)⟩
    · exact ⟨l, r', .inr (.inr (.inl ⟨v, hh, he⟩))⟩
    · exact ⟨l, r', .inr (.inr (.inr (.inl ⟨v, hh, ht⟩)))⟩
    · exact ⟨l, r', .inr (.inr (.inr (.inr (.inl ⟨hp, ht⟩))))⟩
    · exact ⟨l, r', .inr (.inr (.inr (.inr (.inr ⟨hp, ht⟩))))⟩

/-! ## DONE, OUT_VALID and IE -/

/-- The block is at rest with a result that is valid exactly where there is no error. -/
def AtCompletion (t : State) : Prop := t.phase = .idle ∧ t.opl = none ∧ (t.outValid = true ↔ t.err = .none)

theorem atCompletion_completeOK (n : Nat) (b : Bool) (s : State) : AtCompletion (completeOK n b s) := by
  simp [AtCompletion]

theorem atCompletion_completeError {e : Err} (he : e ≠ .none) (b : Bool) (s : State) :
    AtCompletion (completeError e b s) := by
  simp [AtCompletion, he]

/-- A command sets DONE only by an error completion, and never OUT_VALID or IE. -/
theorem exec_sets {i : Instr} {s t : State} (h : exec i s = .next t) :
    (s.done = false → t.done = true → AtCompletion t) ∧ (t.outValid = true → s.outValid = true) ∧
      (t.ie = true → s.ie = true) := by
  rcases exec_cases h with ⟨-, rfl⟩ | ⟨-, -, rfl⟩ | ⟨-, -, rfl⟩ | ⟨-, -, rfl⟩ | ⟨c, -, -, rfl⟩
  · exact ⟨fun h0 h1 => by simp [h0] at h1, id, id⟩
  · exact ⟨fun h0 h1 => by simp [h0] at h1, id, id⟩
  · simp
  · exact ⟨fun _ _ => atCompletion_completeError (by simp) false _, by simp, by simp⟩
  · rcases acceptOp_cases c s with ⟨e, -, hne, he⟩ | ⟨-, hl⟩
    · rw [he]
      exact ⟨fun _ _ => atCompletion_completeError hne _ _, by simp, by simp⟩
    · simp [hl]

/-- A host step sets DONE only by an error completion, IE only by a CTRL write, and never OUT_VALID. -/
theorem hostStep_sets {s t : State} (h : hostStep s = .next t) :
    (s.done = false → t.done = true → AtCompletion t) ∧ (t.outValid = true → s.outValid = true) ∧
      (s.ie = false → t.ie = true → ∃ (v : Word) (rest : List HostStmt),
        s.host = .write (s.cfg.base + 0x00C) 4 v :: rest ∧ v.getLsbD 0 = true) := by
  obtain ⟨l, r, rfl | ⟨v, hh, rfl⟩ | ⟨w, -, he⟩ | ⟨v, -, rfl⟩ | ⟨-, rfl⟩ | ⟨-, ht⟩⟩ := hostStep_effects h
  · exact ⟨fun h0 h1 => by simp [h0] at h1, id, fun h0 h1 => by simp [h0] at h1⟩
  · exact ⟨fun h0 h1 => by simp [h0] at h1, id, fun _ h1 => ⟨v, l, hh, h1⟩⟩
  · obtain ⟨hd, hv, hi⟩ := exec_sets he
    exact ⟨hd, hv, fun h0 h1 => absurd (hi h1) (by simp [h0])⟩
  · exact ⟨fun h0 h1 => by simp [h0] at h1, id, fun h0 h1 => by simp [h0] at h1⟩
  · exact ⟨fun h0 h1 => by simp [h0] at h1, id, fun h0 h1 => by simp [h0] at h1⟩
  · rw [ht]
    exact ⟨fun h0 h1 => by simp [h0] at h1, id, fun h0 h1 => by simp [h0] at h1⟩

/-- An engine step either goes on, with DONE and OUT_VALID as they were, or completes the operation. -/
theorem engineStep_completes {s t : State} (h : engineStep s = .next t) :
    (t.done = s.done ∧ t.outValid = s.outValid) ∨ (t.done = true ∧ AtCompletion t) := by
  rcases engineStep_cases h with ⟨-, rfl⟩ | ⟨-, rfl⟩ | ⟨-, rfl⟩ | ⟨-, rfl⟩
  · unfold encStep
    split
    · exact .inr ⟨by simp, atCompletion_completeOK _ _ _⟩
    · exact .inl ⟨rfl, rfl⟩
  · unfold decStep
    split
    · rcases decFinish_cases (decAdvance s) with ⟨-, he⟩ | ⟨r, -, he⟩ <;> rw [he]
      · exact .inr ⟨by simp, atCompletion_completeError (by simp) _ _⟩
      · exact .inr ⟨by simp, atCompletion_completeOK _ _ _⟩
    · exact .inl ⟨rfl, rfl⟩
  · exact .inr ⟨by simp [padStep], atCompletion_completeOK _ _ _⟩
  · rcases unpadStep_cases s with ⟨-, he⟩ | ⟨r, -, he⟩ <;> rw [he]
    · exact .inr ⟨by simp, atCompletion_completeError (by simp) _ _⟩
    · exact .inr ⟨by simp, atCompletion_completeOK _ _ _⟩

theorem step_done_rises {s t : State} (h : step s = .next t) (hs : s.done = false) (ht : t.done = true) :
    AtCompletion t := by
  rcases takeTurn_cases h with ⟨rfl, -⟩ | ⟨-, -, hh⟩ | ⟨-, -, -, he⟩ | ⟨-, rfl⟩ | ⟨-, rfl⟩
  · simp [hs] at ht
  · exact (hostStep_sets hh).1 hs ht
  · rcases engineStep_completes he with ⟨hd, -⟩ | ⟨-, hc⟩
    · simp [hs, ht] at hd
    · exact hc
  · simp at ht
  · simp [hs] at ht

theorem step_outValid_rises {s t : State} (h : step s = .next t) (hs : s.outValid = false) (ht : t.outValid = true) :
    s.phase = .run ∧ nextTurn s = .engine ∧ t.done = true ∧ AtCompletion t := by
  rcases takeTurn_cases h with ⟨rfl, -⟩ | ⟨-, -, hh⟩ | ⟨hk, -, hp, he⟩ | ⟨-, rfl⟩ | ⟨-, rfl⟩
  · simp [hs] at ht
  · have hv := (hostStep_sets hh).2.1 ht
    simp [hs] at hv
  · rcases engineStep_completes he with ⟨-, hv⟩ | hc
    · simp [hs, ht] at hv
    · exact ⟨hp, hk, hc⟩
  · simp at ht
  · simp [hs] at ht

theorem step_ie_rises {s t : State} (h : step s = .next t) (hs : s.ie = false) (ht : t.ie = true) :
    nextTurn s = .host ∧ ∃ (v : Word) (rest : List HostStmt),
      s.host = .write (s.cfg.base + 0x00C) 4 v :: rest ∧ v.getLsbD 0 = true := by
  rcases takeTurn_cases h with ⟨rfl, -⟩ | ⟨hk, -, hh⟩ | ⟨-, -, -, he⟩ | ⟨-, rfl⟩ | ⟨-, rfl⟩
  · simp [hs] at ht
  · exact ⟨hk, (hostStep_sets hh).2.2 hs ht⟩
  · obtain ⟨-, -, -, hie, -⟩ := engineStep_frame he
    simp [hs, ht] at hie
  · simp at ht
  · simp [hs] at ht

/-- Settles O41: DONE rises in completions, and OUT_VALID in those of the engine. -/
theorem onlyCompletionsSetDone : Obligations.OnlyCompletionsSetDone := by
  intro s t h
  refine ⟨step_done_rises h, fun hs ht => ?_⟩
  obtain ⟨hp, hk, hd, hi, -, hiff⟩ := step_outValid_rises h hs ht
  exact ⟨hp, hk, hi, hd, hiff.1 ht⟩

theorem irq_iff (s : State) : s.irq = true ↔ s.done = true ∧ s.ie = true := by simp [State.irq]

theorem irq_of_not_ie {s : State} (hi : s.ie = false) : s.irq = false := by simp [State.irq, hi]

/-- Settles O54: irq rises with DONE or with IE, and a write that takes one of them back takes irq back. -/
theorem interruptLine : Obligations.InterruptLine := by
  refine ⟨fun s n => ?level, fun s t h hs ht => ?rises, fun s v => ?falls⟩
  case level => simp [State.drivesLine, irq_iff]
  case rises =>
    obtain ⟨hd, hi⟩ := (irq_iff t).1 ht
    cases hsd : s.done with
    | false =>
      obtain ⟨hp, -, hiff⟩ := step_done_rises h hsd hd
      exact .inl ⟨rfl, hi, hp, hiff⟩
    | true =>
      have hsi : s.ie = false := by simpa [State.irq, hsd] using hs
      exact .inr ⟨rfl, hsi, step_ie_rises h hsi hi⟩
  case falls =>
    obtain ⟨hctrl, -, hstatus, -⟩ := registerWriteMap s v
    exact ⟨fun hv => ⟨_, hstatus, irq_of_not_done (by simp [hv])⟩, fun hv => ⟨_, hctrl, irq_of_not_ie hv⟩⟩

/-! ## The sticky flags -/

/-- WBUSY and CMDOVR do not fall. -/
def KeepsSticky (s t : State) : Prop :=
  (s.wbusy = true → t.wbusy = true) ∧ (s.cmdovr = true → t.cmdovr = true)

theorem exec_keepsSticky {i : Instr} {s t : State} (h : exec i s = .next t) :
    KeepsSticky s t ∨ (i = .clear ∧ s.phase = .idle) := by
  rcases exec_cases h with ⟨-, rfl⟩ | ⟨-, -, rfl⟩ | ⟨hi, hp, -⟩ | ⟨-, -, rfl⟩ | ⟨c, -, -, rfl⟩
  · exact .inl ⟨id, id⟩
  · exact .inl ⟨id, fun _ => rfl⟩
  · exact .inr ⟨hi, hp⟩
  · exact .inl (by simp [KeepsSticky])
  · rcases acceptOp_cases c s with ⟨e, -, -, he⟩ | ⟨-, hl⟩
    · exact .inl (by simp [KeepsSticky, he])
    · exact .inl (by simp [KeepsSticky, hl])

/-- A host step clears a sticky flag only by its STATUS bit or by CLEAR while idle. -/
theorem hostStep_keepsSticky {s t : State} (h : hostStep s = .next t) :
    KeepsSticky s t ∨
    (∃ v rest, s.host = .write (s.cfg.base + 0x014) 4 v :: rest ∧
      t.wbusy = (s.wbusy && !v.getLsbD 8) ∧ t.cmdovr = (s.cmdovr && !v.getLsbD 9)) ∨
    (∃ v rest, s.host = .write (s.cfg.base + 0x010) 4 v :: rest ∧ decode v = .clear ∧ s.phase = .idle) := by
  obtain ⟨l, r, rfl | ⟨v, -, rfl⟩ | ⟨w, hh, he⟩ | ⟨v, hh, rfl⟩ | ⟨-, rfl⟩ | ⟨-, ht⟩⟩ := hostStep_effects h
  · exact .inl ⟨id, id⟩
  · exact .inl ⟨id, id⟩
  · exact (exec_keepsSticky he).imp_right fun ⟨hi, hp⟩ => .inr ⟨w, l, hh, hi, hp⟩
  · exact .inr (.inl ⟨v, l, hh, rfl, rfl⟩)
  · exact .inl ⟨fun _ => rfl, id⟩
  · exact .inl (by rw [ht]; exact ⟨id, id⟩)

/-- Settles O43: of the turns only a host step and the assertion of reset touch the sticky flags. -/
theorem stickyFlagsFall : Obligations.StickyFlagsFall := by
  intro s t h fell
  have of_keeps : KeepsSticky s t →
      (s.wbusy = true → t.wbusy = false → fell 8) ∧ (s.cmdovr = true → t.cmdovr = false → fell 9) :=
    fun ⟨hw, hc⟩ => ⟨fun h1 h0 => absurd (hw h1) (by simp [h0]), fun h1 h0 => absurd (hc h1) (by simp [h0])⟩
  rcases takeTurn_cases h with ⟨rfl, -⟩ | ⟨hk, -, hh⟩ | ⟨-, -, -, he⟩ | ⟨hk, -⟩ | ⟨-, rfl⟩
  · exact of_keeps ⟨id, id⟩
  · rcases hostStep_keepsSticky hh with hs | ⟨v, rest, hst, hw, hc⟩ | ⟨v, rest, hst, hd, hp⟩
    · exact of_keeps hs
    · refine ⟨fun h1 h0 => .inr ⟨hk, v, rest, .inl ⟨hst, ?_⟩⟩, fun h1 h0 => .inr ⟨hk, v, rest, .inl ⟨hst, ?_⟩⟩⟩
      · simpa [h0, h1] using hw
      · simpa [h0, h1] using hc
    · exact ⟨fun _ _ => .inr ⟨hk, v, rest, .inr ⟨hst, hd, hp⟩⟩, fun _ _ => .inr ⟨hk, v, rest, .inr ⟨hst, hd, hp⟩⟩⟩
  · obtain ⟨-, -, -, -, hw, hc, -⟩ := engineStep_frame he
    exact of_keeps ⟨fun h1 => hw.trans h1, fun h1 => hc.trans h1⟩
  · exact ⟨fun _ _ => .inl hk, fun _ _ => .inl hk⟩
  · exact of_keeps ⟨id, id⟩

end Sys2Proof.Machine
end

section
/-! PROOF. Host accesses byte by byte (20_memory.md R62 to R77): what a read answers and does not depend on, where a window
write lands, which writes are dropped or ignored, and the `load` pseudo-instruction (30_encoding.md R98). -/

namespace Sys2Proof.Machine

/-! ## Reads -/

theorem memRead_of_wellFormed (s : State) {a n : Nat} (h : malformed a n = false) :
    memRead s a n = { error := false, data := readBytes s a n } := by
  rw [memRead, if_neg (by simp [h])]

/-- Settles O45: a well-formed read answers `readBytes`, whose bytes are the bytes read. -/
theorem hostReadStep : Obligations.HostReadStep := by
  intro s a n rest hr hn hh ha hw hal hreg
  have hm : malformed a n = false := (malformed_eq_false_iff a n).2 ⟨hw, hal, hreg⟩
  refine ⟨readBytes s a n, ?step, fun j hj => ?inside, fun j hj _ => ?above⟩
  case step =>
    rw [step_host hr hn, hostStep_read (s := afterTurn s) ha hh, memRead_afterTurn, memRead_of_wellFormed s hm]
    rfl
  case inside => rw [byteOf_readBytes, if_pos ⟨hj, by omega⟩]
  case above => rw [byteOf_readBytes, if_neg (by omega)]

/-- A read sees a state only through its bytes. -/
theorem memRead_congr {s t : State} (h : ∀ o, readByte t o = readByte s o) (a n : Nat) :
    memRead t a n = memRead s a n := by
  have hb : ∀ k, readBytes t a k = readBytes s a k := by
    intro k
    induction k with
    | zero => rfl
    | succ k ih => rw [readBytes, readBytes, ih, h]
  rw [memRead, memRead, hb]

/-- Settles O56: of the replaced elements only OUT_BUF is read at all, and only inside the gate. -/
theorem hiddenStateIsInvisible : Obligations.HiddenStateIsInvisible := by
  intro s k c o m a n h
  refine memRead_congr (fun p => ?_) a n
  simp only [readByte]
  cases regionOf s.cfg p with
  | register => rfl
  | key i => rfl
  | iv i => rfl
  | input i => rfl
  | output i =>
    simp only [Bool.and_eq_true, decide_eq_true_eq]
    exact ite_congr rfl (fun ⟨hv, hi⟩ => h hv i hi) fun _ => rfl
  | reserved => rfl

/-! ## Writes that are dropped or ignored -/

/-- R76: a well-formed write to implemented bytes of the operand windows while BUSY sets WBUSY and nothing else. -/
theorem memWrite_of_busy {s : State} {a n : Nat} (v : Word) (hp : s.phase = .run) (hm : malformed a n = false)
    (ha : 0x100 ≤ a) (hd : droppable s.cfg a = true) :
    memWrite s a n v = .next { s with resp := some { error := false, data := 0 }, wbusy := true } := by
  rw [memWrite, if_neg (by simp [hm]), if_neg (by omega), if_pos (by simp [hd, busy_of_run hp])]

/-- Settles O48: the three length registers and the three operand windows take the busy-write rule. -/
theorem busyWritesAreDropped : Obligations.BusyWritesAreDropped := by
  intro s v hp hc dropped
  obtain ⟨-, -, hkey, -, -, hbuf, -⟩ := (config_wf_iff s.cfg).1 hc
  obtain ⟨hctrl, -, hstatus, hkl, hil, hnl, -⟩ := registerWriteMap s v
  refine ⟨⟨?keyLen, ?ivLen, ?inLen⟩, fun a n hn hal ha => ?windows, hctrl, hstatus⟩
  case keyLen => exact hkl.trans (congrArg _ (if_pos hp))
  case ivLen => exact hil.trans (congrArg _ (if_pos hp))
  case inLen => exact hnl.trans (congrArg _ (if_pos hp))
  case windows =>
    have h100 : 0x100 ≤ a := by omega
    exact memWrite_of_busy v hp ((malformed_eq_false_iff a n).2 ⟨hn, hal, .inl h100⟩) h100
      ((droppable_iff s.cfg a).2 (by omega))

theorem memRead_of_zero_bytes {s : State} {a n : Nat} (hm : malformed a n = false)
    (h : ∀ j < n, readByte s (a + j) = 0) : memRead s a n = { error := false, data := 0 } := by
  have hv : readBytes s a n = 0 := word_ext_byteOf fun j hj => by
    rw [byteOf_readBytes, show byteOf 0 j = 0 by simp [byteOf]]
    split
    · exact h j (by omega)
    · rfl
  rw [memRead_of_wellFormed s hm, hv]

/-- Settles O49: registers are read off the register maps; no other reserved place is droppable, and every byte of an
access that starts in one is reserved, since the bounds of such a place are multiples of 8. -/
theorem ignoredWrites : Obligations.IgnoredWrites := by
  intro s a n v hc _ hn hal hreg ignored reserved
  obtain ⟨hk8, -, hkey, hb8, -, hbuf, -⟩ := (config_wf_iff s.cfg).1 hc
  have hm : malformed a n = false := (malformed_eq_false_iff a n).2 ⟨hn, hal, hreg⟩
  obtain ⟨-, -, -, -, -, -, hreadOnly, hreservedReg⟩ := registerWriteMap s v
  refine ⟨fun ha => ?readOnly, fun ⟨ha, _⟩ => ?output, fun ha => ?reserved⟩
  case readOnly =>
    obtain rfl : n = 4 := by omega
    exact hreadOnly a ha
  case output => exact memWrite_of_not_droppable s v hm (by omega) (output_not_droppable s.cfg ha)
  case reserved =>
    rcases Nat.lt_or_ge a 0x100 with hlt | hge
    · obtain rfl : n = 4 := by omega
      refine ⟨hreservedReg a (by omega) hlt hal, ?_⟩
      rw [memRead_register s hlt hal, regValue_reserved s (by omega)]
    · have hd : droppable s.cfg a = false := by
        rw [← Bool.not_eq_true, droppable_iff]
        omega
      refine ⟨memWrite_of_not_droppable s v hm hge hd, memRead_of_zero_bytes hm fun j hj => ?_⟩
      obtain ⟨h256, h8⟩ := access_in_region hm hj
      have hr : regionOf s.cfg (a + j) = .reserved := regionOf_reserved s.cfg (by omega)
      simp [readByte, hr]

end Sys2Proof.Machine
end

section
/-! PROOF. Window writes byte by byte (20_memory.md R62, R67, R70 to R74), and the `load` pseudo-instruction
(30_encoding.md R98). -/

namespace Sys2Proof.Machine

/-! ## Where the bytes of a write land -/

/-- Everything the bytes written at `a`, …, `a + k − 1` do: where each lands, and that nothing else changes. -/
structure BytesWritten (s t : State) (a : Nat) (v : Word) (k : Nat) : Prop where
  outside  : ∀ p, p < a ∨ a + k ≤ p → readByte t p = readByte s p
  key      : ∀ j < k, ∀ i, regionOf s.cfg (a + j) = .key i → t.key.getD i 0 = byteOf v j
  iv       : ∀ j < k, ∀ i, regionOf s.cfg (a + j) = .iv i → t.iv.get i = byteOf v j
  input    : ∀ j < k, ∀ i, regionOf s.cfg (a + j) = .input i → inByte t i = byteOf v j
  keyOther : ∀ i, (∀ j < k, regionOf s.cfg (a + j) ≠ .key i) → t.key.getD i 0 = s.key.getD i 0

/-- A later byte of the write lands at another offset, and so leaves the earlier ones alone. -/
theorem bytesWritten_writeBytes {s : State} (a : Nat) (v : Word) (hk : s.key.length = s.cfg.keyMaxBytes) (k : Nat) :
    BytesWritten s (writeBytes s a v k) a v k := by
  induction k with
  | zero => exact ⟨fun _ _ => rfl, by simp, by simp, by simp, fun _ _ => rfl⟩
  | succ k ih =>
    have hcfg := writeBytes_cfg s a v k
    obtain ⟨hread, hkey, hiv, hin, hkey', hiv', hin'⟩ := writeByte_spec (writeBytes s a v k) (a + k) (byteOf v k)
      (by rw [writeBytes_key_length, hcfg, hk])
    rw [hcfg] at hkey hiv hin hkey' hiv' hin'
    rw [writeBytes]
    refine ⟨fun p hp => ?outside, fun j hj i hr => ?key, fun j hj i hr => ?iv, fun j hj i hr => ?input,
      fun i hi => ?keyOther⟩
    case outside => rw [hread p (by omega), ih.outside p (by omega)]
    case key =>
      rcases Nat.lt_succ_iff_lt_or_eq.1 hj with hlt | rfl
      · rw [hkey' i fun h => by have := (regionOf_inj (hr.trans h.symm)).1 i hr; omega]
        exact ih.key j hlt i hr
      · exact hkey i hr
    case iv =>
      rcases Nat.lt_succ_iff_lt_or_eq.1 hj with hlt | rfl
      · rw [hiv' i (fun h => by have := (regionOf_inj (hr.trans h.symm)).2.1 i hr; omega)
          ((regionOf_bound s.cfg _).2.1 i hr).1]
        exact ih.iv j hlt i hr
      · exact hiv i hr
    case input =>
      rcases Nat.lt_succ_iff_lt_or_eq.1 hj with hlt | rfl
      · rw [hin' i fun h => by have := (regionOf_inj (hr.trans h.symm)).2.2 i hr; omega]
        exact ih.input j hlt i hr
      · exact hin i hr
    case keyOther =>
      rw [hkey' i (hi k (Nat.lt_succ_self k))]
      exact ih.keyOther i fun j hj => hi j (Nat.lt_succ_of_lt hj)

/-- While idle a well-formed write past the registers writes its bytes (R67). -/
theorem memWrite_of_idle {s : State} {a n : Nat} (v : Word) (hp : s.phase = .idle) (hm : malformed a n = false)
    (ha : 0x100 ≤ a) :
    memWrite s a n v = .next (writeBytes { s with resp := some { error := false, data := 0 } } a v n) := by
  rw [memWrite, if_neg (by simp [hm]), if_neg (by omega), if_neg (by simp [busy_of_idle hp])]

/-- The output window and the reserved places read the same whatever the operand arrays hold. -/
theorem readByte_of_not_operand {s : State} {o : Nat} (k : List Byte) (b : Block) (m : Memory) (r : Option BusResp)
    (h : regionOf s.cfg o = .register ∨ (∃ i, regionOf s.cfg o = .output i) ∨ regionOf s.cfg o = .reserved) :
    readByte { s with key := k, iv := b, inBuf := m, resp := r } o = readByte s o := by
  rcases h with h | ⟨i, h⟩ | h <;> simp only [readByte, h] <;> rfl

/-- Settles O47: each byte lands where the map says, and the frame is that of `writeBytes`. -/
theorem windowWriteStoresBytes : Obligations.WindowWriteStoresBytes := by
  intro s a n v hp hk ha hn hal
  have hm : malformed a n = false := (malformed_eq_false_iff a n).2 ⟨hn, hal, .inl ha⟩
  have hw := bytesWritten_writeBytes (s := { s with resp := some { error := false, data := 0 } }) a v hk n
  have hframe := writeBytes_frame { s with resp := some { error := false, data := 0 } } a v n
  refine ⟨_, memWrite_of_idle v hp hm ha, hframe, fun j hj => ?bytes, hw.outside, hw.keyOther⟩
  have hcfg := writeBytes_cfg { s with resp := some { error := false, data := 0 } } a v n
  have other : regionOf s.cfg (a + j) = .register ∨ (∃ i, regionOf s.cfg (a + j) = .output i) ∨
      regionOf s.cfg (a + j) = .reserved →
      readByte (writeBytes { s with resp := some { error := false, data := 0 } } a v n) (a + j) = readByte s (a + j) := by
    intro h
    rw [hframe]
    exact readByte_of_not_operand _ _ _ _ h
  cases hr : regionOf s.cfg (a + j) with
  | key i => exact hw.key j hj i hr
  | iv i => exact ⟨hw.iv j hj i hr, by simp only [readByte, hcfg, hr]; exact hw.iv j hj i hr⟩
  | input i => exact ⟨hw.input j hj i hr, by simp only [readByte, hcfg, hr]; exact hw.input j hj i hr⟩
  | register => exact other (.inl hr)
  | output i => exact other (.inr (.inl ⟨i, hr⟩))
  | reserved => exact other (.inr (.inr hr))

/-! ## `load IN` -/

/-- `t` is `s` with the host's statements down to `rest`, and IN_BUF[pos..pos + bs.length) holding `bs`. -/
structure InputLoaded (s t : State) (pos : Nat) (bs : List Byte) (rest : List HostStmt) : Prop where
  frame   : t = { s with inBuf := t.inBuf, host := rest, resp := t.resp }
  loaded  : ∀ i < bs.length, inByte t (pos + i) = bs.getD i 0
  outside : ∀ i, i < pos ∨ pos + bs.length ≤ i → inByte t i = inByte s i

theorem InputLoaded.append {s t u : State} {pos : Nat} {bs cs : List Byte} {rest rest' : List HostStmt}
    (h : InputLoaded s t pos bs rest) (h' : InputLoaded t u (pos + bs.length) cs rest') :
    InputLoaded s u pos (bs ++ cs) rest' := by
  refine ⟨?_, fun i hi => ?_, fun i hi => ?_⟩
  · rw [h'.frame, h.frame]
  · rw [List.length_append] at hi
    rcases Nat.lt_or_ge i bs.length with hlt | hge
    · rw [h'.outside _ (by omega), h.loaded i hlt, List.getD_append _ _ _ _ hlt]
    · have hl := h'.loaded (i - bs.length) (by omega)
      rw [List.getD_append_right _ _ _ _ hge, ← hl]
      congr 1
      omega
  · rw [List.length_append] at hi
    rw [h'.outside _ (by omega), h.outside _ (by omega)]

/-- IN_BUF after a store of one byte. -/
theorem inByte_store_byte (s : State) (m : Memory) (p : Nat) (b : Byte) (i : Nat) :
    inByte { s with inBuf := Memory.store m p [b] } i = if i = p then b else inByte { s with inBuf := m } i := by
  split
  · rename_i h
    have hs := find_store_inside (m := m) (a := p) (bs := [b]) (j := 0) (by simp)
    simp only [Nat.add_zero, List.getElem_cons_zero] at hs
    simp only [inByte, h, hs, Option.getD_some]
  · have hs := find_store_outside (m := m) (a := p) (x := i) (bs := [b]) (by simp; omega)
    simp only [inByte, hs]

/-- The bytes of a write inside the input window are stored one after the other. -/
theorem writeBytes_input (s : State) {pos : Nat} (v : Word) {k : Nat} (h : pos + k ≤ s.cfg.bufBytes)
    (hb : s.cfg.bufBytes ≤ 65536) :
    ∃ m, writeBytes s (inWin + pos) v k = { s with inBuf := m } ∧
      ∀ i, inByte { s with inBuf := m } i = if pos ≤ i ∧ i < pos + k then byteOf v (i - pos) else inByte s i := by
  induction k with
  | zero => exact ⟨s.inBuf, rfl, fun i => by rw [if_neg (by omega)]⟩
  | succ k ih =>
    obtain ⟨m, hw, hm⟩ := ih (by omega)
    have hr : regionOf s.cfg (inWin + pos + k) = .input (pos + k) := by
      have hin : inWin = 0x10000 := rfl
      rw [regionOf_input s.cfg (by omega) (by omega) (by omega)]
      exact congrArg Region.input (by omega)
    refine ⟨Memory.store m (pos + k) [byteOf v k], ?_, fun i => ?_⟩
    · rw [writeBytes, hw]
      simp only [writeByte, hr]
    · rw [inByte_store_byte s m, hm]
      rcases Nat.lt_trichotomy i (pos + k) with h | rfl | h
      · rw [if_neg (by omega)]
        exact if_congr (by omega) rfl rfl
      · rw [if_pos rfl, if_pos (by omega), Nat.add_sub_cancel_left]
      · rw [if_neg (by omega), if_neg (by omega), if_neg (by omega)]

/-- An idle block with `rst_n` released and nothing scheduled, so that the host has the next turn. -/
structure HostNext (s : State) : Prop where
  cfg_wf      : s.cfg.wf = true
  idle        : s.phase = .idle
  released    : s.rstAsserted = false
  unscheduled : s.sched = []

theorem HostNext.of_inputLoaded {s t : State} {pos : Nat} {bs : List Byte} {rest : List HostStmt} (h : HostNext s)
    (hl : InputLoaded s t pos bs rest) : HostNext t ∧ t.cfg = s.cfg ∧ t.host = rest := by
  have hf := hl.frame
  have hcfg : t.cfg = s.cfg := by rw [hf]
  exact ⟨⟨hcfg ▸ h.cfg_wf, (congrArg State.phase hf).trans h.idle, (congrArg State.rstAsserted hf).trans h.released,
    (congrArg State.sched hf).trans h.unscheduled⟩, hcfg, by rw [hf]⟩

/-- One aligned write inside the input window puts the low bytes of its value there. -/
theorem step_write_input {s : State} (h : HostNext s) {pos n : Nat} {v : Word} {rest : List HostStmt} {bs : List Byte}
    (hn : n = 1 ∨ n = 2 ∨ n = 4) (hal : pos % n = 0) (hfit : pos + n ≤ s.cfg.bufBytes)
    (hh : s.host = .write (s.cfg.base + (inWin + pos)) n v :: rest) (hlen : bs.length = n)
    (hbs : ∀ j < n, byteOf v j = bs.getD j 0) :
    ∃ t, step s = .next t ∧ InputLoaded s t pos bs rest := by
  have hin : inWin = 0x10000 := rfl
  have hbuf := bufBytes_le_of_wf h.cfg_wf
  have hm : malformed (inWin + pos) n = false :=
    (malformed_eq_false_iff _ _).2 ⟨hn, by rw [hin]; rcases hn with rfl | rfl | rfl <;> omega, .inl (by omega)⟩
  obtain ⟨m, hw, hm'⟩ := writeBytes_input { s with host := rest, resp := some { error := false, data := 0 } } v hfit hbuf
  refine ⟨{ s with host := rest, resp := some { error := false, data := 0 }, inBuf := m }, ?step,
    rfl, fun i hi => (hm' (pos + i)).trans ?loaded, fun i hi => (hm' i).trans (if_neg (by omega))⟩
  case step =>
    rw [step_idle h.released h.unscheduled h.idle, hostStep_write (by omega) hh,
      memWrite_of_idle (s := { s with host := rest }) v h.idle hm (by omega)]
    exact congrArg _ hw
  case loaded =>
    rw [if_pos (by omega), Nat.add_sub_cancel_left]
    exact hbs i (by omega)

/-- The bytes of a word made of four bytes (R62). -/
theorem byteOf_wordOfBytes (b0 b1 b2 b3 : Byte) :
    ∀ j < 4, byteOf (wordOfBytes b0 b1 b2 b3) j = [b0, b1, b2, b3].getD j 0 := by
  have h0 := b0.isLt
  have h1 := b1.isLt
  have h2 := b2.isLt
  have h3 := b3.isLt
  intro j hj
  refine BitVec.eq_of_toNat_eq ?_
  rw [byteOf_toNat, wordOfBytes_toNat]
  match j, hj with
  | 0, _ => simp; omega
  | 1, _ => simp; omega
  | 2, _ => simp; omega
  | 3, _ => simp; omega

theorem byteOf_zeroExtend (b : Byte) : ∀ j < 1, byteOf (b.zeroExtend 32) j = [b].getD j 0 := by
  have h := b.isLt
  intro j hj
  obtain rfl : j = 0 := Nat.lt_one_iff.1 hj
  refine BitVec.eq_of_toNat_eq ?_
  rw [byteOf_toNat, BitVec.toNat_setWidth]
  simp
  omega

/-- The accesses of `load` from position `pos` of the input window, a multiple of 4 while whole words are left. -/
theorem runSteps_loadStmts {c : Config} {off : Nat} (bs : List Byte) {s : State} {pos : Nat} {rest : List HostStmt}
    (h : HostNext s) (hc : s.cfg = c) (hoff : off = inWin + pos) (hal : pos % 4 = 0 ∨ bs.length < 4)
    (hfit : pos + bs.length ≤ c.bufBytes) (hh : s.host = loadStmts c off bs ++ rest) :
    ∃ t, runSteps (loadStmts c off bs).length s = .next t ∧ InputLoaded s t pos bs rest := by
  fun_induction loadStmts c off bs generalizing s pos with
  | case1 off b0 b1 b2 b3 bs ih =>
    rw [List.length_cons, List.length_cons, List.length_cons, List.length_cons] at hal hfit
    have hal : pos % 4 = 0 := by omega
    rw [← hc, hoff] at hh
    obtain ⟨u, hu, hl⟩ := step_write_input h (n := 4) (bs := [b0, b1, b2, b3]) (by omega) hal (by rw [hc]; omega) hh rfl
      (byteOf_wordOfBytes b0 b1 b2 b3)
    obtain ⟨hnext, hcfg, hhost⟩ := h.of_inputLoaded hl
    obtain ⟨t, ht, hl'⟩ := ih hnext (hcfg.trans hc) (pos := pos + 4) (by omega) (.inl (by omega)) (by omega)
      (by rw [hhost, hoff, hc]; rfl)
    exact ⟨t, (runSteps_succ _ hu).trans ht, hl.append hl'⟩
  | case2 off b0 bs hshort ih =>
    have hlen : bs.length < 3 := by
      rcases bs with _ | ⟨b1, _ | ⟨b2, _ | ⟨b3, bs⟩⟩⟩
      · simp
      · simp
      · simp
      · exact (hshort b1 b2 b3 bs rfl).elim
    rw [List.length_cons] at hfit
    rw [← hc, hoff] at hh
    obtain ⟨u, hu, hl⟩ := step_write_input h (n := 1) (bs := [b0]) (by omega) (by omega) (by rw [hc]; omega) hh rfl
      (byteOf_zeroExtend b0)
    obtain ⟨hnext, hcfg, hhost⟩ := h.of_inputLoaded hl
    obtain ⟨t, ht, hl'⟩ := ih hnext (hcfg.trans hc) (pos := pos + 1) (by omega) (.inr (by omega)) (by omega)
      (by rw [hhost, hoff, hc]; rfl)
    exact ⟨t, (runSteps_succ _ hu).trans ht, hl.append hl'⟩
  | case3 off => exact ⟨s, rfl, by rw [← show s.host = rest from hh], by simp, fun _ _ => rfl⟩

/-- Settles O57: the accesses of `load` from the start of the window. -/
theorem loadFillsInputWindow : Obligations.LoadFillsInputWindow := by
  intro s bs rest hc hp hr hs hfit hh
  obtain ⟨t, ht, hframe, hin, hout⟩ := runSteps_loadStmts (pos := 0) bs ⟨hc, hp, hr, hs⟩ rfl rfl (.inl rfl)
    (by omega) hh
  exact ⟨t, ht, hframe, fun i hi => by simpa using hin i hi, fun i hi => hout i (.inr (by omega))⟩

end Sys2Proof.Machine
end

section
/-! PROOF. The bits of STATUS and CAPS (10_state.md R24, R28; 60_exceptions.md R210), and the primitive's port (42_cbc.md
R165). -/

namespace Sys2Proof.Machine

/-! ## STATUS -/

theorem flagBit_getLsbD (b : Bool) (k j : Nat) (hj : j < 32) : (flagBit b k).getLsbD j = (decide (j = k) && b) := by
  rw [flagBit, BitVec.getLsbD_shiftLeft, BitVec.getLsbD_setWidth, BitVec.getLsbD_ofBool]
  rcases Nat.lt_trichotomy j k with h | rfl | h
  · simp [h, Nat.ne_of_lt h]
  · simp [hj]
  · simp [show ¬ j - k = 0 by omega, show ¬ j = k by omega]

/-- A field of `w` bits at bit `k` of a word. -/
theorem field_getLsbD {w : Nat} (x : BitVec w) (k j : Nat) (hj : j < 32) :
    (x.zeroExtend 32 <<< k).getLsbD j = (decide (k ≤ j) && x.getLsbD (j - k)) := by
  rw [BitVec.getLsbD_shiftLeft, BitVec.getLsbD_setWidth]
  by_cases h : k ≤ j
  · simp [hj, h, show j - k < 32 by omega]
  · simp [h]

/-- Every bit of STATUS (R28). -/
theorem statusWord_getLsbD (s : State) {j : Nat} (hj : j < 32) :
    (statusWord s).getLsbD j =
      (decide (j = 0) && s.busy || decide (j = 1) && s.done || decide (j = 2) && s.outValid ||
        decide (4 ≤ j) && s.err.code.getLsbD (j - 4) || decide (j = 8) && s.wbusy || decide (j = 9) && s.cmdovr) := by
  simp only [statusWord, BitVec.getLsbD_or, flagBit_getLsbD _ _ _ hj, field_getLsbD _ _ _ hj]

theorem statusWord_err (s : State) : (statusWord s).extractLsb' 4 3 = s.err.code := by
  refine BitVec.eq_of_getLsbD_eq fun i hi => ?_
  rw [BitVec.getLsbD_extractLsb', statusWord_getLsbD s (by omega)]
  simp [hi, show ¬ 4 + i = 1 by omega, show ¬ 4 + i = 2 by omega,
    show ¬ 4 + i = 8 by omega, show ¬ 4 + i = 9 by omega]

/-- Settles O53: the formula of the bits, at each bit. -/
theorem statusWordFields : Obligations.StatusWordFields := by
  refine ⟨fun s => ?fields, fun c => statusWord_of_clear rfl rfl rfl rfl rfl rfl⟩
  have above : ∀ k, 3 ≤ k → s.err.code.getLsbD k = false := fun k hk => BitVec.getLsbD_of_ge _ _ hk
  refine ⟨statusWord_bit_zero s, ?done, ?outValid, ?bit3, ?err, ?bit7, ?wbusy, ?cmdovr, fun j hj => ?high⟩
  case err =>
    rw [statusWord_err]
    cases s.err <;> rfl
  case high =>
    rcases Nat.lt_or_ge j 32 with h | h
    · rw [statusWord_getLsbD s h, above _ (by omega)]
      simp
      omega
    · exact BitVec.getLsbD_of_ge _ _ h
  all_goals
    rw [statusWord_getLsbD s (by decide)]
    simp

/-! ## CAPS -/

/-- Every bit of CAPS (R24): the constant 8 in [7:0], two flags, and KEY_MAX_BYTES from bit 16. -/
theorem capsWord_getLsbD (c : Config) {j : Nat} (hj : j < 32) :
    (capsWord c).getLsbD j =
      (decide (j = 3) || decide (j = 8) && decide (c.keyPolicy = .permissive8) || decide (j = 9) && c.unpadCheckAll ||
        decide (16 ≤ j) && (BitVec.ofNat 9 c.keyMaxBytes).getLsbD (j - 16)) := by
  have h8 : (8 : Word).getLsbD j = decide (j = 3) := by
    revert j
    decide
  simp only [capsWord, BitVec.getLsbD_or, h8, flagBit_getLsbD _ _ _ hj, field_getLsbD _ _ _ hj]

theorem extractLsb'_eq_of_bits {v : Word} {k w : Nat} {x : BitVec w}
    (h : ∀ i < w, v.getLsbD (k + i) = x.getLsbD i) : v.extractLsb' k w = x := by
  refine BitVec.eq_of_getLsbD_eq fun i hi => ?_
  rw [BitVec.getLsbD_extractLsb', h i hi, decide_eq_true hi, Bool.true_and]

theorem capsWord_blockSize (c : Config) : (capsWord c).extractLsb' 0 8 = 8#8 :=
  extractLsb'_eq_of_bits fun i hi => by
    have h8 : ∀ i < 8, (8#8).getLsbD i = decide (i = 3) := by decide
    rw [capsWord_getLsbD c (by omega), h8 i hi]
    simp [show ¬ i = 8 by omega, show ¬ i = 9 by omega, show ¬ 16 ≤ i by omega]

theorem capsWord_reserved (c : Config) : (capsWord c).extractLsb' 10 6 = 0#6 :=
  extractLsb'_eq_of_bits fun i hi => by
    rw [capsWord_getLsbD c (by omega)]
    simp [show ¬ 10 + i = 3 by omega, show ¬ 10 + i = 8 by omega, show ¬ 10 + i = 9 by omega,
      show ¬ 16 ≤ 10 + i by omega]

theorem capsWord_keyMaxBytes (c : Config) : (capsWord c).extractLsb' 16 9 = BitVec.ofNat 9 c.keyMaxBytes :=
  extractLsb'_eq_of_bits fun i hi => by
    rw [capsWord_getLsbD c (by omega)]
    simp [show ¬ 16 + i = 3 by omega, show ¬ 16 + i = 8 by omega, show ¬ 16 + i = 9 by omega]

theorem capsWord_top (c : Config) : (capsWord c).extractLsb' 25 7 = 0#7 :=
  extractLsb'_eq_of_bits fun i hi => by
    rw [capsWord_getLsbD c (by omega), BitVec.getLsbD_of_ge (BitVec.ofNat 9 c.keyMaxBytes) _ (by omega)]
    simp [show ¬ 25 + i = 3 by omega, show ¬ 25 + i = 8 by omega, show ¬ 25 + i = 9 by omega]

/-- Settles O52: each field is read off the formula of the bits; KEY_MAX_BYTES fits its nine bits. -/
theorem capsReportsBuild : Obligations.CapsReportsBuild := by
  refine ⟨fun c hc => ?fields, by decide⟩
  obtain ⟨-, -, hkey, -⟩ := (config_wf_iff c).1 hc
  rw [capsWord_blockSize, capsWord_reserved, capsWord_keyMaxBytes, capsWord_top, capsWord_getLsbD c (by decide),
    capsWord_getLsbD c (by decide)]
  refine ⟨rfl, by simp, by simp, rfl, ?_, rfl⟩
  rw [BitVec.toNat_ofNat]
  omega

/-! ## The port -/

/-- The port value as a number, byte 0 the most significant. -/
theorem portOfBlock_toNat (b : Block) :
    (portOfBlock b).toNat = b.b7.toNat + 2 ^ 8 * (b.b6.toNat + 2 ^ 8 * (b.b5.toNat + 2 ^ 8 * (b.b4.toNat + 2 ^ 8 *
      (b.b3.toNat + 2 ^ 8 * (b.b2.toNat + 2 ^ 8 * (b.b1.toNat + 2 ^ 8 * b.b0.toNat)))))) := by
  have append : ∀ {n : Nat} (x : BitVec n) (y : Byte), (x ++ y).toNat = y.toNat + 2 ^ 8 * x.toNat := by
    intro n x y
    rw [BitVec.toNat_append, ← Nat.shiftLeft_add_eq_or_of_lt y.isLt, Nat.shiftLeft_eq]
    omega
  simp only [portOfBlock, append]

theorem portOfBlock_byte (b : Block) : ∀ j < 8, (portOfBlock b).extractLsb' (56 - 8 * j) 8 = b.get j := by
  have h0 := b.b0.isLt
  have h1 := b.b1.isLt
  have h2 := b.b2.isLt
  have h3 := b.b3.isLt
  have h4 := b.b4.isLt
  have h5 := b.b5.isLt
  have h6 := b.b6.isLt
  have h7 := b.b7.isLt
  have of_toNat : ∀ (k : Nat) (x : Byte), (portOfBlock b).toNat / 2 ^ k % 2 ^ 8 = x.toNat →
      (portOfBlock b).extractLsb' k 8 = x := fun k x h =>
    BitVec.eq_of_toNat_eq (by rw [BitVec.extractLsb'_toNat, Nat.shiftRight_eq_div_pow, h])
  rw [portOfBlock_toNat] at of_toNat
  refine forall_lt_eight ?_ ?_ ?_ ?_ ?_ ?_ ?_ ?_ <;> exact of_toNat _ _ (by simp only [Block.get]; omega)

@[simp] theorem blockOfPort_portOfBlock (b : Block) : blockOfPort (portOfBlock b) = b :=
  (Block.ofFn_congr (portOfBlock_byte b)).trans (Block.ofFn_get b)

/-- Settles O60: the port packs and unpacks a block, and a block step's call carries the operands of its one E or D. -/
theorem portCarriesTheCall : Obligations.PortCarriesTheCall := by
  refine ⟨fun b => ⟨blockOfPort_portOfBlock b, portOfBlock_byte b⟩, fun s hk => ?calls, fun s ho => ?none⟩
  case calls =>
    intro carriesKey
    have key : ∀ i < s.cfg.keyMaxBytes,
        (BitVec.ofNat (8 * s.cfg.keyMaxBytes) (bigEndian s.key)).extractLsb' (8 * (s.cfg.keyMaxBytes - 1 - i)) 8 =
          s.key.getD i 0 := fun i hi => keyWires_byte s.key _ i hk hi
    refine ⟨fun ho => ⟨_, by rw [portCall, ho], rfl, ⟨rfl, key⟩, ?_⟩,
      fun ho => ⟨_, by rw [portCall, ho], rfl, ⟨rfl, key⟩, ?_⟩⟩
    · rw [blockOfPort_portOfBlock]; rfl
    · rw [blockOfPort_portOfBlock]; rfl
  case none => rcases ho with ho | ho | ho <;> simp [portCall, ho]

end Sys2Proof.Machine
end
